-- ==== Sys2Proof/Word.lean ====
section
/-! DEFINITION. The word types of the block, under the names the spec gives them, and the constants the source fixes. -/

namespace Sys2Proof

/-- A command word, 32 bits (30_encoding.md R100). -/
abbrev CmdWord := BitVec 32

/-- A host word address: 4-bit space, 28-bit index (20_memory.md R71). -/
abbrev HostAddr := BitVec 32

/-- The data of one host access (20_memory.md R70). -/
abbrev HostData := BitVec 64

/-- FX16, a 16-bit two's complement fixed-point word (30_encoding.md R107). -/
abbrev Fx16 := BitVec 16

/-- A binary32 pattern (30_encoding.md R108). -/
abbrev Real32 := BitVec 32

/-- FXACC, the 64-bit word of ACC, TOUT and OMEM (30_encoding.md R110). -/
abbrev FxAcc := BitVec 64

/-- `W` of 00_scope.md R5: the width of a fixed-point word. -/
abbrev wordWidth : Nat := 16

/-- `NPLANES` of 00_scope.md R5: the bit-planes of an encoded input. -/
abbrev nPlanes : Nat := 16

/-- `T` of 00_scope.md R5: rows and columns of one crossbar tile. -/
abbrev tileDim : Nat := 128

/-- Cells of one slice plane (10_state.md R50). -/
abbrev planeCells : Nat := 16384

end Sys2Proof
end

