-- ==== Sys2Proof/Syntax.lean ====
section
/-! DEFINITION. The ten commands of BSL-1 (30_encoding.md R104), one constructor per row of the opcode table. -/

namespace Sys2Proof

/-- The immediate `fmt` of QENC (30_encoding.md R112): bit 0 clear selects the input format F_IN, set the weight format F_W. -/
inductive FmtSel where
  | input
  | weight
deriving DecidableEq, Repr

/-- The command set (30_encoding.md R104). -/
inductive Instr where
  /-- QENC, 40_quantize_slice.md R134. -/
  | qenc (fmt : FmtSel)
  /-- BSLICE, 40_quantize_slice.md R137; `k` is the slice index, 5 bits. -/
  | bslice (k : Nat)
  /-- BUILD, 41_build.md R152. -/
  | build
  /-- INVAL, 41_build.md R155. -/
  | inval
  /-- ENCP, 44_conv.md R199. -/
  | encp
  /-- TMVM, 42_tile_mvm.md R171. -/
  | tmvm
  /-- SMVM, 43_scheduler.md R187. -/
  | smvm
  /-- CONV, 44_conv.md R200. -/
  | conv
  /-- CLRERR, 45_system.md R220. -/
  | clrerr
  /-- SRESET, 45_system.md R221. -/
  | sreset
deriving DecidableEq, Repr

end Sys2Proof
end

