-- ==== Sys2Proof/WellFormed.lean ====
section
/-! DEFINITION. Which terms of `Instr` have an encoding: an immediate fits its field (30_encoding.md R112). -/

namespace Sys2Proof

/-- The immediates fit their fields: `k` is 0 to 31; every other command is well formed as it stands. -/
def Instr.wellFormed : Instr → Bool
  | .qenc _ => true
  | .bslice k => decide (k < 32)
  | .build => true
  | .inval => true
  | .encp => true
  | .tmvm => true
  | .smvm => true
  | .conv => true
  | .clrerr => true
  | .sreset => true

/-- The same as a proposition. -/
abbrev Instr.WellFormed (i : Instr) : Prop := i.wellFormed = true

end Sys2Proof
end

