-- ==== Sys2Proof/Decode.lean ====
section
/-! DEFINITION. From a 32-bit command word to a command, or a rejection by name (30_encoding.md R100 to R106), and back. -/

namespace Sys2Proof

/-- Why a word is no command (30_encoding.md R105); both are the error PROTO_ILLEGAL_CMD of the machine. -/
inductive DecodeError where
  /-- The opcode byte is none of the ten. -/
  | unknownOpcode (op : BitVec 8)
  /-- The opcode byte is listed and a "must be 0" bit is 1. -/
  | mustBeZero (op : BitVec 8)
deriving DecidableEq, Repr

/-- One row of the opcode table: a word `w` is the command when `w &&& mask = pattern`; `build` reads the immediates. -/
structure OpRow where
  pattern : CmdWord
  mask : CmdWord
  build : CmdWord → Instr

/-- The immediate `fmt`, bit 0 of format Q (30_encoding.md R102, R112). -/
def fmtField (w : CmdWord) : FmtSel := if w.getLsbD 0 then .weight else .input

/-- The immediate `k`, bits 4:0 of format K (30_encoding.md R103, R112). -/
def kField (w : CmdWord) : Nat := (w.extractLsb' 0 5).toNat

/-- The opcode byte, bits 31:24 of every format (30_encoding.md R100). -/
def opField (w : CmdWord) : BitVec 8 := w.extractLsb' 24 8

/-- The ten rows of 30_encoding.md R104. -/
def opcodeTable : List OpRow :=
  [ ⟨0x01000000#32, 0xFFFFFFFE#32, fun w => .qenc (fmtField w)⟩,
    ⟨0x02000000#32, 0xFFFFFFE0#32, fun w => .bslice (kField w)⟩,
    ⟨0x10000000#32, 0xFFFFFFFF#32, fun _ => .build⟩,
    ⟨0x11000000#32, 0xFFFFFFFF#32, fun _ => .inval⟩,
    ⟨0x20000000#32, 0xFFFFFFFF#32, fun _ => .encp⟩,
    ⟨0x21000000#32, 0xFFFFFFFF#32, fun _ => .tmvm⟩,
    ⟨0x22000000#32, 0xFFFFFFFF#32, fun _ => .smvm⟩,
    ⟨0x30000000#32, 0xFFFFFFFF#32, fun _ => .conv⟩,
    ⟨0x40000000#32, 0xFFFFFFFF#32, fun _ => .clrerr⟩,
    ⟨0x7F000000#32, 0xFFFFFFFF#32, fun _ => .sreset⟩ ]

/-- The first row a word matches; the rows are disjoint (30_encoding.md R104). -/
def matchRow (w : CmdWord) : List OpRow → Option Instr
  | [] => none
  | r :: rest => if w &&& r.mask = r.pattern then some (r.build w) else matchRow w rest

/-- The name of the rejection of a word that matches no row (30_encoding.md R105). -/
def rejection (w : CmdWord) : DecodeError :=
  if opcodeTable.any (fun r => opField r.pattern == opField w) then .mustBeZero (opField w) else .unknownOpcode (opField w)

/-- The decoder, total on every command word. -/
def decode (w : CmdWord) : Except DecodeError Instr :=
  match matchRow w opcodeTable with
  | some i => .ok i
  | none => .error (rejection w)

/-- The word of a command (30_encoding.md R101 to R104); of an immediate only its field's bits are placed. -/
def encode : Instr → CmdWord
  | .qenc .input => 0x01000000#32
  | .qenc .weight => 0x01000001#32
  | .bslice k => 0x02000000#32 ||| (BitVec.ofNat 5 k).setWidth 32
  | .build => 0x10000000#32
  | .inval => 0x11000000#32
  | .encp => 0x20000000#32
  | .tmvm => 0x21000000#32
  | .smvm => 0x22000000#32
  | .conv => 0x30000000#32
  | .clrerr => 0x40000000#32
  | .sreset => 0x7F000000#32

/-- A table row's bits as the command word the host writes to CMD: bits above `nbits` are 0. -/
def tableWord (nbits w : Nat) : CmdWord := BitVec.ofNat 32 (w % 2 ^ nbits)

/-- What the decoder reads from the instruction whose bits, numbered as spec/opcode_table.json numbers them, are `w`. -/
def decodeTableWord (nbits w : Nat) : Option Instr :=
  match decode (tableWord nbits w) with
  | .ok i => some i
  | .error _ => none

end Sys2Proof
end

