-- ==== Sys2Proof/Config.lean ====
section
/-! DEFINITION. What an implementation fixes: the seven open capacities, and the values the spec leaves open, as constants without a body. -/

namespace Sys2Proof

/-- The nine mapped spaces of the host address map (20_memory.md R72). -/
inductive Space where
  | csr | wmem | bmem | imem | omem | tstore | pbuf | acc | tout
deriving DecidableEq, Repr

/-- The capacities `CAP_*`, open parameters of the model (00_scope.md R6): words of WMEM, BMEM, IMEM, OMEM, slice planes of
TSTORE, words of PBUF, words of ACC. -/
structure Capacities where
  capW : Nat
  capB : Nat
  capI : Nat
  capO : Nat
  capX : Nat
  capP : Nat
  capA : Nat
deriving DecidableEq, Repr

/-- The ranges 00_scope.md R6 gives the seven capacities. -/
abbrev Capacities.Legal (c : Capacities) : Prop :=
  (1 ≤ c.capW ∧ c.capW ≤ 2 ^ 28) ∧ (1 ≤ c.capB ∧ c.capB ≤ 65535) ∧ (1 ≤ c.capI ∧ c.capI ≤ 2 ^ 28) ∧
  (1 ≤ c.capO ∧ c.capO ≤ 2 ^ 28) ∧ (1 ≤ c.capX ∧ c.capX ≤ 16384) ∧ (1 ≤ c.capP ∧ c.capP ≤ 2 ^ 28) ∧
  (128 ∣ c.capA ∧ 128 ≤ c.capA ∧ c.capA ≤ 65536)

namespace Config

/-- The instance `State.reset` runs with: the largest capacities 00_scope.md R6 allows. DESIGN CHOICE, log 5: the spec leaves
them open; claims quantify over every state and so over every capacity. -/
def capacities : Capacities where
  capW := 2 ^ 28
  capB := 65535
  capI := 2 ^ 28
  capO := 2 ^ 28
  capX := 16384
  capP := 2 ^ 28
  capA := 65536

/-- The unspecified contents of a memory word that nothing has written since the hardware reset numbered by the first
argument (70_reset_and_hazards.md R272, 93_implementation_defined.md U1): "each word holds some value of its width, fixed
until written, about which no rule says anything". A free value, log 3. -/
opaque powerOnWord : Nat → Space → Nat → BitVec 64

/-- Whether a read of FMT returns the bits written to its reserved field 7:4, or 0 (10_state.md R35,
93_implementation_defined.md U6: "any value of two"). A free value, log 6. -/
opaque fmtReservedReadsBack : Bool

end Config

end Sys2Proof
end

