-- ==== Sys2Proof/Machine/State.lean ====
section
/-! DEFINITION. The architectural state of the block (10_state.md R20) as plain data, its value after hardware reset, and the reasons a step can stop. -/

namespace Sys2Proof.Machine

/-- STATUS.STATE (10_state.md R22, R45); the value 2 never occurs. -/
inductive BlockState where
  /-- No valid tile grid. -/
  | unbuilt
  /-- TSTORE holds the tile grid of the layer registers' layer. -/
  | built
  /-- A fatal error was raised. -/
  | fault
deriving DecidableEq, Repr

/-- The errors of 60_exceptions.md R236. -/
inductive ErrorCode where
  | cfgZeroDim | cfgGroupsInvalid | cfgGroupsUnsupported | cfgSliceW | cfgCapacity | cfgKernelExtent | cfgTileDim
  | protoLocked | protoNotBuilt | protoOperand | protoIllegalCmd
  | tileBoundary
deriving DecidableEq, Repr

/-- The registers of space 0 (10_state.md R21), CMD included. -/
inductive Csr where
  | status | errCode | errInfo | cmd | arg0 | result | tileI | tileJ
  | inCh | outCh | kRows | kCols | stride | pad | dil | groups | biasEn | sliceW | fmt
  | inRows | inCols | posR | posC
  | inFeat | rowTiles | colTiles | nSlices | outRows | outCols | tileDim
deriving DecidableEq, Repr

/-- One access of the host to the block (20_memory.md R70), or a pulse of the hardware reset input
(70_reset_and_hazards.md R270). -/
inductive PortEvent where
  /-- `HostRead(A)`. -/
  | read (addr : HostAddr)
  /-- `HostWrite(A, d)`. -/
  | write (addr : HostAddr) (data : HostData)
  /-- Hardware reset. -/
  | reset
deriving DecidableEq, Repr

/-- A word-addressed memory of words of width `w` (10_state.md section 3). An index is WRITTEN when it is below `filled` or
listed in `cells`; a listed index holds its listed word, an unlisted one below `filled` holds 0. An index that is not
written holds the unspecified contents of 70_reset_and_hazards.md R272. The canonical form is `Memory.wf` (log 4). -/
structure Memory (w : Nat) where
  filled : Nat
  cells : List (Nat × BitVec w)
deriving DecidableEq, Repr

/-- A memory in which nothing is written. -/
abbrev Memory.empty (w : Nat) : Memory w := ⟨0, []⟩

/-- The complete architectural state (10_state.md R20), then the model's own four fields. -/
structure State where
  /-- STATUS.STATE, R22. -/
  state : BlockState
  /-- STATUS.BUSY, R22, R44. -/
  busy : Bool
  /-- STATUS.QOVF, R43. -/
  qovf : Bool
  /-- ERR_CODE, R23. -/
  errCode : BitVec 8
  /-- ERR_INFO, R24. -/
  errInfo : BitVec 64
  /-- ARG0, R26. -/
  arg0 : BitVec 32
  /-- RESULT, R27. -/
  result : BitVec 16
  /-- TILE_I, R28. -/
  tileI : BitVec 32
  /-- TILE_J, R28. -/
  tileJ : BitVec 32
  /-- IN_CH, R29. -/
  inCh : BitVec 16
  /-- OUT_CH, R29. -/
  outCh : BitVec 16
  /-- K_ROWS, R30. -/
  kRows : BitVec 8
  /-- K_COLS, R30. -/
  kCols : BitVec 8
  /-- STRIDE, R31. -/
  stride : BitVec 8
  /-- PAD, R31. -/
  pad : BitVec 8
  /-- DIL, R31. -/
  dil : BitVec 8
  /-- GROUPS, R32. -/
  groups : BitVec 16
  /-- BIAS_EN, R33. -/
  biasEn : BitVec 1
  /-- SLICE_W, R34. -/
  sliceW : BitVec 5
  /-- FMT, R35. -/
  fmt : BitVec 12
  /-- IN_ROWS, R36. -/
  inRows : BitVec 16
  /-- IN_COLS, R36. -/
  inCols : BitVec 16
  /-- POS_R, R37. -/
  posR : BitVec 32
  /-- POS_C, R37. -/
  posC : BitVec 32
  /-- IN_FEAT, R38. -/
  inFeat : BitVec 32
  /-- ROW_TILES, R38. -/
  rowTiles : BitVec 32
  /-- COL_TILES, R38. -/
  colTiles : BitVec 32
  /-- N_SLICES, R38. -/
  nSlices : BitVec 5
  /-- OUT_ROWS, R39. -/
  outRows : BitVec 32
  /-- OUT_COLS, R39. -/
  outCols : BitVec 32
  /-- WMEM, R46. -/
  wmem : Memory 32
  /-- BMEM, R47. -/
  bmem : Memory 32
  /-- IMEM, R48. -/
  imem : Memory 32
  /-- OMEM, R49. -/
  omem : Memory 64
  /-- TSTORE, R50, R80; a cell narrower than 16 bits is held zero-extended. -/
  tstore : Memory 16
  /-- PBUF, R51. -/
  pbuf : Memory 16
  /-- ACC, R52. -/
  acc : Memory 64
  /-- TOUT, R53. -/
  tout : Memory 64
  /-- The model's own: the capacities, parameters of 00_scope.md R6 that no step changes (log 5). -/
  caps : Capacities
  /-- The model's own: the host's pending accesses, oldest first (log 1). -/
  port : List PortEvent
  /-- The model's own: the data returned by the host reads so far, oldest first (log 1). -/
  readLog : List HostData
  /-- The model's own: how many hardware resets have happened, the counter of the free memory contents (log 3). -/
  powerOns : Nat
deriving DecidableEq, Repr

/-- Why a step stops. The block itself never stops: its errors are records in ERR_CODE (60_exceptions.md R242, R243). -/
inductive Fault where
  /-- Raised by ENCP, TMVM, SMVM and CONV in a state in which the geometry registers and the layer registers would lead the
  engine to a word outside its space: 20_memory.md R81, "no rule defines what such an access would do". No run from reset
  reaches such a state (`Safety.lean`). Safe: the model stops where nothing is said (log 8). -/
  | engineOutsideSpace
deriving DecidableEq, Repr

/-- Why the model gives an instruction no meaning. -/
inductive Refusal where
  /-- The instruction has no meaning yet; raised in an arm of `exec` only. Safe: the model stops. -/
  | notModelled (mnemonic : String)
deriving DecidableEq, Repr

/-- The outcome of a command or of a step. -/
abbrev Result := Host.Outcome State Fault Refusal

/-- The block right after hardware reset (70_reset_and_hazards.md R271, R272): every CSR at its reset value, nothing written
in any memory, no host access pending. -/
def State.reset : State where
  state := .unbuilt
  busy := false
  qovf := false
  errCode := 0
  errInfo := 0
  arg0 := 0
  result := 0
  tileI := 0
  tileJ := 0
  inCh := 0
  outCh := 0
  kRows := 0
  kCols := 0
  stride := 0
  pad := 0
  dil := 0
  groups := 0
  biasEn := 0
  sliceW := 0
  fmt := 0
  inRows := 0
  inCols := 0
  posR := 0
  posC := 0
  inFeat := 0
  rowTiles := 0
  colTiles := 0
  nSlices := 0
  outRows := 0
  outCols := 0
  wmem := .empty 32
  bmem := .empty 32
  imem := .empty 32
  omem := .empty 64
  tstore := .empty 16
  pbuf := .empty 16
  acc := .empty 64
  tout := .empty 64
  caps := Config.capacities
  port := []
  readLog := []
  powerOns := 0

end Sys2Proof.Machine
end

