-- ==== Sys2Proof/Machine/Ops.lean ====
section
/-! DEFINITION. The operations over memory and registers that the meanings share: reading and writing memory, raising an error and clearing it, reset, and the prologue of a command. -/

namespace Sys2Proof.Machine

/-! ### Memory -/

/-- The word a list of cells holds at an index. -/
def Memory.lookup {w : Nat} (i : Nat) : List (Nat × BitVec w) → Option (BitVec w)
  | [] => none
  | (a, v) :: rest => if i = a then some v else Memory.lookup i rest

/-- The word at an index, or none where nothing is written. -/
def Memory.get? {w : Nat} (m : Memory w) (i : Nat) : Option (BitVec w) :=
  match Memory.lookup i m.cells with
  | some v => some v
  | none => if i < m.filled then some 0 else none

/-- A list of cells with one index set, in rising order. -/
def Memory.put {w : Nat} (i : Nat) (v : BitVec w) : List (Nat × BitVec w) → List (Nat × BitVec w)
  | [] => [(i, v)]
  | (a, u) :: rest =>
    if i < a then (i, v) :: (a, u) :: rest
    else if i = a then (i, v) :: rest
    else (a, u) :: Memory.put i v rest

/-- The canonical form of the memory in which every index below `n` and every listed index is written: the mark moves past
listed indices that follow it without a gap, and zero words below the mark are not listed (log 4). -/
def Memory.settle {w : Nat} (n : Nat) : List (Nat × BitVec w) → Memory w
  | [] => ⟨n, []⟩
  | (a, v) :: rest =>
    if n < a then ⟨n, (a, v) :: rest⟩
    else
      let m := Memory.settle (max n (a + 1)) rest
      ⟨m.filled, if v = 0 then m.cells else (a, v) :: m.cells⟩

/-- `MemWrite(SPACE, i, b)` (20_memory.md R81). -/
def Memory.write {w : Nat} (m : Memory w) (i : Nat) (v : BitVec w) : Memory w :=
  Memory.settle m.filled (Memory.put i v m.cells)

/-- Writes of all the words 0 to `n - 1`: the listed ones (in rising order, below `n`) their words, the others 0. -/
def Memory.overwrite {w : Nat} (m : Memory w) (n : Nat) (entries : List (Nat × BitVec w)) : Memory w :=
  Memory.settle (max n m.filled) (entries ++ m.cells.dropWhile fun c => decide (c.1 < n))

/-- The words of a vector as cells, from an index on. -/
def Memory.indexed {w : Nat} (a : Nat) : List (BitVec w) → List (Nat × BitVec w)
  | [] => []
  | v :: rest => (a, v) :: Memory.indexed (a + 1) rest

/-- Writes of a vector to the words 0, 1, 2, ... -/
def Memory.store {w : Nat} (m : Memory w) (words : List (BitVec w)) : Memory w :=
  m.overwrite words.length (Memory.indexed 0 words)

/-- The canonical form of a memory: indices strictly rising, no zero word listed below `filled`, and `filled` itself not
listed, so that memories with the same contents are the same data (log 4). -/
abbrev Memory.wf {w : Nat} (m : Memory w) : Prop :=
  m.cells.Pairwise (fun c d => c.1 < d.1) ∧ ∀ c ∈ m.cells, (c.1 < m.filled → c.2 ≠ 0) ∧ c.1 ≠ m.filled

/-- Every written index is below `cap`. -/
abbrev Memory.within {w : Nat} (m : Memory w) (cap : Nat) : Prop :=
  m.filled ≤ cap ∧ ∀ c ∈ m.cells, c.1 < cap

/-! ### Reads of the eight memories (`MemRead`, 20_memory.md R81). A word nothing has written reads as a free value (log 3). -/

/-- The unspecified contents of an unwritten word, at the width of its space. -/
def State.unwritten (s : State) (sp : Space) (w i : Nat) : BitVec w :=
  (Config.powerOnWord s.powerOns sp i).setWidth w

/-- `MemRead(WMEM, i)`. -/
def State.wmemAt (s : State) (i : Nat) : Real32 := (s.wmem.get? i).getD (s.unwritten .wmem 32 i)

/-- `MemRead(BMEM, i)`. -/
def State.bmemAt (s : State) (i : Nat) : Real32 := (s.bmem.get? i).getD (s.unwritten .bmem 32 i)

/-- `MemRead(IMEM, i)`. -/
def State.imemAt (s : State) (i : Nat) : Real32 := (s.imem.get? i).getD (s.unwritten .imem 32 i)

/-- `MemRead(OMEM, i)`. -/
def State.omemAt (s : State) (i : Nat) : FxAcc := (s.omem.get? i).getD (s.unwritten .omem 64 i)

/-- `MemRead(TSTORE, i)`. -/
def State.tstoreAt (s : State) (i : Nat) : BitVec 16 := (s.tstore.get? i).getD (s.unwritten .tstore 16 i)

/-- `MemRead(PBUF, i)`. -/
def State.pbufAt (s : State) (i : Nat) : Fx16 := (s.pbuf.get? i).getD (s.unwritten .pbuf 16 i)

/-- `MemRead(ACC, i)`. -/
def State.accAt (s : State) (i : Nat) : FxAcc := (s.acc.get? i).getD (s.unwritten .acc 64 i)

/-- `MemRead(TOUT, i)`. -/
def State.toutAt (s : State) (i : Nat) : FxAcc := (s.tout.get? i).getD (s.unwritten .tout 64 i)

/-! ### Errors: entry (60_exceptions.md R242, R243) and return (R246, 45_system.md R220) -/

/-- The codes of 60_exceptions.md R236. -/
def ErrorCode.code : ErrorCode → BitVec 8
  | .cfgZeroDim => 0x10
  | .cfgGroupsInvalid => 0x11
  | .cfgGroupsUnsupported => 0x12
  | .cfgSliceW => 0x13
  | .cfgCapacity => 0x14
  | .cfgKernelExtent => 0x15
  | .cfgTileDim => 0x16
  | .protoLocked => 0x20
  | .protoNotBuilt => 0x21
  | .protoOperand => 0x22
  | .protoIllegalCmd => 0x23
  | .tileBoundary => 0x80

/-- Entry of a non-fatal error (60_exceptions.md R242): the first error wins (R245), nothing else changes. -/
def raiseError (e : ErrorCode) (info : BitVec 64) (s : State) : State :=
  { s with
    errCode := if s.errCode = 0 then e.code else s.errCode
    errInfo := if s.errCode = 0 then info else s.errInfo }

/-- Entry of the fatal error (60_exceptions.md R243): it overwrites the record, and the block is in FAULT. -/
def raiseFatal (info : BitVec 64) (s : State) : State :=
  { s with errCode := ErrorCode.tileBoundary.code, errInfo := info, state := .fault }

/-- Return from a non-fatal error: the record and the overflow log are cleared (45_system.md R220). -/
def clearRecord (s : State) : State :=
  { s with errCode := 0, errInfo := 0, qovf := false }

/-- One check of a command: whether it fails, and the error it then raises. -/
structure Check where
  failed : Bool
  error : ErrorCode
  info : BitVec 64
deriving DecidableEq, Repr

/-- The first check that fails (60_exceptions.md R244: checks are made in the order listed). -/
def firstFailing : List Check → Option Check
  | [] => none
  | c :: rest => if c.failed then some c else firstFailing rest

/-- Checks first, effects last (60_exceptions.md R241): the first failing check raises its error and the command is
abandoned; otherwise the command goes on. -/
def checked (checks : List Check) (s : State) (effect : State → Result) : Result :=
  match firstFailing checks with
  | some c => .next (raiseError c.error c.info s)
  | none => effect s

/-- The check for STATE = BUILT of ENCP, TMVM, SMVM and CONV; the information word is the opcode byte (60_exceptions.md R236). -/
def notBuiltCheck (op : BitVec 8) (s : State) : Check :=
  ⟨decide (s.state ≠ .built), .protoNotBuilt, op.setWidth 64⟩

/-! ### Reset (70_reset_and_hazards.md R270 to R272) -/

/-- `Reset()`: every CSR to its reset value, the memories as they were (70_reset_and_hazards.md R271). -/
def resetRegisters (s : State) : State :=
  { State.reset with
    wmem := s.wmem
    bmem := s.bmem
    imem := s.imem
    omem := s.omem
    tstore := s.tstore
    pbuf := s.pbuf
    acc := s.acc
    tout := s.tout
    caps := s.caps
    port := s.port
    readLog := s.readLog
    powerOns := s.powerOns }

/-- Hardware reset: `Reset()`, and the contents of every memory are unspecified anew (70_reset_and_hazards.md R272; log 9). -/
def hardwareReset (s : State) : State :=
  { State.reset with
    caps := s.caps
    port := s.port
    readLog := s.readLog
    powerOns := s.powerOns + 1 }

/-! ### The common prologue (45_system.md R222) -/

/-- A command runs with BUSY = 1, which falls when it ends; in FAULT its word is discarded (45_system.md R222). -/
def issued (s : State) (body : State → Result) : Result :=
  if s.state = .fault then .next s
  else
    match body { s with busy := true } with
    | .next t => .next { t with busy := false }
    | .fault r => .fault r
    | .refused r => .refused r

/-- A word that is no command: PROTO_ILLEGAL_CMD with the word as information (30_encoding.md R105); discarded in FAULT. -/
def illegalCommand (w : CmdWord) (s : State) : State :=
  if s.state = .fault then s else raiseError .protoIllegalCmd (w.setWidth 64) s

end Sys2Proof.Machine
end

