-- ==== Sys2Proof/Machine/Operands.lean ====
section
/-! DEFINITION. The functions the commands compute with: numbers, binary32, the quantizer, the slicer, the geometry of a layer and of a call. -/

namespace Sys2Proof.Machine

/-! ### Integers (00_scope.md R8) -/

/-- `ceil_div(a, b)`. -/
def ceilDiv (a b : Nat) : Nat := (a + b - 1) / b

/-- `sat_N(z)`: `z` clamped to the range of an `N`-bit two's complement word. -/
def sat (N : Nat) (z : Int) : Int := min (max z (-(2 ^ (N - 1) : Nat))) ((2 ^ (N - 1) : Nat) - 1)

/-- `pat_N(z)`: the `N`-bit pattern of `z` modulo `2^N`. -/
def pat (N : Nat) (z : Int) : BitVec N := BitVec.ofInt N z

/-- `rne(a / d)` for `d ≥ 1`: round to nearest, ties to even. -/
def rne (a : Int) (d : Nat) : Int :=
  let n := a / (d : Int)
  let r := a % (d : Int)
  if 2 * r > (d : Int) then n + 1
  else if 2 * r < (d : Int) then n
  else if n % 2 = 0 then n else n + 1

/-- The sum of `f 0` to `f (n - 1)`. -/
def sumTo (f : Nat → Int) : Nat → Int
  | 0 => 0
  | n + 1 => sumTo f n + f n

/-! ### Extended reals and binary32 (00_scope.md R10, 30_encoding.md R108) -/

/-- `XR`, as far as binary32 reaches it: `dyadic a k` is the rational `a / 2^k`. -/
inductive XR where
  | nan
  | posInf
  | negInf
  | dyadic (num : Int) (k : Nat)
deriving DecidableEq, Repr

/-- `f32(b)`, the value of a binary32 pattern (30_encoding.md R108). -/
def f32 (b : Real32) : XR :=
  let e := (b.extractLsb' 23 8).toNat
  let m := (b.extractLsb' 0 23).toNat
  let signed (x : Nat) : Int := if b.getLsbD 31 then -(x : Int) else (x : Int)
  if e = 255 then (if m ≠ 0 then .nan else if b.getLsbD 31 then .negInf else .posInf)
  else if e = 0 then .dyadic (signed m) 149
  else if e < 150 then .dyadic (signed (2 ^ 23 + m)) (150 - e)
  else .dyadic (signed ((2 ^ 23 + m) * 2 ^ (e - 150))) 0

/-! ### The quantizer (40_quantize_slice.md R130, R131) -/

/-- `Quantize(v, F, N)`: the pattern and the overflow bit. -/
def quantize (N F : Nat) : XR → BitVec N × Bool
  | .nan => (pat N 0, true)
  | .posInf => (pat N ((2 ^ (N - 1) : Nat) - 1), true)
  | .negInf => (pat N (-(2 ^ (N - 1) : Nat)), true)
  | .dyadic a k =>
    let n := rne (a * (2 ^ F : Nat)) (2 ^ k)
    (pat N (sat N n), decide (n ≠ sat N n))

/-- FMT.F_IN, bits 3:0 (10_state.md R35). -/
def State.fIn (s : State) : Nat := (s.fmt.extractLsb' 0 4).toNat

/-- FMT.F_W, bits 11:8 (10_state.md R35). -/
def State.fW (s : State) : Nat := (s.fmt.extractLsb' 8 4).toNat

/-- `F_OUT = F_IN + F_W` (10_state.md R35, 30_encoding.md R110). -/
def State.fOut (s : State) : Nat := s.fIn + s.fW

/-- The fraction bits the immediate `fmt` selects (30_encoding.md R112). -/
def State.fSel (s : State) : FmtSel → Nat
  | .input => s.fIn
  | .weight => s.fW

/-! ### The slicer (40_quantize_slice.md R135) -/

/-- `nSlices(s) = ceil_div(16, s)`. -/
def sliceCount (s : Nat) : Nat := ceilDiv wordWidth s

/-- `Slice(u, s, k)`: bits `min(16, s*k + s) - 1 : s*k` of the word. -/
def slice (u : Fx16) (s k : Nat) : Nat :=
  let lo := s * k
  let hi := min wordWidth (lo + s)
  (u.extractLsb' lo (hi - lo)).toNat

/-! ### Geometry of a layer (41_build.md R150) -/

/-- `inFeatures = IN_CH * K_ROWS * K_COLS`. -/
def State.inFeatures (s : State) : Nat := s.inCh.toNat * s.kRows.toNat * s.kCols.toNat

/-- `nSlices` of the layer registers. -/
def State.layerSlices (s : State) : Nat := sliceCount s.sliceW.toNat

/-- `rowTiles` of the layer registers. -/
def State.layerRowTiles (s : State) : Nat := ceilDiv s.inFeatures tileDim

/-- `colTiles` of the layer registers. -/
def State.layerColTiles (s : State) : Nat := ceilDiv s.outCh.toNat tileDim

/-- The TSTORE index of slice `k` at `(row, col)` of tile `(i, j)` (20_memory.md R80). -/
def cellIndex (colTiles nSlices i j k row col : Nat) : Nat :=
  (((i * colTiles + j) * nSlices + k) * tileDim + row) * tileDim + col

/-! ### Geometry of a call (44_conv.md R195) -/

/-- `PR`, the padded rows. -/
def State.paddedRows (s : State) : Nat := s.inRows.toNat + 2 * s.pad.toNat

/-- `PC`, the padded columns. -/
def State.paddedCols (s : State) : Nat := s.inCols.toNat + 2 * s.pad.toNat

/-- `extR`, the rows a dilated kernel spans. -/
def State.extentRows (s : State) : Nat := s.dil.toNat * (s.kRows.toNat - 1) + 1

/-- `extC`, the columns a dilated kernel spans. -/
def State.extentCols (s : State) : Nat := s.dil.toNat * (s.kCols.toNat - 1) + 1

/-- `outRows` of `OutDims()`; called after `ValidateCall`, so the difference is not negative. -/
def State.callOutRows (s : State) : Nat := (s.paddedRows - s.extentRows) / s.stride.toNat + 1

/-- `outCols` of `OutDims()`. -/
def State.callOutCols (s : State) : Nat := (s.paddedCols - s.extentCols) / s.stride.toNat + 1

/-- The positions `(r, c)` of a call in row-major order (44_conv.md R204). -/
def positions (rows cols : Nat) : List (Nat × Nat) :=
  (List.range rows).flatMap fun r => (List.range cols).map fun c => (r, c)

/-- The OMEM index of output `(o, r, c)` (20_memory.md R79). -/
def omemIndex (rows cols o r c : Nat) : Nat := (o * rows + r) * cols + c

/-! ### Validation (41_build.md R151, 44_conv.md R196) -/

/-- The check that a register is not 0; the information word is its CSR index. -/
def zeroCheck {w : Nat} (r : BitVec w) (index : Nat) : Check :=
  ⟨decide (r = 0), .cfgZeroDim, BitVec.ofNat 64 index⟩

/-- The check that `need` words fit the capacity of a space; the information word is the number of the space. -/
def capacityCheck (need cap space : Nat) : Check :=
  ⟨decide (need > cap), .cfgCapacity, BitVec.ofNat 64 space⟩

/-- `ValidateLayer()`, the checks in their order (41_build.md R151). -/
def State.layerChecks (s : State) : List Check :=
  [ zeroCheck s.inCh 0x08, zeroCheck s.outCh 0x09, zeroCheck s.kRows 0x0A, zeroCheck s.kCols 0x0B,
    zeroCheck s.stride 0x0C, zeroCheck s.dil 0x0E,
    ⟨decide (s.groups = 0 ∨ s.inCh.toNat % s.groups.toNat ≠ 0 ∨ s.outCh.toNat % s.groups.toNat ≠ 0),
      .cfgGroupsInvalid, s.groups.setWidth 64⟩,
    ⟨decide (s.groups.toNat > 1), .cfgGroupsUnsupported, s.groups.setWidth 64⟩,
    ⟨decide (s.sliceW = 0 ∨ s.sliceW.toNat > 16), .cfgSliceW, s.sliceW.setWidth 64⟩,
    capacityCheck (s.outCh.toNat * s.inFeatures) s.caps.capW 1,
    ⟨decide (s.biasEn = 1 ∧ s.outCh.toNat > s.caps.capB), .cfgCapacity, 2⟩,
    capacityCheck (s.layerRowTiles * s.layerColTiles * s.layerSlices) s.caps.capX 5,
    capacityCheck s.inFeatures s.caps.capP 6,
    capacityCheck (s.layerColTiles * tileDim) s.caps.capA 7 ]

/-- `ValidateCall()`, the checks in their order (44_conv.md R196). -/
def State.callChecks (s : State) : List Check :=
  [ zeroCheck s.inRows 0x14, zeroCheck s.inCols 0x15,
    ⟨decide (s.paddedRows < s.extentRows), .cfgKernelExtent, 0x14⟩,
    ⟨decide (s.paddedCols < s.extentCols), .cfgKernelExtent, 0x15⟩,
    capacityCheck (s.inCh.toNat * s.inRows.toNat * s.inCols.toNat) s.caps.capI 3 ]

/-! ### The engine stays inside its spaces (20_memory.md R81) -/

/-- What the validations establish of the index formulas of ENCP, TMVM, SMVM and CONV: no index they form leaves its space
(20_memory.md R81, 60_exceptions.md R240). -/
def State.engineFits (s : State) : Bool :=
  decide (s.rowTiles.toNat * s.colTiles.toNat * s.nSlices.toNat ≤ s.caps.capX) &&
  decide (s.inFeat.toNat ≤ s.caps.capP) && decide (s.inFeatures ≤ s.caps.capP) &&
  decide (s.colTiles.toNat * tileDim ≤ s.caps.capA) && decide (s.outCh.toNat ≤ s.colTiles.toNat * tileDim) &&
  decide (s.biasEn = 1 → s.outCh.toNat ≤ s.caps.capB)

/-- The effect of a command that reads the tile grid or writes a buffer, in a state in which the engine stays inside its
spaces; the named fault elsewhere (log 8). -/
def insideSpaces (s : State) (effect : State → State) : Result :=
  if s.engineFits then .next (effect s) else .fault .engineOutsideSpace

end Sys2Proof.Machine
end

