-- ==== Sys2Proof/Machine/Flags.lean ====
section
/-! DEFINITION. The flags of STATUS (10_state.md R22, R43, R44). -/

namespace Sys2Proof.Machine

/-- QOVF after a quantization whose overflow bit is `ovf`: set when it is true, unchanged when it is false
(40_quantize_slice.md R131). -/
def noteOverflow (ovf : Bool) (s : State) : State := { s with qovf := s.qovf || ovf }

/-- The two bits of STATUS.STATE (10_state.md R22). -/
def BlockState.code : BlockState → Nat
  | .unbuilt => 0
  | .built => 1
  | .fault => 3

/-- ERR, which is not stored: ERR_CODE is not 0 (10_state.md R44). -/
def State.err (s : State) : Bool := decide (s.errCode ≠ 0)

/-- The six bits of STATUS: STATE 1:0, BUSY 2, reserved 3, QOVF 4, ERR 5 (10_state.md R22). -/
def State.statusWord (s : State) : BitVec 6 :=
  BitVec.ofNat 6 (s.state.code + 4 * s.busy.toNat + 16 * s.qovf.toNat + 32 * s.err.toNat)

end Sys2Proof.Machine
end

