-- ==== Sys2Proof/Machine/Build.lean ====
section
/-! DEFINITION. Building and invalidating the tile grid: BUILD and INVAL (41_build.md). -/

namespace Sys2Proof.Machine

/-- `Quantize(f32(MemRead(WMEM, gc * inFeatures + gr)), F_W, 16)`: the weight of output channel `gc` and feature `gr`
(41_build.md R152). -/
def quantizedWeight (s : State) (gr gc : Nat) : Fx16 × Bool :=
  quantize wordWidth s.fW (f32 (s.wmemAt (gc * s.inFeatures + gr)))

/-- The overflow bits of all the weights together: each is quantized exactly once (41_build.md R152). -/
def buildOverflow (s : State) : Bool :=
  (List.range s.outCh.toNat).any fun gc => (List.range s.inFeatures).any fun gr => (quantizedWeight s gr gc).2

/-- The cells of slice plane `k` of tile `(i, j)` that hold a weight, in rising order of their index. -/
def planeEntries (s : State) (i j k : Nat) : List (Nat × BitVec 16) :=
  (List.range (min tileDim (s.inFeatures - i * tileDim))).flatMap fun row =>
    (List.range (min tileDim (s.outCh.toNat - j * tileDim))).map fun col =>
      (cellIndex s.layerColTiles s.layerSlices i j k row col,
        BitVec.ofNat 16 (slice (quantizedWeight s (i * tileDim + row) (j * tileDim + col)).1 s.sliceW.toNat k))

/-- The cells of the grid that hold a weight, in rising order of their index; every other cell of the grid is padding and
holds 0 (41_build.md R153). -/
def gridEntries (s : State) : List (Nat × BitVec 16) :=
  (List.range s.layerRowTiles).flatMap fun i =>
    (List.range s.layerColTiles).flatMap fun j =>
      (List.range s.layerSlices).flatMap fun k => planeEntries s i j k

/-- The cells of the grid (10_state.md R50, 41_build.md R154). -/
def State.gridCells (s : State) : Nat := s.layerRowTiles * s.layerColTiles * s.layerSlices * planeCells

/-- BUILD (41_build.md R152): validate, quantize and slice every weight, write every cell of the grid, publish the geometry. -/
def execBuild (s : State) : Result :=
  issued s fun s =>
    checked s.layerChecks s fun s =>
      .next (noteOverflow (buildOverflow s)
        { s with
          tstore := s.tstore.overwrite s.gridCells (gridEntries s)
          inFeat := BitVec.ofNat 32 s.inFeatures
          rowTiles := BitVec.ofNat 32 s.layerRowTiles
          colTiles := BitVec.ofNat 32 s.layerColTiles
          nSlices := BitVec.ofNat 5 s.layerSlices
          state := .built })

/-- INVAL (41_build.md R155): the grid is no longer valid; the six geometry registers read 0. -/
def execInval (s : State) : Result :=
  issued s fun s =>
    .next { s with
      state := .unbuilt
      inFeat := 0
      rowTiles := 0
      colTiles := 0
      nSlices := 0
      outRows := 0
      outCols := 0 }

end Sys2Proof.Machine
end

