-- ==== Sys2Proof/Machine/Codec.lean ====
section
/-! DEFINITION. The two leaf functions as scalar commands: QENC and BSLICE (40_quantize_slice.md). -/

namespace Sys2Proof.Machine

/-- QENC (40_quantize_slice.md R134): ARG0, a binary32 pattern, to an FX16 word in RESULT. -/
def execQenc (fmt : FmtSel) (s : State) : Result :=
  issued s fun s =>
    let q := quantize wordWidth (s.fSel fmt) (f32 s.arg0)
    .next (noteOverflow q.2 { s with result := q.1 })

/-- The checks of BSLICE (40_quantize_slice.md R137). -/
def bsliceChecks (k : Nat) (s : State) : List Check :=
  [ ⟨decide (s.sliceW = 0 ∨ s.sliceW.toNat > 16), .cfgSliceW, s.sliceW.setWidth 64⟩,
    ⟨decide (k ≥ s.layerSlices), .protoOperand, BitVec.ofNat 64 k⟩ ]

/-- BSLICE (40_quantize_slice.md R137): slice `k` of the FX16 word in ARG0 bits 15:0, to RESULT. -/
def execBslice (k : Nat) (s : State) : Result :=
  issued s fun s =>
    checked (bsliceChecks k s) s fun s =>
      .next { s with result := BitVec.ofNat 16 (slice (s.arg0.extractLsb' 0 16) s.sliceW.toNat k) }

end Sys2Proof.Machine
end

