-- ==== Sys2Proof/Machine/Tile.lean ====
section
/-! DEFINITION. The crossbar tile and TMVM (42_tile_mvm.md). -/

namespace Sys2Proof.Machine

/-- `sw(k, c)`: the signed value of slice `k` of `n` slices of `s` bits; the top slice carries the sign bit at position
`tb = 15 - s * (n - 1)` (42_tile_mvm.md R165). -/
def sliceWeight (s n k c : Nat) : Int :=
  if k < n - 1 then (c * 2 ^ (s * k) : Nat)
  else
    let tb := 15 - s * (n - 1)
    ((c : Int) - (2 ^ (tb + 1) * (c / 2 ^ tb % 2) : Nat)) * (2 ^ (s * k) : Nat)

/-- `cell(i, j, k, row, col)` (42_tile_mvm.md R165). -/
def State.cell (s : State) (i j k row col : Nat) : Nat :=
  (s.tstoreAt (cellIndex s.colTiles.toNat s.nSlices.toNat i j k row col)).toNat

/-- `Wt(i, j, row, col)`: the weight the tile holds, recombined from its slices (42_tile_mvm.md R165). -/
def State.weight (s : State) (i j row col : Nat) : Int :=
  sumTo (fun k => sliceWeight s.sliceW.toNat s.nSlices.toNat k (s.cell i j k row col)) s.nSlices.toNat

/-- `SubVector(i)[t]` (43_scheduler.md R180): the word of the patch that row `t` of row-tile `i` receives, 0 past its end. -/
def State.subVector (s : State) (i t : Nat) : Fx16 :=
  if i * tileDim + t < s.inFeat.toNat then s.pbufAt (i * tileDim + t) else 0

/-- `TileMvm(i, j, x)[col]` in the closed form of 42_tile_mvm.md R168, the exact sum over the rows of weight times input; a
row whose input is 0 adds nothing (log 10). -/
def State.tileMvm (s : State) (i j : Nat) (x : Nat → Fx16) (col : Nat) : Int :=
  sumTo (fun row => if x row = 0 then 0 else s.weight i j row col * (x row).toInt) tileDim

/-- The words TMVM writes to TOUT (42_tile_mvm.md R171). -/
def tileOutputs (s : State) : List FxAcc :=
  (List.range tileDim).map fun col => pat 64 (s.tileMvm s.tileI.toNat s.tileJ.toNat (s.subVector s.tileI.toNat) col)

/-- TMVM (42_tile_mvm.md R171): one tile's product with its part of the patch, to TOUT; an index outside the grid is fatal. -/
def execTmvm (s : State) : Result :=
  issued s fun s =>
    checked [notBuiltCheck 0x21 s] s fun s =>
      if s.rowTiles ≤ s.tileI ∨ s.colTiles ≤ s.tileJ then .next (raiseFatal (s.tileI ++ s.tileJ) s)
      else insideSpaces s fun s => { s with tout := s.tout.store (tileOutputs s) }

end Sys2Proof.Machine
end

