-- ==== Sys2Proof/Machine/Scheduler.lean ====
section
/-! DEFINITION. The tiling scheduler and SMVM (43_scheduler.md). -/

namespace Sys2Proof.Machine

/-- `SchedMvm()[a]`: the sum over the row-tiles of what tile `(i, a div 128)` yields at its column `a mod 128`
(43_scheduler.md R181; the order of the additions is immaterial, R183; log 10). -/
def State.schedMvm (s : State) (a : Nat) : Int :=
  sumTo (fun i => s.tileMvm i (a / tileDim) (s.subVector i) (a % tileDim)) s.rowTiles.toNat

/-- The words SMVM writes to ACC, one per channel slot (43_scheduler.md R187). -/
def schedOutputs (s : State) : List FxAcc :=
  (List.range (s.colTiles.toNat * tileDim)).map fun a => pat 64 (s.schedMvm a)

/-- The accumulator written with the sums of the patch in PBUF. -/
def accumulate (s : State) : State := { s with acc := s.acc.store (schedOutputs s) }

/-- SMVM (43_scheduler.md R187): the product of the whole grid with the patch, to ACC. -/
def execSmvm (s : State) : Result :=
  issued s fun s =>
    checked [notBuiltCheck 0x22 s] s fun s => insideSpaces s accumulate

end Sys2Proof.Machine
end

