-- ==== Sys2Proof/Machine/Conv.lean ====
section
/-! DEFINITION. The convolution engine: ENCP and CONV (44_conv.md). -/

namespace Sys2Proof.Machine

/-! ### One patch -/

/-- `PatchElem(r, c, f)` (44_conv.md R197): element `f` of the patch of output position `(r, c)`; 0 in the padding. -/
def State.patchElem (s : State) (r c f : Nat) : XR :=
  let kc := f % s.kCols.toNat
  let kr := f / s.kCols.toNat % s.kRows.toNat
  let ch := f / (s.kRows.toNat * s.kCols.toNat)
  let ir : Int := (r * s.stride.toNat + kr * s.dil.toNat : Nat) - (s.pad.toNat : Int)
  let ic : Int := (c * s.stride.toNat + kc * s.dil.toNat : Nat) - (s.pad.toNat : Int)
  if 0 ≤ ir ∧ ir < s.inRows.toNat ∧ 0 ≤ ic ∧ ic < s.inCols.toNat then
    f32 (s.imemAt ((ch * s.inRows.toNat + ir.toNat) * s.inCols.toNat + ic.toNat))
  else .dyadic 0 0

/-- Element `f` of the patch, encoded (44_conv.md R198). -/
def State.encodedElem (s : State) (r c f : Nat) : Fx16 × Bool := quantize wordWidth s.fIn (s.patchElem r c f)

/-- `EncodePatch(r, c)` (44_conv.md R198): PBUF words 0 to `inFeatures - 1`, and QOVF. -/
def encodePatch (r c : Nat) (s : State) : State :=
  noteOverflow ((List.range s.inFeatures).any fun f => (s.encodedElem r c f).2)
    { s with pbuf := s.pbuf.store ((List.range s.inFeatures).map fun f => (s.encodedElem r c f).1) }

/-- OUT_ROWS and OUT_COLS written with the output size of the call (10_state.md R39). -/
def publishOutDims (s : State) : State :=
  { s with outRows := BitVec.ofNat 32 s.callOutRows, outCols := BitVec.ofNat 32 s.callOutCols }

/-- The check of ENCP that the position is inside the output (44_conv.md R199). -/
def positionCheck (s : State) : Check :=
  ⟨decide (s.posR.toNat ≥ s.callOutRows ∨ s.posC.toNat ≥ s.callOutCols), .protoOperand, s.posR ++ s.posC⟩

/-- ENCP (44_conv.md R199): the encoded patch of position (POS_R, POS_C), to PBUF. -/
def execEncp (s : State) : Result :=
  issued s fun s =>
    checked (notBuiltCheck 0x20 s :: s.callChecks ++ [positionCheck s]) s fun s =>
      insideSpaces s fun s => encodePatch s.posR.toNat s.posC.toNat (publishOutDims s)

/-! ### The whole convolution -/

/-- The sum of channel `o` as ACC holds it, to the output word of `(o, r, c)` (44_conv.md R201). -/
def writeOutput (rows cols r c : Nat) (s : State) (o : Nat) : State :=
  { s with omem := s.omem.write (omemIndex rows cols o r c) (s.accAt o) }

/-- One pass of CONV's loop (44_conv.md R200, R204): position, patch, sums, and the output word of every channel. -/
def convPosition (rows cols : Nat) (s : State) (p : Nat × Nat) : State :=
  let s := { s with posR := BitVec.ofNat 32 p.1, posC := BitVec.ofNat 32 p.2 }
  let s := accumulate (encodePatch p.1 p.2 s)
  (List.range s.outCh.toNat).foldl (writeOutput rows cols p.1 p.2) s

/-- The saturating addition of a quantized bias to one output word (44_conv.md R202). -/
def addBias (rows cols o : Nat) (bq : FxAcc) (s : State) (p : Nat × Nat) : State :=
  let idx := omemIndex rows cols o p.1 p.2
  let z := (s.omemAt idx).toInt + bq.toInt
  noteOverflow (decide (sat 64 z ≠ z)) { s with omem := s.omem.write idx (pat 64 (sat 64 z)) }

/-- The bias pass over one channel: its bias quantized once, then added at every position (44_conv.md R202). -/
def biasChannel (rows cols : Nat) (s : State) (o : Nat) : State :=
  let b := quantize 64 s.fOut (f32 (s.bmemAt o))
  (positions rows cols).foldl (addBias rows cols o b.1) (noteOverflow b.2 s)

/-- `BiasPass()`, when BIAS_EN is 1 (44_conv.md R202). -/
def biasPass (rows cols : Nat) (s : State) : State :=
  if s.biasEn = 1 then (List.range s.outCh.toNat).foldl (biasChannel rows cols) s else s

/-- The effect of CONV once its checks have passed (44_conv.md R200). -/
def convolve (s : State) : State :=
  let rows := s.callOutRows
  let cols := s.callOutCols
  biasPass rows cols ((positions rows cols).foldl (convPosition rows cols) (publishOutDims s))

/-- CONV (44_conv.md R200): the whole convolution, to OMEM. -/
def execConv (s : State) : Result :=
  issued s fun s =>
    checked (notBuiltCheck 0x30 s :: s.callChecks ++
        [capacityCheck (s.outCh.toNat * s.callOutRows * s.callOutCols) s.caps.capO 4]) s fun s =>
      insideSpaces s convolve

end Sys2Proof.Machine
end

