-- ==== Sys2Proof/Machine/System.lean ====
section
/-! DEFINITION. The system commands: CLRERR and SRESET (45_system.md). -/

namespace Sys2Proof.Machine

/-- CLRERR (45_system.md R220): the error record and QOVF are cleared, nothing else changes. -/
def execClrerr (s : State) : Result := issued s fun s => .next (clearRecord s)

/-- SRESET (45_system.md R221): accepted in every state, FAULT included. -/
def execSreset (s : State) : Result := .next (resetRegisters s)

end Sys2Proof.Machine
end

