-- ==== Sys2Proof/Machine/Dispatch.lean ====
section
/-! DEFINITION. The meaning of every command, one arm per constructor of `Instr`. -/

namespace Sys2Proof.Machine

def exec (i : Instr) (s : State) : Host.Outcome State Fault Refusal :=
  match i with
  | .qenc fmt => Sys2Proof.Machine.execQenc fmt s
  | .bslice k => Sys2Proof.Machine.execBslice k s
  | .build => Sys2Proof.Machine.execBuild s
  | .inval => Sys2Proof.Machine.execInval s
  | .encp => Sys2Proof.Machine.execEncp s
  | .tmvm => Sys2Proof.Machine.execTmvm s
  | .smvm => Sys2Proof.Machine.execSmvm s
  | .conv => Sys2Proof.Machine.execConv s
  | .clrerr => Sys2Proof.Machine.execClrerr s
  | .sreset => Sys2Proof.Machine.execSreset s

end Sys2Proof.Machine
end

