-- ==== Sys2Proof/Machine/HostAccess.lean ====
section
/-! DEFINITION. What one host access reads or stores: the register map of space 0, the eight memories, the layer lock (10_state.md R21 to R42, 20_memory.md R70 to R87). -/

namespace Sys2Proof.Machine

/-! ### The register map (10_state.md R21) -/

/-- The register at an index of space 0; none at the reserved index 0x13 and above 0x1E (10_state.md R41). -/
def Csr.ofIndex (i : Nat) : Option Csr :=
  [ some .status, some .errCode, some .errInfo, some .cmd, some .arg0, some .result, some .tileI, some .tileJ,
    some .inCh, some .outCh, some .kRows, some .kCols, some .stride, some .pad, some .dil, some .groups,
    some .biasEn, some .sliceW, some .fmt, none, some .inRows, some .inCols, some .posR, some .posC,
    some .inFeat, some .rowTiles, some .colTiles, some .nSlices, some .outRows, some .outCols, some .tileDim ].getD i none

/-- The layer registers are the eleven registers at indices 0x08 to 0x12 (10_state.md R42). -/
def isLayerIndex (i : Nat) : Bool := decide (0x08 ≤ i ∧ i ≤ 0x12)

/-- What a read of FMT returns: F_W and F_IN, and in bits 7:4 either the written bits or 0 (10_state.md R35, log 6). -/
def State.fmtReadback (s : State) : BitVec 12 :=
  let reserved := s.fmt &&& 0x0F0#12
  if reserved = 0 then s.fmt
  else if Config.fmtReservedReadsBack then s.fmt else s.fmt &&& 0xF0F#12

/-- A host read of a register, zero-extended (10_state.md R21); CMD reads 0 (R25), TILE_DIM reads 128 (R40). -/
def Csr.read (s : State) : Csr → HostData
  | .status => s.statusWord.setWidth 64
  | .errCode => s.errCode.setWidth 64
  | .errInfo => s.errInfo
  | .cmd => 0
  | .arg0 => s.arg0.setWidth 64
  | .result => s.result.setWidth 64
  | .tileI => s.tileI.setWidth 64
  | .tileJ => s.tileJ.setWidth 64
  | .inCh => s.inCh.setWidth 64
  | .outCh => s.outCh.setWidth 64
  | .kRows => s.kRows.setWidth 64
  | .kCols => s.kCols.setWidth 64
  | .stride => s.stride.setWidth 64
  | .pad => s.pad.setWidth 64
  | .dil => s.dil.setWidth 64
  | .groups => s.groups.setWidth 64
  | .biasEn => s.biasEn.setWidth 64
  | .sliceW => s.sliceW.setWidth 64
  | .fmt => s.fmtReadback.setWidth 64
  | .inRows => s.inRows.setWidth 64
  | .inCols => s.inCols.setWidth 64
  | .posR => s.posR.setWidth 64
  | .posC => s.posC.setWidth 64
  | .inFeat => s.inFeat.setWidth 64
  | .rowTiles => s.rowTiles.setWidth 64
  | .colTiles => s.colTiles.setWidth 64
  | .nSlices => s.nSlices.setWidth 64
  | .outRows => s.outRows.setWidth 64
  | .outCols => s.outCols.setWidth 64
  | .tileDim => BitVec.ofNat 64 Sys2Proof.tileDim

/-- A host write to a register: the low bits of its width are stored; a read-only register keeps its value
(10_state.md R21). A write to CMD issues a command and is not made here (`hostWrite`, Machine/Port.lean). -/
def Csr.store (d : HostData) (s : State) : Csr → State
  | .status => s
  | .errCode => s
  | .errInfo => s
  | .cmd => s
  | .arg0 => { s with arg0 := d.setWidth 32 }
  | .result => s
  | .tileI => { s with tileI := d.setWidth 32 }
  | .tileJ => { s with tileJ := d.setWidth 32 }
  | .inCh => { s with inCh := d.setWidth 16 }
  | .outCh => { s with outCh := d.setWidth 16 }
  | .kRows => { s with kRows := d.setWidth 8 }
  | .kCols => { s with kCols := d.setWidth 8 }
  | .stride => { s with stride := d.setWidth 8 }
  | .pad => { s with pad := d.setWidth 8 }
  | .dil => { s with dil := d.setWidth 8 }
  | .groups => { s with groups := d.setWidth 16 }
  | .biasEn => { s with biasEn := d.setWidth 1 }
  | .sliceW => { s with sliceW := d.setWidth 5 }
  | .fmt => { s with fmt := d.setWidth 12 }
  | .inRows => { s with inRows := d.setWidth 16 }
  | .inCols => { s with inCols := d.setWidth 16 }
  | .posR => { s with posR := d.setWidth 32 }
  | .posC => { s with posC := d.setWidth 32 }
  | .inFeat => s
  | .rowTiles => s
  | .colTiles => s
  | .nSlices => s
  | .outRows => s
  | .outCols => s
  | .tileDim => s

/-! ### Addresses and spaces (20_memory.md R71, R72) -/

/-- The space number, bits 31:28 of an address. -/
def spaceField (a : HostAddr) : Nat := (a.extractLsb' 28 4).toNat

/-- The index, bits 27:0 of an address. -/
def indexField (a : HostAddr) : Nat := (a.extractLsb' 0 28).toNat

/-- The space of a number; 9 to 15 are unmapped. -/
def Space.ofNumber (n : Nat) : Option Space :=
  [ some .csr, some .wmem, some .bmem, some .imem, some .omem, some .tstore, some .pbuf, some .acc, some .tout ].getD n none

/-- The number of words of a space (20_memory.md R72). -/
def State.spaceWords (s : State) : Space → Nat
  | .csr => 31
  | .wmem => s.caps.capW
  | .bmem => s.caps.capB
  | .imem => s.caps.capI
  | .omem => s.caps.capO
  | .tstore => s.caps.capX * planeCells
  | .pbuf => s.caps.capP
  | .acc => s.caps.capA
  | .tout => tileDim

/-- The word at an index of a space, zero-extended to 64 bits (20_memory.md R75). -/
def State.peek (s : State) (i : Nat) : Space → HostData
  | .csr =>
    match Csr.ofIndex i with
    | some c => c.read s
    | none => 0
  | .wmem => (s.wmemAt i).setWidth 64
  | .bmem => (s.bmemAt i).setWidth 64
  | .imem => (s.imemAt i).setWidth 64
  | .omem => s.omemAt i
  | .tstore => (s.tstoreAt i).setWidth 64
  | .pbuf => (s.pbufAt i).setWidth 64
  | .acc => s.accAt i
  | .tout => s.toutAt i

/-- A host write to a register of space 0 other than CMD: a layer register is locked while STATE = BUILT (10_state.md R42). -/
def writeRegister (i : Nat) (d : HostData) (s : State) : State :=
  if isLayerIndex i && decide (s.state = .built) then raiseError .protoLocked (BitVec.ofNat 64 i) s
  else
    match Csr.ofIndex i with
    | some c => c.store d s
    | none => s

/-- A host write to an index inside a space: the read-only spaces discard it (20_memory.md R74). -/
def State.poke (i : Nat) (d : HostData) (s : State) : Space → State
  | .csr => writeRegister i d s
  | .wmem => { s with wmem := s.wmem.write i (d.setWidth 32) }
  | .bmem => { s with bmem := s.bmem.write i (d.setWidth 32) }
  | .imem => { s with imem := s.imem.write i (d.setWidth 32) }
  | .omem => s
  | .tstore => s
  | .pbuf => { s with pbuf := s.pbuf.write i (d.setWidth 16) }
  | .acc => s
  | .tout => s

/-- `HostRead(A)` (20_memory.md R70, R73, R75); while BUSY = 1 every read but that of STATUS returns 0 (R86). -/
def hostRead (s : State) (a : HostAddr) : HostData :=
  if s.busy && decide (a ≠ 0) then 0
  else
    match Space.ofNumber (spaceField a) with
    | some sp => if indexField a < s.spaceWords sp then s.peek (indexField a) sp else 0
    | none => 0

/-- `HostWrite(A, d)` to an address other than that of CMD (20_memory.md R70, R73, R74, R86). -/
def hostStore (a : HostAddr) (d : HostData) (s : State) : State :=
  if s.busy || decide (s.state = .fault) then s
  else
    match Space.ofNumber (spaceField a) with
    | some sp => if indexField a < s.spaceWords sp then s.poke (indexField a) d sp else s
    | none => s

end Sys2Proof.Machine
end

