-- ==== Sys2Proof/Machine/Port.lean ====
section
/-! DEFINITION. The host port: one access at a time, and the issue of a command by a write to CMD (20_memory.md R70, 45_system.md R222). -/

namespace Sys2Proof.Machine

/-- The address of CMD (10_state.md R25). -/
def cmdAddr : HostAddr := 0x00000003#32

/-- `Issue(w)` (45_system.md R222): an illegal word raises its error, a command runs; both are discarded in FAULT, but for
SRESET (`issued`, `illegalCommand`, `execSreset`). -/
def issue (w : CmdWord) (s : State) : Result :=
  match decode w with
  | .ok i => exec i s
  | .error _ => .next (illegalCommand w s)

/-- `HostWrite(A, d)`: a write to CMD issues the command word `d[31:0]` (10_state.md R25), any other stores; while BUSY = 1
every write is discarded (20_memory.md R86). -/
def hostWrite (a : HostAddr) (d : HostData) (s : State) : Result :=
  if a = cmdAddr then
    if s.busy then .next s else issue (d.setWidth 32) s
  else .next (hostStore a d s)

/-- One event of the host port. -/
def portEvent (e : PortEvent) (s : State) : Result :=
  match e with
  | .read a => .next { s with readLog := s.readLog ++ [hostRead s a] }
  | .write a d => hostWrite a d s
  | .reset => .next (hardwareReset s)

/-- The oldest pending event is performed; with none pending the block is idle and keeps all state
(70_reset_and_hazards.md R279; log 1). -/
def nextEvent (s : State) : Result :=
  match s.port with
  | [] => .next s
  | e :: rest => portEvent e { s with port := rest }

/-- A pending write of a command word to CMD, put before every other pending event. -/
def placeCommand (w : CmdWord) (s : State) : State :=
  { s with port := .write cmdAddr (w.setWidth 64) :: s.port }

end Sys2Proof.Machine
end

