-- ==== Sys2Proof/Machine/Script.lean ====
section
/-! DEFINITION. The host script (30_encoding.md R113, R114) as lists of port events: notation for what a host does, not hardware. -/

namespace Sys2Proof.Machine.Script

/-- The index of a register, the inverse of `Csr.ofIndex` (10_state.md R21). -/
def registerIndex : Csr → Nat
  | .status => 0x00
  | .errCode => 0x01
  | .errInfo => 0x02
  | .cmd => 0x03
  | .arg0 => 0x04
  | .result => 0x05
  | .tileI => 0x06
  | .tileJ => 0x07
  | .inCh => 0x08
  | .outCh => 0x09
  | .kRows => 0x0A
  | .kCols => 0x0B
  | .stride => 0x0C
  | .pad => 0x0D
  | .dil => 0x0E
  | .groups => 0x0F
  | .biasEn => 0x10
  | .sliceW => 0x11
  | .fmt => 0x12
  | .inRows => 0x14
  | .inCols => 0x15
  | .posR => 0x16
  | .posC => 0x17
  | .inFeat => 0x18
  | .rowTiles => 0x19
  | .colTiles => 0x1A
  | .nSlices => 0x1B
  | .outRows => 0x1C
  | .outCols => 0x1D
  | .tileDim => 0x1E

/-- The number of a space (20_memory.md R72). -/
def spaceNumber : Space → Nat
  | .csr => 0
  | .wmem => 1
  | .bmem => 2
  | .imem => 3
  | .omem => 4
  | .tstore => 5
  | .pbuf => 6
  | .acc => 7
  | .tout => 8

/-- The address of a word: `space * 2^28 + index`. -/
def wordAddr (sp : Space) (i : Nat) : HostAddr := BitVec.ofNat 32 (spaceNumber sp * 2 ^ 28 + i)

/-- The address of a register. -/
def registerAddr (c : Csr) : HostAddr := wordAddr .csr (registerIndex c)

/-- `WR <register>, <value>`. -/
def wr (c : Csr) (v : Nat) : List PortEvent := [.write (registerAddr c) (BitVec.ofNat 64 v)]

/-- `WR <SPACE>[<index>], <value>`. -/
def wrWord (sp : Space) (i v : Nat) : List PortEvent := [.write (wordAddr sp i) (BitVec.ofNat 64 v)]

/-- `RD <register>`. -/
def rd (c : Csr) : List PortEvent := [.read (registerAddr c)]

/-- `RD <SPACE>[<index>]`. -/
def rdWord (sp : Space) (i : Nat) : List PortEvent := [.read (wordAddr sp i)]

/-- `<MNEMONIC> [<imm>]`: one write of the command word to address 0x00000003. -/
def command (i : Instr) : List PortEvent := [.write cmdAddr ((encode i).setWidth 64)]

/-- `QENC.I`. -/
def qencI : List PortEvent := command (.qenc .input)

/-- `QENC.W`. -/
def qencW : List PortEvent := command (.qenc .weight)

/-- `FMT <f_in>, <f_w>`. -/
def fmt (fIn fW : Nat) : List PortEvent := wr .fmt (fW * 256 + fIn)

/-- `LAYER`: ten writes, in this order. -/
def layer (inCh outCh kRows kCols stride pad dil groups biasEn sliceW : Nat) : List PortEvent :=
  wr .inCh inCh ++ wr .outCh outCh ++ wr .kRows kRows ++ wr .kCols kCols ++ wr .stride stride ++ wr .pad pad ++
  wr .dil dil ++ wr .groups groups ++ wr .biasEn biasEn ++ wr .sliceW sliceW

/-- `REBUILD`: INVAL, then BUILD. -/
def rebuild : List PortEvent := command .inval ++ command .build

/-- The binary32 pattern of the rational `a / 2^k`, none where it is not exactly representable: "the script tool refuses
any other" (30_encoding.md R114, R108). -/
def realPattern (a : Int) (k : Nat) : Option Real32 :=
  let n := a.natAbs
  let p := Nat.log2 n
  let sign := if a < 0 then 2 ^ 31 else 0
  if n = 0 then some 0
  else if p + 126 < k then
    if n * 2 ^ 149 % 2 ^ k = 0 then some (BitVec.ofNat 32 (sign + n * 2 ^ 149 / 2 ^ k)) else none
  else if k + 127 < p then none
  else if n * 2 ^ 23 % 2 ^ p = 0 then
    some (BitVec.ofNat 32 (sign + (p + 127 - k) * 2 ^ 23 + (n * 2 ^ 23 / 2 ^ p - 2 ^ 23)))
  else none

/-- `WRF <SPACE>[<index>], <decimal>` for the decimal `a / 2^k`; none where the script tool refuses it. -/
def wrf (sp : Space) (i : Nat) (a : Int) (k : Nat) : Option (List PortEvent) :=
  match realPattern a k with
  | some b => some (wrWord sp i b.toNat)
  | none => none

end Sys2Proof.Machine.Script
end

