-- ==== Sys2Proof/Safety.lean ====
section
/-! DEFINITION. The terms the claims use: the invariant of the block, when a layer and a call are valid, and which event of the host port runs which command. -/

namespace Sys2Proof.Machine

/-! ### The invariant -/

/-- What the registers of a block say of one another in every state a run from reset can reach. -/
structure RegistersOk (s : State) : Prop where
  /-- The capacities are in the ranges of 00_scope.md R6. -/
  capsLegal : s.caps.Legal
  /-- "In the atomic model the host never reads 1" (10_state.md R22). -/
  notBusy : s.busy = false
  /-- "ERR_CODE takes these values and no others" (60_exceptions.md R236); 0x16 is never produced. -/
  codeListed : s.errCode ∈ ([0, 0x10, 0x11, 0x12, 0x13, 0x14, 0x15, 0x20, 0x21, 0x22, 0x23, 0x80] : List (BitVec 8))
  /-- The information word is written and cleared together with the code (10_state.md R24). -/
  noInfo : s.errCode = 0 → s.errInfo = 0
  /-- ERR_CODE holds "the fatal code if the block is in FAULT", and only then (60_exceptions.md R245). -/
  faultCode : s.state = .fault ↔ s.errCode = 0x80
  /-- In state UNBUILT the six geometry registers hold 0 (41_build.md R155). -/
  unbuiltGeometry : s.state = .unbuilt →
    s.inFeat = 0 ∧ s.rowTiles = 0 ∧ s.colTiles = 0 ∧ s.nSlices = 0 ∧ s.outRows = 0 ∧ s.outCols = 0
  /-- While BUILT the layer registers hold what BUILD validated (10_state.md R42) ... -/
  builtLayer : s.state = .built → firstFailing s.layerChecks = none
  /-- ... and the geometry registers describe the grid (10_state.md R38). -/
  builtGeometry : s.state = .built →
    s.inFeat.toNat = s.inFeatures ∧ s.rowTiles.toNat = s.layerRowTiles ∧
    s.colTiles.toNat = s.layerColTiles ∧ s.nSlices.toNat = s.layerSlices

/-- Every memory is in canonical form and inside its capacity (20_memory.md R72, R81; log 4). -/
structure MemoriesOk (s : State) : Prop where
  wmem : s.wmem.wf ∧ s.wmem.within s.caps.capW
  bmem : s.bmem.wf ∧ s.bmem.within s.caps.capB
  imem : s.imem.wf ∧ s.imem.within s.caps.capI
  omem : s.omem.wf ∧ s.omem.within s.caps.capO
  tstore : s.tstore.wf ∧ s.tstore.within (s.caps.capX * planeCells)
  pbuf : s.pbuf.wf ∧ s.pbuf.within s.caps.capP
  acc : s.acc.wf ∧ s.acc.within s.caps.capA
  tout : s.tout.wf ∧ s.tout.within tileDim

/-- The cells of one coordinate hold the slices of the word `q` (42_tile_mvm.md R165). -/
def State.HoldsWord (s : State) (i j row col : Nat) (q : Fx16) : Prop :=
  ∀ k < s.nSlices.toNat,
    s.tstore.get? (cellIndex s.colTiles.toNat s.nSlices.toNat i j k row col) =
      some (BitVec.ofNat 16 (slice q s.sliceW.toNat k))

/-- While BUILT every coordinate of the grid holds the slices of one word, and of the word 0 where it is padding
(41_build.md R153, R154; 42_tile_mvm.md R165). -/
def GridOk (s : State) : Prop :=
  s.state = .built →
    ∀ i < s.rowTiles.toNat, ∀ j < s.colTiles.toNat, ∀ row < tileDim, ∀ col < tileDim,
      ∃ q : Fx16, s.HoldsWord i j row col q ∧
        ((s.inFeatures ≤ i * tileDim + row ∨ s.outCh.toNat ≤ j * tileDim + col) → q = 0)

/-- The invariant of the block. -/
structure Inv (s : State) : Prop where
  registers : RegistersOk s
  memories : MemoriesOk s
  grid : GridOk s

/-! ### Valid layers and calls -/

/-- The layer registers describe a layer BUILD accepts (41_build.md R151, in plain numbers). -/
structure LayerValid (s : State) : Prop where
  inCh : 1 ≤ s.inCh.toNat
  outCh : 1 ≤ s.outCh.toNat
  kRows : 1 ≤ s.kRows.toNat
  kCols : 1 ≤ s.kCols.toNat
  stride : 1 ≤ s.stride.toNat
  dil : 1 ≤ s.dil.toNat
  groups : s.groups.toNat = 1
  sliceW : 1 ≤ s.sliceW.toNat ∧ s.sliceW.toNat ≤ 16
  fitsW : s.outCh.toNat * s.inFeatures ≤ s.caps.capW
  fitsB : s.biasEn = 1 → s.outCh.toNat ≤ s.caps.capB
  fitsX : (s.inFeatures + 127) / 128 * ((s.outCh.toNat + 127) / 128) * ((16 + s.sliceW.toNat - 1) / s.sliceW.toNat) ≤ s.caps.capX
  fitsP : s.inFeatures ≤ s.caps.capP
  fitsA : (s.outCh.toNat + 127) / 128 * 128 ≤ s.caps.capA

/-- The registers of a call pass `ValidateCall` (44_conv.md R196, in plain numbers). -/
structure CallValid (s : State) : Prop where
  inRows : 1 ≤ s.inRows.toNat
  inCols : 1 ≤ s.inCols.toNat
  rowsFit : s.dil.toNat * (s.kRows.toNat - 1) + 1 ≤ s.inRows.toNat + 2 * s.pad.toNat
  colsFit : s.dil.toNat * (s.kCols.toNat - 1) + 1 ≤ s.inCols.toNat + 2 * s.pad.toNat
  fitsI : s.inCh.toNat * s.inRows.toNat * s.inCols.toNat ≤ s.caps.capI

/-! ### Events -/

/-- The event is a write of the word of command `i` to CMD. -/
def PortEvent.Issues (e : PortEvent) (i : Instr) : Prop :=
  ∃ d, e = .write cmdAddr d ∧ decode (d.setWidth 32) = .ok i

/-- The next event of the host port. -/
def State.nextIs (s : State) (e : PortEvent) : Prop := ∃ rest, s.port = e :: rest

/-- Every register of space 0 holds its reset value (70_reset_and_hazards.md R271). -/
structure RegistersReset (t : State) : Prop where
  state : t.state = .unbuilt
  flags : t.busy = false ∧ t.qovf = false
  record : t.errCode = 0 ∧ t.errInfo = 0
  scalars : t.arg0 = 0 ∧ t.result = 0 ∧ t.tileI = 0 ∧ t.tileJ = 0
  layer : t.inCh = 0 ∧ t.outCh = 0 ∧ t.kRows = 0 ∧ t.kCols = 0 ∧ t.stride = 0 ∧ t.pad = 0 ∧ t.dil = 0 ∧
    t.groups = 0 ∧ t.biasEn = 0 ∧ t.sliceW = 0 ∧ t.fmt = 0
  call : t.inRows = 0 ∧ t.inCols = 0 ∧ t.posR = 0 ∧ t.posC = 0
  geometry : t.inFeat = 0 ∧ t.rowTiles = 0 ∧ t.colTiles = 0 ∧ t.nSlices = 0 ∧ t.outRows = 0 ∧ t.outCols = 0

/-- The eight memories and the model's own fields of `t` are those of `s`. -/
structure KeepsMemories (s t : State) : Prop where
  host : t.wmem = s.wmem ∧ t.bmem = s.bmem ∧ t.imem = s.imem
  engine : t.omem = s.omem ∧ t.tstore = s.tstore ∧ t.pbuf = s.pbuf ∧ t.acc = s.acc ∧ t.tout = s.tout
  model : t.caps = s.caps ∧ t.port = s.port ∧ t.readLog = s.readLog ∧ t.powerOns = s.powerOns

/-- The eleven layer registers of `t` are those of `s` (10_state.md R42). -/
def SameLayer (s t : State) : Prop :=
  t.inCh = s.inCh ∧ t.outCh = s.outCh ∧ t.kRows = s.kRows ∧ t.kCols = s.kCols ∧ t.stride = s.stride ∧ t.pad = s.pad ∧
  t.dil = s.dil ∧ t.groups = s.groups ∧ t.biasEn = s.biasEn ∧ t.sliceW = s.sliceW ∧ t.fmt = s.fmt

end Sys2Proof.Machine
end

