-- ==== Sys2Proof/Reference.lean ====
section
/-! DEFINITION. The spec's own formulas, over rationals, finite sums and loops, against which the claims hold the machine: rational rounding, binary32, bit-planes, the pseudocode loops of BUILD and SMVM, the textbook convolution, the order of the checks. -/

namespace Sys2Proof.Reference

open Sys2Proof.Machine

/-! ### Numbers (00_scope.md R8, R10; 30_encoding.md R108; 40_quantize_slice.md R130) -/

/-- `XR`: the rationals with `nan`, `+inf`, `-inf` (00_scope.md R10). -/
inductive ExtReal where
  | nan
  | posInf
  | negInf
  | rational (q : ℚ)

/-- `rne(y)` of a rational (00_scope.md R8). -/
def rne (y : ℚ) : ℤ :=
  let n := ⌊y⌋
  let d := y - n
  if d > 1 / 2 then n + 1 else if d < 1 / 2 then n else if 2 ∣ n then n else n + 1

/-- `sat_N(z)` (00_scope.md R8). -/
def sat (N : ℕ) (z : ℤ) : ℤ := min (max z (-(2 : ℤ) ^ (N - 1))) ((2 : ℤ) ^ (N - 1) - 1)

/-- `f32(b)` (30_encoding.md R108). -/
def f32 (b : Real32) : ExtReal :=
  let sg : ℚ := if b.toNat / 2 ^ 31 % 2 = 1 then -1 else 1
  let e : ℕ := b.toNat / 2 ^ 23 % 256
  let m : ℕ := b.toNat % 2 ^ 23
  if e = 255 then (if m ≠ 0 then .nan else if b.toNat / 2 ^ 31 % 2 = 1 then .negInf else .posInf)
  else if e = 0 then .rational (sg * m * (2 : ℚ) ^ (-149 : ℤ))
  else .rational (sg * (2 ^ 23 + m) * (2 : ℚ) ^ ((e : ℤ) - 150))

/-- `Quantize(v, F, N)` (40_quantize_slice.md R130). -/
def quantize (N F : ℕ) : ExtReal → BitVec N × Bool
  | .nan => (0, true)
  | .posInf => (BitVec.ofInt N ((2 : ℤ) ^ (N - 1) - 1), true)
  | .negInf => (BitVec.ofInt N (-(2 : ℤ) ^ (N - 1)), true)
  | .rational v =>
    let n := rne (v * 2 ^ F)
    (BitVec.ofInt N (sat N n), decide (n ≠ sat N n))

/-- What an `XR` of the machine denotes. -/
def denote : XR → ExtReal
  | .nan => .nan
  | .posInf => .posInf
  | .negInf => .negInf
  | .dyadic a k => .rational ((a : ℚ) / 2 ^ k)

/-! ### The tile, plane by plane (42_tile_mvm.md R166, R167) -/

/-- `pw(p)`, the significance of bit-plane `p` (42_tile_mvm.md R166). -/
def planeWeight (p : ℕ) : ℤ := if p = 15 then -(2 : ℤ) ^ 15 else 2 ^ p

/-- `TileMvm(i, j, x)[col]`, bit-plane by bit-plane (42_tile_mvm.md R167). -/
def tileByPlanes (s : State) (i j : ℕ) (x : ℕ → Fx16) (col : ℕ) : ℤ :=
  ∑ p ∈ Finset.range 16, planeWeight p *
    ∑ row ∈ Finset.range 128, s.weight i j row col * (if (x row).getLsbD p then 1 else 0)

/-! ### The scheduler's loop (43_scheduler.md R181) -/

/-- The innermost loop: the tile's output added to the segment of column-tile `j`. -/
def addSegment (out : ℕ → ℤ) (j : ℕ) (acc : ℕ → ℤ) : ℕ → ℤ :=
  (List.range 128).foldl (fun acc col => Function.update acc (j * 128 + col) (acc (j * 128 + col) + out col)) acc

/-- `SchedMvm()`: row-tiles, then column-tiles, from an accumulator of zeros. -/
def schedLoop (s : State) : ℕ → ℤ :=
  (List.range s.rowTiles.toNat).foldl (fun acc i =>
    (List.range s.colTiles.toNat).foldl (fun acc j => addSegment (tileByPlanes s i j (s.subVector i)) j acc) acc)
    (fun _ => 0)

/-- `Wq(a, f)`, the weight the grid holds for output channel `a` and feature `f` (43_scheduler.md R182). -/
def gridWeight (s : State) (a f : ℕ) : ℤ := s.weight (f / 128) (a / 128) (f % 128) (a % 128)

/-! ### BUILD's loop (41_build.md R152) -/

/-- The body of the four outer loops: the word of one coordinate, and QOVF, for the layer and weights of `s`. -/
def buildWord (s : State) (gr gc : ℕ) : Fx16 × Bool :=
  if gr < s.inFeatures ∧ gc < s.outCh.toNat then
    quantize 16 s.fW (f32 (s.wmemAt (gc * s.inFeatures + gr)))
  else (0, false)

/-- One coordinate: its slices written one by one, its overflow bit noted. -/
def buildCoordinate (s : State) (i j row col : ℕ) (g : Memory 16 × Bool) : Memory 16 × Bool :=
  let q := buildWord s (i * 128 + row) (j * 128 + col)
  ((List.range s.layerSlices).foldl (fun m k =>
      m.write (((((i * s.layerColTiles + j) * s.layerSlices + k) * 128 + row) * 128) + col)
        (BitVec.ofNat 16 (q.1.toNat / 2 ^ (s.sliceW.toNat * k) % 2 ^ s.sliceW.toNat))) g.1,
    g.2 || q.2)

/-- The loop nest of BUILD: TSTORE and QOVF after every single write. -/
def buildLoop (s : State) : Memory 16 × Bool :=
  (List.range s.layerRowTiles).foldl (fun g i =>
    (List.range s.layerColTiles).foldl (fun g j =>
      (List.range 128).foldl (fun g row =>
        (List.range 128).foldl (fun g col => buildCoordinate s i j row col g) g) g) g) (s.tstore, s.qovf)

/-! ### The convolution (20_memory.md R79, 44_conv.md R195, R197, R203) -/

/-- The feature index of tap `(ch, kr, kc)` (20_memory.md R79). -/
def tapIndex (s : State) (ch kr kc : ℕ) : ℕ := (ch * s.kRows.toNat + kr) * s.kCols.toNat + kc

/-- The input under tap `(ch, kr, kc)` at output position `(r, c)`: an element of IMEM, or 0 in the padding. -/
def tapValue (s : State) (r c ch kr kc : ℕ) : ExtReal :=
  let pr := r * s.stride.toNat + kr * s.dil.toNat
  let pc := c * s.stride.toNat + kc * s.dil.toNat
  if s.pad.toNat ≤ pr ∧ pr < s.pad.toNat + s.inRows.toNat ∧ s.pad.toNat ≤ pc ∧ pc < s.pad.toNat + s.inCols.toNat then
    f32 (s.imemAt ((ch * s.inRows.toNat + (pr - s.pad.toNat)) * s.inCols.toNat + (pc - s.pad.toNat)))
  else .rational 0

/-- The encoded input under a tap. -/
def tapWord (s : State) (r c ch kr kc : ℕ) : Fx16 × Bool := quantize 16 s.fIn (tapValue s r c ch kr kc)

/-- The sum of output channel `o` at position `(r, c)` before bias: weight times input over every tap. -/
def tapSum (s : State) (o r c : ℕ) : ℤ :=
  ∑ ch ∈ Finset.range s.inCh.toNat, ∑ kr ∈ Finset.range s.kRows.toNat, ∑ kc ∈ Finset.range s.kCols.toNat,
    gridWeight s o (tapIndex s ch kr kc) * (tapWord s r c ch kr kc).1.toInt

/-- The output size along one dimension (44_conv.md R195). -/
def outSize (input kernel stride pad dil : ℕ) : ℕ := (input + 2 * pad - (dil * (kernel - 1) + 1)) / stride + 1

/-- `outRows` (44_conv.md R195). -/
def outRows (s : State) : ℕ := outSize s.inRows.toNat s.kRows.toNat s.stride.toNat s.pad.toNat s.dil.toNat

/-- `outCols` (44_conv.md R195). -/
def outCols (s : State) : ℕ := outSize s.inCols.toNat s.kCols.toNat s.stride.toNat s.pad.toNat s.dil.toNat

/-- The OMEM index of output `(o, r, c)` (20_memory.md R79). -/
def outIndex (s : State) (o r c : ℕ) : ℕ := (o * outRows s + r) * outCols s + c

/-- The quantized bias of channel `o` (30_encoding.md R111). -/
def biasWord (s : State) (o : ℕ) : FxAcc × Bool := quantize 64 (s.fIn + s.fW) (f32 (s.bmemAt o))

/-! ### The checks in their order (41_build.md R151, 44_conv.md R196, 60_exceptions.md R244): code and information word -/

/-- The error BUILD raises, if any. -/
def layerError (s : State) : Option (BitVec 8 × BitVec 64) :=
  if s.inCh.toNat = 0 then some (0x10, 0x08)
  else if s.outCh.toNat = 0 then some (0x10, 0x09)
  else if s.kRows.toNat = 0 then some (0x10, 0x0A)
  else if s.kCols.toNat = 0 then some (0x10, 0x0B)
  else if s.stride.toNat = 0 then some (0x10, 0x0C)
  else if s.dil.toNat = 0 then some (0x10, 0x0E)
  else if s.groups.toNat = 0 ∨ ¬ s.groups.toNat ∣ s.inCh.toNat ∨ ¬ s.groups.toNat ∣ s.outCh.toNat then
    some (0x11, s.groups.setWidth 64)
  else if 1 < s.groups.toNat then some (0x12, s.groups.setWidth 64)
  else if s.sliceW.toNat = 0 ∨ 16 < s.sliceW.toNat then some (0x13, s.sliceW.setWidth 64)
  else if s.caps.capW < s.outCh.toNat * s.inFeatures then some (0x14, 1)
  else if s.biasEn = 1 ∧ s.caps.capB < s.outCh.toNat then some (0x14, 2)
  else if s.caps.capX < (s.inFeatures + 127) / 128 * ((s.outCh.toNat + 127) / 128) *
      ((16 + s.sliceW.toNat - 1) / s.sliceW.toNat) then some (0x14, 5)
  else if s.caps.capP < s.inFeatures then some (0x14, 6)
  else if s.caps.capA < (s.outCh.toNat + 127) / 128 * 128 then some (0x14, 7)
  else none

/-- The error `ValidateCall` raises, if any. -/
def callError (s : State) : Option (BitVec 8 × BitVec 64) :=
  if s.inRows.toNat = 0 then some (0x10, 0x14)
  else if s.inCols.toNat = 0 then some (0x10, 0x15)
  else if s.inRows.toNat + 2 * s.pad.toNat < s.dil.toNat * (s.kRows.toNat - 1) + 1 then some (0x15, 0x14)
  else if s.inCols.toNat + 2 * s.pad.toNat < s.dil.toNat * (s.kCols.toNat - 1) + 1 then some (0x15, 0x15)
  else if s.caps.capI < s.inCh.toNat * s.inRows.toNat * s.inCols.toNat then some (0x14, 3)
  else none

/-- The error ENCP raises in state BUILT, if any (44_conv.md R199). -/
def encpError (s : State) : Option (BitVec 8 × BitVec 64) :=
  match callError s with
  | some e => some e
  | none => if outRows s ≤ s.posR.toNat ∨ outCols s ≤ s.posC.toNat then some (0x22, s.posR ++ s.posC) else none

/-- The error CONV raises in state BUILT, if any (44_conv.md R200). -/
def convError (s : State) : Option (BitVec 8 × BitVec 64) :=
  match callError s with
  | some e => some e
  | none => if s.caps.capO < s.outCh.toNat * outRows s * outCols s then some (0x14, 4) else none

end Sys2Proof.Reference
end

