-- ==== Sys2Proof/Certificates/Slice0/Obligations.lean ====
section
/-! DEFINITION. The statements for the provers. -/

open Sys2Proof Sys2Proof.Machine

/-! ### Encoding -/

/-- Decoding the word of a well-formed command gives it back (30_encoding.md R101 to R104, R112). -/
def Obligations.DecodeEncodeRoundTrip : Prop :=
  ∀ i : Instr, i.WellFormed → decode (encode i) = .ok i

/-- A word that decodes is the word of what it decodes to: no bit is dropped, every command has one word (30_encoding.md R104). -/
def Obligations.EncodeInvertsDecode : Prop :=
  ∀ (w : CmdWord) (i : Instr), decode w = .ok i → i.WellFormed ∧ encode i = w

/-- A word is the command of a row exactly when `(w AND mask) = match`, with the immediates in their fields
(30_encoding.md R104). -/
def Obligations.WordsDecodeByMaskAndMatch : Prop :=
  ∀ w : CmdWord,
    (w &&& 0xFFFFFFFE#32 = 0x01000000#32 ↔ ∃ f, decode w = .ok (.qenc f)) ∧
    (w &&& 0xFFFFFFE0#32 = 0x02000000#32 ↔ ∃ k, decode w = .ok (.bslice k)) ∧
    (w &&& 0xFFFFFFFF#32 = 0x10000000#32 ↔ decode w = .ok .build) ∧
    (w &&& 0xFFFFFFFF#32 = 0x11000000#32 ↔ decode w = .ok .inval) ∧
    (w &&& 0xFFFFFFFF#32 = 0x20000000#32 ↔ decode w = .ok .encp) ∧
    (w &&& 0xFFFFFFFF#32 = 0x21000000#32 ↔ decode w = .ok .tmvm) ∧
    (w &&& 0xFFFFFFFF#32 = 0x22000000#32 ↔ decode w = .ok .smvm) ∧
    (w &&& 0xFFFFFFFF#32 = 0x30000000#32 ↔ decode w = .ok .conv) ∧
    (w &&& 0xFFFFFFFF#32 = 0x40000000#32 ↔ decode w = .ok .clrerr) ∧
    (w &&& 0xFFFFFFFF#32 = 0x7F000000#32 ↔ decode w = .ok .sreset) ∧
    (∀ f, decode w = .ok (.qenc f) → f = if w.toNat % 2 = 1 then .weight else .input) ∧
    (∀ k, decode w = .ok (.bslice k) → k = w.toNat % 32)

/-- Words written out from the spec's encodings decode to the commands they stand for (30_encoding.md R101 to R103). -/
def Obligations.SpecWordsDecode : Prop :=
  decode 0x01000001#32 = .ok (.qenc .weight) ∧ decode 0x02000007#32 = .ok (.bslice 7) ∧
  decode 0x10000000#32 = .ok .build ∧ decode 0x30000000#32 = .ok .conv ∧
  decode 0x30000001#32 = .error (.mustBeZero 0x30) ∧ decode 0#32 = .error (.unknownOpcode 0)

/-! ### The step -/

/-- A write of a command word to CMD runs the decoded command, on the state with that write taken from the port; and the
command `withFetchWord` places is the next one run (45_system.md R222; log 1, log 2). -/
def Obligations.StepRunsDecodedCommand : Prop :=
  (∀ (s : State) (d : HostData) (rest : List PortEvent) (i : Instr), s.busy = false →
    s.port = .write 0x00000003#32 d :: rest → decode (d.setWidth 32) = .ok i →
    step s = exec i { s with port := rest }) ∧
  (∀ (s : State) (w : Nat) (i : Instr), s.busy = false → decodeTableWord 32 w = some i →
    step (s.withFetchWord 32 w) = exec i s)

/-- A word that is no command is recorded as PROTO_ILLEGAL_CMD and changes nothing else; in FAULT it is discarded
(30_encoding.md R105). -/
def Obligations.IllegalWordIsRecorded : Prop :=
  ∀ (s : State) (d : HostData) (rest : List PortEvent), s.busy = false → s.port = .write 0x00000003#32 d :: rest →
    (∀ i, decode (d.setWidth 32) ≠ .ok i) →
    (s.state ≠ .fault → step s = .next { s with
      port := rest
      errCode := if s.errCode = 0 then 0x23 else s.errCode
      errInfo := if s.errCode = 0 then (d.setWidth 32).setWidth 64 else s.errInfo }) ∧
    (s.state = .fault → step s = .next { s with port := rest })

/-- A host read appends its data to the record of the run and changes nothing else (20_memory.md R78; log 1). -/
def Obligations.HostReadOnlyReturnsData : Prop :=
  ∀ (s : State) (a : HostAddr) (rest : List PortEvent), s.port = .read a :: rest →
    step s = .next { s with port := rest, readLog := s.readLog ++ [hostRead s a] }

/-- With no access pending the block is idle and keeps all state (70_reset_and_hazards.md R279; log 1). -/
def Obligations.IdleBlockKeepsState : Prop :=
  ∀ s : State, s.port = [] → step s = .next s

/-- In FAULT every host write but the SRESET word is discarded, and SRESET runs; while BUSY = 1 every write is discarded and
every read but that of STATUS returns 0 (20_memory.md R86). -/
def Obligations.FaultDiscardsEveryWriteButSreset : Prop :=
  (∀ (s : State) (a : HostAddr) (d : HostData) (rest : List PortEvent), s.state = .fault →
    s.port = .write a d :: rest → ¬ (a = 0x00000003#32 ∧ d.setWidth 32 = 0x7F000000#32) →
    step s = .next { s with port := rest }) ∧
  (∀ (s : State) (d : HostData) (rest : List PortEvent), s.state = .fault → s.busy = false →
    s.port = .write 0x00000003#32 d :: rest → d.setWidth 32 = 0x7F000000#32 →
    ∃ t, step s = .next t ∧ RegistersReset t) ∧
  (∀ (s : State) (a : HostAddr) (d : HostData) (rest : List PortEvent), s.busy = true →
    s.port = .write a d :: rest → step s = .next { s with port := rest }) ∧
  (∀ (s : State) (a : HostAddr), s.busy = true → a ≠ 0 → hostRead s a = 0)

/-! ### Reset -/

/-- Hardware reset sets every register to its reset value, TILE_DIM reads 128 and CMD 0, and no memory word is known any
more (70_reset_and_hazards.md R271, R272). -/
def Obligations.HardwareResetSetsEveryRegister : Prop :=
  ∀ (s : State) (rest : List PortEvent), s.port = .reset :: rest →
    ∃ t, step s = .next t ∧ RegistersReset t ∧ hostRead t 0x0000001E#32 = 128 ∧ hostRead t 0x00000003#32 = 0 ∧
      (∀ i, t.wmem.get? i = none ∧ t.bmem.get? i = none ∧ t.imem.get? i = none ∧ t.omem.get? i = none ∧
        t.tstore.get? i = none ∧ t.pbuf.get? i = none ∧ t.acc.get? i = none ∧ t.tout.get? i = none) ∧
      t.caps = s.caps ∧ t.port = rest ∧ t.readLog = s.readLog

/-- SRESET, in every state, sets every register to its reset value and leaves every memory and buffer as it was
(45_system.md R221). -/
def Obligations.SresetKeepsMemories : Prop :=
  ∀ s : State, ∃ t, exec .sreset s = .next t ∧ RegistersReset t ∧ KeepsMemories s t

/-! ### The quantizer and the slicer -/

/-- `f32` gives every binary32 pattern the value of 30_encoding.md R108. -/
def Obligations.BinaryThirtyTwoValues : Prop :=
  ∀ b : Real32, Reference.denote (Machine.f32 b) = Reference.f32 b

/-- QENC writes to RESULT the word `Quantize(f32(ARG0), F, 16)` of exact rational arithmetic, sets QOVF on overflow, and
changes nothing else (40_quantize_slice.md R134, R130). -/
def Obligations.QencQuantizesExactly : Prop :=
  ∀ (s : State) (fmt : FmtSel), s.state ≠ .fault →
    exec (.qenc fmt) s = .next { s with
      result := (Reference.quantize 16 (match fmt with | .input => s.fmt.toNat % 16 | .weight => s.fmt.toNat / 256)
        (Reference.f32 s.arg0)).1
      qovf := s.qovf || (Reference.quantize 16 (match fmt with | .input => s.fmt.toNat % 16 | .weight => s.fmt.toNat / 256)
        (Reference.f32 s.arg0)).2
      busy := false }

/-- An exactly representable value is quantized to its own word without overflow (40_quantize_slice.md R133). -/
def Obligations.QuantizeRoundTrip : Prop :=
  ∀ (b : Fx16) (F : Nat), F ≤ 15 → Machine.quantize 16 F (.dyadic b.toInt F) = (b, false)

/-- Without overflow the quantized value is within half a unit in the last place (40_quantize_slice.md R133). -/
def Obligations.QuantizeErrorIsHalfUnit : Prop :=
  ∀ (a : ℤ) (k F : Nat) (p : Fx16), Machine.quantize 16 F (.dyadic a k) = (p, false) →
    |(p.toInt : ℚ) / 2 ^ F - (a : ℚ) / 2 ^ k| ≤ 1 / 2 ^ (F + 1)

/-- BSLICE: an illegal slice width is CFG_SLICE_W, then a slice index out of range is PROTO_OPERAND, and nothing else changes;
otherwise RESULT is `floor(uval(u) / 2^(s*k)) mod 2^s` of ARG0's low half, and nothing else changes (40_quantize_slice.md R137,
R135). -/
def Obligations.BsliceFollowsItsRule : Prop :=
  ∀ (s : State) (k : Nat), s.state ≠ .fault →
    (s.sliceW.toNat = 0 ∨ 16 < s.sliceW.toNat →
      exec (.bslice k) s = .next { s with
        errCode := if s.errCode = 0 then 0x13 else s.errCode
        errInfo := if s.errCode = 0 then s.sliceW.setWidth 64 else s.errInfo
        busy := false }) ∧
    (1 ≤ s.sliceW.toNat → s.sliceW.toNat ≤ 16 → (16 + s.sliceW.toNat - 1) / s.sliceW.toNat ≤ k →
      exec (.bslice k) s = .next { s with
        errCode := if s.errCode = 0 then 0x22 else s.errCode
        errInfo := if s.errCode = 0 then BitVec.ofNat 64 k else s.errInfo
        busy := false }) ∧
    (1 ≤ s.sliceW.toNat → s.sliceW.toNat ≤ 16 → k < (16 + s.sliceW.toNat - 1) / s.sliceW.toNat →
      exec (.bslice k) s = .next { s with
        result := BitVec.ofNat 16 (s.arg0.toNat % 2 ^ 16 / 2 ^ (s.sliceW.toNat * k) % 2 ^ s.sliceW.toNat)
        busy := false })

/-- The slices of a word recombine to it, unsigned, and signed with the top bit of the top slice negative
(40_quantize_slice.md R136). -/
def Obligations.SlicesRecombine : Prop :=
  ∀ (u : Fx16) (s : Nat), 1 ≤ s → s ≤ 16 →
    (∑ k ∈ Finset.range (sliceCount s), slice u s k * 2 ^ (s * k) = u.toNat) ∧
    (∑ k ∈ Finset.range (sliceCount s), sliceWeight s (sliceCount s) k (slice u s k) = u.toInt)

/-! ### BUILD and INVAL -/

/-- BUILD of a valid layer completes: it publishes the geometry, sets QOVF if some weight overflows, writes into every cell
of the grid the slice of the quantized weight, or 0 in the padding, and changes nothing else (41_build.md R152, R153). -/
def Obligations.BuildWritesEveryCell : Prop :=
  ∀ s : State, s.state ≠ .fault → LayerValid s → s.tstore.wf →
    ∃ t, exec .build s = .next t ∧
      t = { s with
        tstore := t.tstore, qovf := t.qovf, inFeat := t.inFeat, rowTiles := t.rowTiles, colTiles := t.colTiles,
        nSlices := t.nSlices, state := .built, busy := false } ∧
      t.inFeat.toNat = s.inCh.toNat * s.kRows.toNat * s.kCols.toNat ∧
      t.rowTiles.toNat = (s.inFeatures + 127) / 128 ∧ t.colTiles.toNat = (s.outCh.toNat + 127) / 128 ∧
      t.nSlices.toNat = (16 + s.sliceW.toNat - 1) / s.sliceW.toNat ∧
      (t.qovf = true ↔ s.qovf = true ∨ ∃ gr < s.inFeatures, ∃ gc < s.outCh.toNat, (Reference.buildWord s gr gc).2 = true) ∧
      (∀ i < t.rowTiles.toNat, ∀ j < t.colTiles.toNat, ∀ k < t.nSlices.toNat, ∀ row < 128, ∀ col < 128,
        t.tstoreAt ((((i * t.colTiles.toNat + j) * t.nSlices.toNat + k) * 128 + row) * 128 + col) =
          BitVec.ofNat 16 ((Reference.buildWord s (i * 128 + row) (j * 128 + col)).1.toNat
            / 2 ^ (s.sliceW.toNat * k) % 2 ^ s.sliceW.toNat)) ∧
      (∀ x, t.rowTiles.toNat * t.colTiles.toNat * t.nSlices.toNat * 16384 ≤ x → t.tstoreAt x = s.tstoreAt x)

/-- The pseudocode's loop nest of single writes leaves the same TSTORE and QOVF as BUILD (41_build.md R152; log 10). -/
def Obligations.BuildEqualsItsLoopNest : Prop :=
  ∀ s : State, s.state ≠ .fault → LayerValid s → s.tstore.wf →
    ∃ t, exec .build s = .next t ∧ t.tstore = (Reference.buildLoop s).1 ∧ t.qovf = (Reference.buildLoop s).2

/-- BUILD raises the first failing check of `ValidateLayer`, in the order of 41_build.md R151, and then changes nothing but
the record (the first error wins); with no failing check it completes and leaves the record alone. -/
def Obligations.BuildChecksInOrder : Prop :=
  ∀ s : State, s.state ≠ .fault →
    (∀ code info, Reference.layerError s = some (code, info) →
      exec .build s = .next { s with
        errCode := if s.errCode = 0 then code else s.errCode
        errInfo := if s.errCode = 0 then info else s.errInfo
        busy := false }) ∧
    (Reference.layerError s = none →
      ∃ t, exec .build s = .next t ∧ t.state = .built ∧ t.errCode = s.errCode ∧ t.errInfo = s.errInfo)

/-- INVAL invalidates the grid: STATE is UNBUILT, the six geometry registers read 0, nothing else changes; and in state
UNBUILT, in every state that meets the register invariant, it changes nothing at all (41_build.md R155). -/
def Obligations.InvalForgetsTheGrid : Prop :=
  ∀ s : State, s.state ≠ .fault →
    exec .inval s = .next { s with
      state := .unbuilt, inFeat := 0, rowTiles := 0, colTiles := 0, nSlices := 0, outRows := 0, outCols := 0, busy := false } ∧
    (RegistersOk s → s.state = .unbuilt → exec .inval s = .next s)

/-! ### The tile and the scheduler -/

/-- TMVM: PROTO_NOT_BUILT while UNBUILT; while BUILT an index outside the grid enters FAULT with code 0x80 over any earlier
record; otherwise TOUT is written with the bit-plane sums of the tile's product with its part of the patch. In each case
nothing else changes (42_tile_mvm.md R171, R167; 60_exceptions.md R242, R243). -/
def Obligations.TmvmFollowsItsRule : Prop :=
  ∀ s : State,
    (s.state = .unbuilt → exec .tmvm s = .next { s with
      errCode := if s.errCode = 0 then 0x21 else s.errCode
      errInfo := if s.errCode = 0 then 0x21 else s.errInfo
      busy := false }) ∧
    (s.state = .built → (s.rowTiles.toNat ≤ s.tileI.toNat ∨ s.colTiles.toNat ≤ s.tileJ.toNat) →
      exec .tmvm s = .next { s with errCode := 0x80, errInfo := s.tileI ++ s.tileJ, state := .fault, busy := false }) ∧
    (s.state = .built → RegistersOk s → MemoriesOk s →
      s.tileI.toNat < s.rowTiles.toNat → s.tileJ.toNat < s.colTiles.toNat →
      ∃ t, exec .tmvm s = .next t ∧ t = { s with tout := t.tout } ∧
        ∀ col < 128, t.toutAt col = BitVec.ofInt 64
          (Reference.tileByPlanes s s.tileI.toNat s.tileJ.toNat
            (fun row => if s.tileI.toNat * 128 + row < s.inFeat.toNat then s.pbufAt (s.tileI.toNat * 128 + row) else 0) col))

/-- In state UNBUILT, ENCP and CONV record PROTO_NOT_BUILT with their opcode byte (the first error wins) and change nothing
else; TMVM and SMVM are in their own statements (44_conv.md R199, R200; 60_exceptions.md R236, R242). -/
def Obligations.GridCommandsNeedTheGrid : Prop :=
  ∀ s : State, s.state = .unbuilt →
    exec .encp s = .next { s with
      errCode := if s.errCode = 0 then 0x21 else s.errCode
      errInfo := if s.errCode = 0 then 0x20 else s.errInfo
      busy := false } ∧
    exec .conv s = .next { s with
      errCode := if s.errCode = 0 then 0x21 else s.errCode
      errInfo := if s.errCode = 0 then 0x30 else s.errInfo
      busy := false }

/-- The weight a coordinate holds is the signed word its cells are the slices of (42_tile_mvm.md R165). -/
def Obligations.WeightIsTheStoredWord : Prop :=
  ∀ (s : State) (i j row col : Nat) (q : Fx16), 1 ≤ s.sliceW.toNat → s.sliceW.toNat ≤ 16 →
    s.nSlices.toNat = (16 + s.sliceW.toNat - 1) / s.sliceW.toNat → s.HoldsWord i j row col q →
    s.weight i j row col = q.toInt

/-- A tile output is at most `2^37` in magnitude (42_tile_mvm.md R172). -/
def Obligations.TileOutputIsBounded : Prop :=
  ∀ s : State, Inv s → s.state = .built → ∀ i < s.rowTiles.toNat, ∀ j < s.colTiles.toNat, ∀ (x : Nat → Fx16),
    ∀ col < 128, |s.tileMvm i j x col| ≤ 2 ^ 37

/-- SMVM: PROTO_NOT_BUILT while UNBUILT; while BUILT it leaves in ACC, from word 0 to `colTiles * 128 - 1`, the accumulator
of the scheduler's loop. In each case nothing else changes (43_scheduler.md R187, R181, R180). -/
def Obligations.SmvmRunsTheSchedulerLoop : Prop :=
  ∀ s : State,
    (s.state = .unbuilt → exec .smvm s = .next { s with
      errCode := if s.errCode = 0 then 0x21 else s.errCode
      errInfo := if s.errCode = 0 then 0x22 else s.errInfo
      busy := false }) ∧
    (RegistersOk s → MemoriesOk s → s.state = .built →
      ∃ t, exec .smvm s = .next t ∧ t = { s with acc := t.acc } ∧
        (∀ a < s.colTiles.toNat * 128, t.accAt a = BitVec.ofInt 64 (Reference.schedLoop s a)) ∧
        (∀ a, s.colTiles.toNat * 128 ≤ a → t.accAt a = s.accAt a))

/-- The scheduler's sum is the product of the quantized weight matrix with the patch in the channels of the layer, and 0 in
the padding channels (43_scheduler.md R182). -/
def Obligations.SchedulerIsTheMatrixProduct : Prop :=
  ∀ s : State, Inv s → s.state = .built →
    (∀ a < s.outCh.toNat, s.schedMvm a =
      ∑ f ∈ Finset.range s.inFeatures, Reference.gridWeight s a f * (s.pbufAt f).toInt) ∧
    (∀ a, s.outCh.toNat ≤ a → a < s.colTiles.toNat * 128 → s.schedMvm a = 0)

/-- The sums never leave the range of a 64-bit word: the accumulator word read as a signed number is the exact sum
(43_scheduler.md R186). -/
def Obligations.SumsNeverWrap : Prop :=
  ∀ s : State, Inv s → s.state = .built → ∀ a < s.colTiles.toNat * 128,
    |s.schedMvm a| < 2 ^ 62 ∧ (BitVec.ofInt 64 (s.schedMvm a)).toInt = s.schedMvm a

/-- With one tile, SMVM and TMVM give the same vector (43_scheduler.md R184). -/
def Obligations.SingleTileEqualsScheduler : Prop :=
  ∀ s : State, Inv s → s.state = .built → s.inFeatures ≤ 128 → s.outCh.toNat ≤ 128 → s.tileI = 0 → s.tileJ = 0 →
    ∃ t u, exec .smvm s = .next t ∧ exec .tmvm t = .next u ∧ ∀ a < 128, u.accAt a = u.toutAt a

/-! ### The convolution engine -/

/-- ENCP in state BUILT, with a valid call and a position inside the output, writes every tap's encoded input to PBUF, the
output size to OUT_ROWS and OUT_COLS, sets QOVF if some tap overflows, and changes nothing else (44_conv.md R199, R197, R198). -/
def Obligations.EncpEncodesThePatch : Prop :=
  ∀ s : State, RegistersOk s → MemoriesOk s → s.state = .built → CallValid s →
    s.posR.toNat < Reference.outRows s → s.posC.toNat < Reference.outCols s →
    ∃ t, exec .encp s = .next t ∧
      t = { s with pbuf := t.pbuf, outRows := t.outRows, outCols := t.outCols, qovf := t.qovf } ∧
      t.outRows.toNat = Reference.outRows s ∧ t.outCols.toNat = Reference.outCols s ∧
      (∀ ch < s.inCh.toNat, ∀ kr < s.kRows.toNat, ∀ kc < s.kCols.toNat,
        t.pbufAt (Reference.tapIndex s ch kr kc) = (Reference.tapWord s s.posR.toNat s.posC.toNat ch kr kc).1) ∧
      (∀ x, s.inFeatures ≤ x → t.pbufAt x = s.pbufAt x) ∧
      (t.qovf = true ↔ s.qovf = true ∨ ∃ ch < s.inCh.toNat, ∃ kr < s.kRows.toNat, ∃ kc < s.kCols.toNat,
        (Reference.tapWord s s.posR.toNat s.posC.toNat ch kr kc).2 = true)

/-- ENCP in state BUILT raises the first failing check of `ValidateCall` (44_conv.md R196), then that of the position
(44_conv.md R199), and changes nothing but the record (the first error wins). -/
def Obligations.EncpChecksInOrder : Prop :=
  ∀ s : State, s.state = .built → ∀ code info, Reference.encpError s = some (code, info) →
    exec .encp s = .next { s with
      errCode := if s.errCode = 0 then code else s.errCode
      errInfo := if s.errCode = 0 then info else s.errInfo
      busy := false }

/-- CONV in state BUILT, with a valid call that fits OMEM, completes: every word of the output tensor is the convolution sum
of its channel and position, plus the quantized bias with saturation when BIAS_EN is 1; every other word of OMEM, and
everything but the results CONV names, is unchanged (44_conv.md R200, R201, R202). -/
def Obligations.ConvComputesTheConvolution : Prop :=
  ∀ s : State, Inv s → s.state = .built → CallValid s →
    s.outCh.toNat * Reference.outRows s * Reference.outCols s ≤ s.caps.capO →
    ∃ t, exec .conv s = .next t ∧
      t = { s with
        omem := t.omem, outRows := t.outRows, outCols := t.outCols, posR := t.posR, posC := t.posC, pbuf := t.pbuf,
        acc := t.acc, qovf := t.qovf } ∧
      t.outRows.toNat = Reference.outRows s ∧ t.outCols.toNat = Reference.outCols s ∧
      (∀ o < s.outCh.toNat, ∀ r < Reference.outRows s, ∀ c < Reference.outCols s,
        t.omemAt (Reference.outIndex s o r c) = BitVec.ofInt 64
          (if s.biasEn = 1 then Reference.sat 64 (Reference.tapSum s o r c + (Reference.biasWord s o).1.toInt)
            else Reference.tapSum s o r c)) ∧
      (∀ x, s.outCh.toNat * Reference.outRows s * Reference.outCols s ≤ x → t.omemAt x = s.omemAt x)

/-- After CONV the position counters are at the last position, PBUF holds its patch and ACC its sums before bias, and every
PBUF and ACC word beyond them is unchanged (44_conv.md R204). -/
def Obligations.ConvLeavesTheLastPosition : Prop :=
  ∀ s : State, Inv s → s.state = .built → CallValid s →
    s.outCh.toNat * Reference.outRows s * Reference.outCols s ≤ s.caps.capO →
    ∃ t, exec .conv s = .next t ∧
      t.posR.toNat = Reference.outRows s - 1 ∧ t.posC.toNat = Reference.outCols s - 1 ∧
      (∀ ch < s.inCh.toNat, ∀ kr < s.kRows.toNat, ∀ kc < s.kCols.toNat,
        t.pbufAt (Reference.tapIndex s ch kr kc) =
          (Reference.tapWord s (Reference.outRows s - 1) (Reference.outCols s - 1) ch kr kc).1) ∧
      (∀ o < s.outCh.toNat,
        t.accAt o = BitVec.ofInt 64 (Reference.tapSum s o (Reference.outRows s - 1) (Reference.outCols s - 1))) ∧
      (∀ a, s.outCh.toNat ≤ a → a < s.colTiles.toNat * 128 → t.accAt a = 0) ∧
      (∀ x, s.inFeatures ≤ x → t.pbufAt x = s.pbufAt x) ∧
      (∀ a, s.colTiles.toNat * 128 ≤ a → t.accAt a = s.accAt a)

/-- QOVF after CONV: it was set, or some tap of some position overflows, or (BIAS_EN = 1) some bias overflows or some bias
addition saturates (44_conv.md R198, R202, 40_quantize_slice.md R131). -/
def Obligations.ConvOverflowIsLogged : Prop :=
  ∀ s : State, Inv s → s.state = .built → CallValid s →
    s.outCh.toNat * Reference.outRows s * Reference.outCols s ≤ s.caps.capO →
    ∃ t, exec .conv s = .next t ∧
      (t.qovf = true ↔ s.qovf = true ∨
        (∃ r < Reference.outRows s, ∃ c < Reference.outCols s,
          ∃ ch < s.inCh.toNat, ∃ kr < s.kRows.toNat, ∃ kc < s.kCols.toNat,
            (Reference.tapWord s r c ch kr kc).2 = true) ∨
        (s.biasEn = 1 ∧ ∃ o < s.outCh.toNat, (Reference.biasWord s o).2 = true ∨
          ∃ r < Reference.outRows s, ∃ c < Reference.outCols s,
            Reference.sat 64 (Reference.tapSum s o r c + (Reference.biasWord s o).1.toInt) ≠
              Reference.tapSum s o r c + (Reference.biasWord s o).1.toInt))

/-- BUILD then CONV, from a state with QOVF clear to one with QOVF clear, leaves in every output word exactly the rational
convolution of the quantized input with the quantized weights, plus the quantized bias (44_conv.md R203). -/
def Obligations.UnclampedOutputIsTheExactConvolution : Prop :=
  ∀ s : State, Inv s → s.state ≠ .fault → LayerValid s → CallValid s →
    s.outCh.toNat * Reference.outRows s * Reference.outCols s ≤ s.caps.capO → s.qovf = false →
    ∃ b t, exec .build s = .next b ∧ exec .conv b = .next t ∧ (t.qovf = false →
      ∀ o < s.outCh.toNat, ∀ r < Reference.outRows s, ∀ c < Reference.outCols s,
        ((t.omemAt (Reference.outIndex s o r c)).toInt : ℚ) / 2 ^ (s.fIn + s.fW) =
          (∑ ch ∈ Finset.range s.inCh.toNat, ∑ kr ∈ Finset.range s.kRows.toNat, ∑ kc ∈ Finset.range s.kCols.toNat,
            ((Reference.quantize 16 s.fW
                (Reference.f32 (s.wmemAt (o * s.inFeatures + Reference.tapIndex s ch kr kc)))).1.toInt : ℚ) / 2 ^ s.fW *
              (((Reference.tapWord s r c ch kr kc).1.toInt : ℚ) / 2 ^ s.fIn)) +
          (if s.biasEn = 1 then ((Reference.biasWord s o).1.toInt : ℚ) / 2 ^ (s.fIn + s.fW) else 0))

/-- One position by hand, ENCP then SMVM, gives the words CONV writes to OMEM at that position before bias: CONV leaves
those words in OMEM when BIAS_EN is 0, and each of them with the quantized bias added and saturated when BIAS_EN is 1
(44_conv.md R199, R202). -/
def Obligations.EncpThenSmvmIsOnePositionOfConv : Prop :=
  ∀ s : State, Inv s → s.state = .built → CallValid s →
    s.outCh.toNat * Reference.outRows s * Reference.outCols s ≤ s.caps.capO →
    s.posR.toNat < Reference.outRows s → s.posC.toNat < Reference.outCols s →
    ∃ u v t, exec .encp s = .next u ∧ exec .smvm u = .next v ∧ exec .conv s = .next t ∧
      ∀ o < s.outCh.toNat, t.omemAt (Reference.outIndex s o s.posR.toNat s.posC.toNat) =
        if s.biasEn = 1 then BitVec.ofInt 64 (Reference.sat 64 ((v.accAt o).toInt + (Reference.biasWord s o).1.toInt))
        else v.accAt o

/-- CONV in state BUILT raises the first failing check of `ValidateCall` (44_conv.md R196), then that of the capacity of OMEM
(44_conv.md R200), and changes nothing but the record (the first error wins). -/
def Obligations.ConvChecksInOrder : Prop :=
  ∀ s : State, s.state = .built → ∀ code info, Reference.convError s = some (code, info) →
    exec .conv s = .next { s with
      errCode := if s.errCode = 0 then code else s.errCode
      errInfo := if s.errCode = 0 then info else s.errInfo
      busy := false }

/-- The output tensor and QOVF after CONV do not depend on anything that is no operand of CONV: what the buffers, the output
memory, the position counters, WMEM, the scalar and tile-index registers, the output size, the error record or the model's own
port and record of reads held before; nor on BMEM when BIAS_EN is 0 (44_conv.md R200, R207; 20_memory.md R84). -/
def Obligations.ConvDependsOnlyOnItsOperands : Prop :=
  ∀ (s s' : State), Inv s → Inv s' → s.state = .built → CallValid s →
    s.outCh.toNat * Reference.outRows s * Reference.outCols s ≤ s.caps.capO →
    (s.biasEn = 1 → s'.bmem = s.bmem) →
    s' = { s with
      pbuf := s'.pbuf, acc := s'.acc, omem := s'.omem, tout := s'.tout, posR := s'.posR, posC := s'.posC,
      wmem := s'.wmem, bmem := s'.bmem, outRows := s'.outRows, outCols := s'.outCols,
      arg0 := s'.arg0, result := s'.result, tileI := s'.tileI, tileJ := s'.tileJ,
      errCode := s'.errCode, errInfo := s'.errInfo, port := s'.port, readLog := s'.readLog } →
    ∃ t t', exec .conv s = .next t ∧ exec .conv s' = .next t' ∧ t.qovf = t'.qovf ∧
      ∀ x < s.outCh.toNat * Reference.outRows s * Reference.outCols s, t.omemAt x = t'.omemAt x

/-! ### System commands and errors -/

/-- CLRERR clears the record and QOVF and changes nothing else (45_system.md R220). -/
def Obligations.ClrerrClearsTheRecord : Prop :=
  ∀ s : State, s.state ≠ .fault →
    exec .clrerr s = .next { s with errCode := 0, errInfo := 0, qovf := false, busy := false }

/-- Errors are precise: a command that would record an error on a clear record changes, on any record, nothing but the record
and, for the fatal error of TMVM, STATE (60_exceptions.md R241). -/
def Obligations.ErrorsArePrecise : Prop :=
  ∀ (i : Instr) (s t : State), s.state ≠ .fault → i ≠ .sreset →
    exec i { s with errCode := 0, errInfo := 0 } = .next t → t.errCode ≠ 0 →
    ∃ u, exec i s = .next u ∧ u = { s with errCode := u.errCode, errInfo := u.errInfo, state := u.state, busy := false } ∧
      (u.state ≠ s.state → u.state = .fault ∧ u.errCode = 0x80 ∧ i = .tmvm)

/-- While an error is recorded the record changes only by the fatal error of TMVM, by CLRERR and by reset
(60_exceptions.md R245). -/
def Obligations.FirstErrorWins : Prop :=
  ∀ (s t : State) (e : PortEvent), s.nextIs e → step s = .next t → s.errCode ≠ 0 →
    (t.errCode ≠ s.errCode ∨ t.errInfo ≠ s.errInfo) →
    (e.Issues .tmvm ∧ t.state = .fault ∧ t.errCode = 0x80 ∧ t.errInfo = s.tileI ++ s.tileJ) ∨
    ((e.Issues .clrerr ∨ e.Issues .sreset ∨ e = .reset) ∧ t.errCode = 0 ∧ t.errInfo = 0)

/-- QOVF is cleared only by CLRERR and by reset (10_state.md R43). -/
def Obligations.OverflowFlagIsSticky : Prop :=
  ∀ (s t : State) (e : PortEvent), s.nextIs e → step s = .next t → s.qovf = true → t.qovf = false →
    e.Issues .clrerr ∨ e.Issues .sreset ∨ e = .reset

/-- STATE changes only as the table of 10_state.md R45 lists, and it does change at each event of the table. -/
def Obligations.StateChangesOnlyAsListed : Prop :=
  ∀ (s t : State) (e : PortEvent), s.nextIs e → step s = .next t →
    (t.state ≠ s.state →
      ((e = .reset ∨ e.Issues .sreset) ∧ t.state = .unbuilt) ∨
      (e.Issues .inval ∧ s.state = .built ∧ t.state = .unbuilt) ∨
      (e.Issues .build ∧ s.state = .unbuilt ∧ t.state = .built) ∨
      (e.Issues .tmvm ∧ s.state = .built ∧ t.state = .fault ∧ t.errCode = 0x80)) ∧
    (e = .reset → t.state = .unbuilt) ∧
    (s.busy = false →
      (e.Issues .sreset → t.state = .unbuilt) ∧
      (e.Issues .inval → s.state ≠ .fault → t.state = .unbuilt) ∧
      (e.Issues .build → s.state ≠ .fault → Reference.layerError s = none → t.state = .built) ∧
      (e.Issues .tmvm → s.state = .built → (s.rowTiles.toNat ≤ s.tileI.toNat ∨ s.colTiles.toNat ≤ s.tileJ.toNat) →
        t.state = .fault))

/-! ### The layer lock, the cache, the host's memories -/

/-- A host write to a layer register: locked while BUILT, with PROTO_LOCKED and the index recorded; performed while
UNBUILT, where it stores the low bits of the width in that register and changes nothing else (of FMT the two fields F_IN and
F_W are stated); discarded in FAULT. And while the block stays BUILT, whatever the step, the eleven layer registers keep their
values (10_state.md R42, R29 to R35). -/
def Obligations.LayerRegistersAreLocked : Prop :=
  (∀ (s : State) (idx : Nat) (d : HostData) (rest : List PortEvent), 0x08 ≤ idx → idx ≤ 0x12 → s.busy = false →
    s.port = .write (BitVec.ofNat 32 idx) d :: rest →
    (s.state = .built → step s = .next { s with
      port := rest
      errCode := if s.errCode = 0 then 0x20 else s.errCode
      errInfo := if s.errCode = 0 then BitVec.ofNat 64 idx else s.errInfo }) ∧
    (s.state = .fault → step s = .next { s with port := rest })) ∧
  (∀ (s : State) (d : HostData) (rest : List PortEvent), s.busy = false → s.state = .unbuilt →
    (s.port = .write 0x08#32 d :: rest → step s = .next { s with port := rest, inCh := d.setWidth 16 }) ∧
    (s.port = .write 0x09#32 d :: rest → step s = .next { s with port := rest, outCh := d.setWidth 16 }) ∧
    (s.port = .write 0x0A#32 d :: rest → step s = .next { s with port := rest, kRows := d.setWidth 8 }) ∧
    (s.port = .write 0x0B#32 d :: rest → step s = .next { s with port := rest, kCols := d.setWidth 8 }) ∧
    (s.port = .write 0x0C#32 d :: rest → step s = .next { s with port := rest, stride := d.setWidth 8 }) ∧
    (s.port = .write 0x0D#32 d :: rest → step s = .next { s with port := rest, pad := d.setWidth 8 }) ∧
    (s.port = .write 0x0E#32 d :: rest → step s = .next { s with port := rest, dil := d.setWidth 8 }) ∧
    (s.port = .write 0x0F#32 d :: rest → step s = .next { s with port := rest, groups := d.setWidth 16 }) ∧
    (s.port = .write 0x10#32 d :: rest → step s = .next { s with port := rest, biasEn := d.setWidth 1 }) ∧
    (s.port = .write 0x11#32 d :: rest → step s = .next { s with port := rest, sliceW := d.setWidth 5 }) ∧
    (s.port = .write 0x12#32 d :: rest → ∃ t, step s = .next t ∧ t = { s with port := rest, fmt := t.fmt } ∧
      t.fmt.toNat % 16 = d.toNat % 16 ∧ t.fmt.toNat / 256 = d.toNat / 256 % 16)) ∧
  (∀ s t : State, step s = .next t → s.state = .built → t.state = .built → SameLayer s t)

/-- TSTORE changes only by BUILD and by hardware reset (10_state.md R50, 41_build.md R157). -/
def Obligations.OnlyBuildWritesTheGrid : Prop :=
  ∀ (s t : State) (e : PortEvent), s.nextIs e → step s = .next t → t.tstore ≠ s.tstore → e.Issues .build ∨ e = .reset

/-- No command writes WMEM, BMEM or IMEM; but for SRESET none writes ARG0, TILE_I, TILE_J or a layer register, and but for
SRESET and CONV none writes POS_R or POS_C (10_state.md R26, R28, R46, R47, R48, R37). -/
def Obligations.CommandsLeaveHostDataAlone : Prop :=
  ∀ (i : Instr) (s t : State), exec i s = .next t →
    (t.wmem = s.wmem ∧ t.bmem = s.bmem ∧ t.imem = s.imem ∧ t.caps = s.caps ∧ t.port = s.port ∧ t.readLog = s.readLog ∧
      t.powerOns = s.powerOns) ∧
    (i ≠ .sreset → t.arg0 = s.arg0 ∧ t.tileI = s.tileI ∧ t.tileJ = s.tileJ ∧ t.inRows = s.inRows ∧ t.inCols = s.inCols ∧
      SameLayer s t) ∧
    (i ≠ .sreset → i ≠ .conv → t.posR = s.posR ∧ t.posC = s.posC) ∧
    (i ≠ .conv → t.omem = s.omem) ∧ (i ≠ .tmvm → t.tout = s.tout) ∧
    (i ≠ .conv → i ≠ .encp → t.pbuf = s.pbuf) ∧ (i ≠ .conv → i ≠ .smvm → t.acc = s.acc)

/-- Host writes to WMEM are not seen by ENCP, TMVM, SMVM and CONV: with another WMEM they do the same (20_memory.md R84). -/
def Obligations.GridIsACacheOfWmem : Prop :=
  ∀ (i : Instr), i = .encp ∨ i = .tmvm ∨ i = .smvm ∨ i = .conv → ∀ (s t : State) (m : Memory 32),
    exec i s = .next t → exec i { s with wmem := m } = .next { t with wmem := m }

/-! ### Host access -/

/-- A host write to a word of WMEM, BMEM, IMEM or PBUF, outside FAULT, completes; that word then reads as the low bits of
its width, zero-extended, every other address reads as before, and every register and every other memory is unchanged
(20_memory.md R75, R82). -/
def Obligations.HostWriteThenReadReturnsIt : Prop :=
  ∀ (s : State) (sp : Space) (i : Nat) (d : HostData) (rest : List PortEvent), MemoriesOk s → s.caps.Legal →
    s.busy = false → s.state ≠ .fault → sp = .wmem ∨ sp = .bmem ∨ sp = .imem ∨ sp = .pbuf → i < s.spaceWords sp →
    s.port = .write (Script.wordAddr sp i) d :: rest →
    ∃ t, step s = .next t ∧
      hostRead t (Script.wordAddr sp i) = (if sp = .pbuf then d &&& 0xFFFF#64 else d &&& 0xFFFFFFFF#64) ∧
      (∀ a, a ≠ Script.wordAddr sp i → hostRead t a = hostRead s a) ∧
      t = { s with port := rest, wmem := t.wmem, bmem := t.bmem, imem := t.imem, pbuf := t.pbuf }

/-- A host write to a register that is not a layer register and not read-only stores the low bits of its width
(10_state.md R21, R26, R28, R36, R37). -/
def Obligations.HostWritesRegistersAtTheirWidth : Prop :=
  ∀ (s : State) (d : HostData) (rest : List PortEvent), s.busy = false → s.state ≠ .fault →
    (s.port = .write 0x04#32 d :: rest → step s = .next { s with port := rest, arg0 := d.setWidth 32 }) ∧
    (s.port = .write 0x06#32 d :: rest → step s = .next { s with port := rest, tileI := d.setWidth 32 }) ∧
    (s.port = .write 0x07#32 d :: rest → step s = .next { s with port := rest, tileJ := d.setWidth 32 }) ∧
    (s.port = .write 0x14#32 d :: rest → step s = .next { s with port := rest, inRows := d.setWidth 16 }) ∧
    (s.port = .write 0x15#32 d :: rest → step s = .next { s with port := rest, inCols := d.setWidth 16 }) ∧
    (s.port = .write 0x16#32 d :: rest → step s = .next { s with port := rest, posR := d.setWidth 32 }) ∧
    (s.port = .write 0x17#32 d :: rest → step s = .next { s with port := rest, posC := d.setWidth 32 })

/-- An unmapped space, a reserved register index or an index beyond its space reads 0; a host write to it, to a read-only
register or to a read-only space is discarded and records nothing (20_memory.md R73, R74; 10_state.md R41). -/
def Obligations.UnmappedAndReadOnlyDiscardWrites : Prop :=
  ∀ (s : State) (a : HostAddr),
    ((9 ≤ a.toNat / 2 ^ 28 ∨ a.toNat = 0x13 ∨ (0x1F ≤ a.toNat ∧ a.toNat < 2 ^ 28) ∨
        ∃ sp, sp ≠ .csr ∧ a.toNat / 2 ^ 28 = Script.spaceNumber sp ∧ s.spaceWords sp ≤ a.toNat % 2 ^ 28) →
      hostRead s a = 0 ∧
      ∀ d rest, s.port = .write a d :: rest → step s = .next { s with port := rest }) ∧
    ((a.toNat ∈ [0x00, 0x01, 0x02, 0x05, 0x18, 0x19, 0x1A, 0x1B, 0x1C, 0x1D, 0x1E] ∨
        a.toNat / 2 ^ 28 ∈ [4, 5, 7, 8]) →
      ∀ d rest, s.port = .write a d :: rest → step s = .next { s with port := rest })

/-- A read of STATUS: STATE in bits 1:0, BUSY in bit 2, QOVF in bit 4, ERR in bit 5 exactly when ERR_CODE is not 0, every
other bit 0 (10_state.md R22, R44). -/
def Obligations.StatusReadsItsFields : Prop :=
  ∀ s : State,
    (hostRead s 0).toNat =
      (match s.state with | .unbuilt => 0 | .built => 1 | .fault => 3) + (if s.busy then 4 else 0) +
      (if s.qovf then 16 else 0) + (if s.errCode = 0 then 0 else 32)

/-! ### The invariant -/

/-- The state after hardware reset meets the invariant (70_reset_and_hazards.md R271; log 5). -/
def Obligations.ResetMeetsTheInvariant : Prop := Inv State.reset

/-- Every step keeps the register invariant: legal codes, BUSY = 0 between steps, FAULT exactly with code 0x80, zero
geometry while UNBUILT, and while BUILT the layer and geometry that BUILD validated (10_state.md R42, 41_build.md R155). -/
def Obligations.StepKeepsTheRegisterInvariant : Prop :=
  ∀ s t : State, RegistersOk s → step s = .next t → RegistersOk t

/-- Every step keeps every memory in canonical form and inside its capacity (20_memory.md R81; log 4). -/
def Obligations.StepKeepsTheMemoryInvariant : Prop :=
  ∀ s t : State, RegistersOk s → MemoriesOk s → step s = .next t → MemoriesOk t

/-- Every step keeps the grid: while BUILT every coordinate holds the slices of one word, and padding holds 0
(41_build.md R153, R154). -/
def Obligations.StepKeepsTheGrid : Prop :=
  ∀ s t : State, Inv s → step s = .next t → GridOk t

/-- From every state that meets the register invariant a step completes: no command hangs, and no engine access leaves its
space (00_scope.md R12, 20_memory.md R81, 60_exceptions.md R251). -/
def Obligations.StepAlwaysCompletes : Prop :=
  ∀ s : State, RegistersOk s → ∃ t, step s = .next t

/-! ### The read map -/

/-- A host read of a register, BUSY = 0 and in every STATE, is that register zero-extended: each index of the register map from
0x01 to 0x1E but the reserved 0x13; CMD reads 0, TILE_DIM 128, and FMT as stored or with its reserved field 0. STATUS is in
`StatusReadsItsFields`, the reserved indices are in `UnmappedAndReadOnlyDiscardWrites` (10_state.md R21, R23 to R40). -/
def Obligations.RegistersReadAsTheMapSays : Prop :=
  ∀ s : State, s.busy = false →
    hostRead s 0x01#32 = s.errCode.setWidth 64 ∧ hostRead s 0x02#32 = s.errInfo ∧
    hostRead s 0x03#32 = 0 ∧ hostRead s 0x04#32 = s.arg0.setWidth 64 ∧
    hostRead s 0x05#32 = s.result.setWidth 64 ∧ hostRead s 0x06#32 = s.tileI.setWidth 64 ∧
    hostRead s 0x07#32 = s.tileJ.setWidth 64 ∧ hostRead s 0x08#32 = s.inCh.setWidth 64 ∧
    hostRead s 0x09#32 = s.outCh.setWidth 64 ∧ hostRead s 0x0A#32 = s.kRows.setWidth 64 ∧
    hostRead s 0x0B#32 = s.kCols.setWidth 64 ∧ hostRead s 0x0C#32 = s.stride.setWidth 64 ∧
    hostRead s 0x0D#32 = s.pad.setWidth 64 ∧ hostRead s 0x0E#32 = s.dil.setWidth 64 ∧
    hostRead s 0x0F#32 = s.groups.setWidth 64 ∧ hostRead s 0x10#32 = s.biasEn.setWidth 64 ∧
    hostRead s 0x11#32 = s.sliceW.setWidth 64 ∧
    (hostRead s 0x12#32 = s.fmt.setWidth 64 ∨ hostRead s 0x12#32 = (s.fmt &&& 0xF0F#12).setWidth 64) ∧
    hostRead s 0x14#32 = s.inRows.setWidth 64 ∧ hostRead s 0x15#32 = s.inCols.setWidth 64 ∧
    hostRead s 0x16#32 = s.posR.setWidth 64 ∧ hostRead s 0x17#32 = s.posC.setWidth 64 ∧
    hostRead s 0x18#32 = s.inFeat.setWidth 64 ∧ hostRead s 0x19#32 = s.rowTiles.setWidth 64 ∧
    hostRead s 0x1A#32 = s.colTiles.setWidth 64 ∧ hostRead s 0x1B#32 = s.nSlices.setWidth 64 ∧
    hostRead s 0x1C#32 = s.outRows.setWidth 64 ∧ hostRead s 0x1D#32 = s.outCols.setWidth 64 ∧
    hostRead s 0x1E#32 = 128

/-- A host read of a word inside a memory or a buffer, BUSY = 0 and in every STATE, is the word the engine reads and writes
there, zero-extended: spaces 1 to 8, OMEM, TSTORE, ACC and TOUT among them (20_memory.md R71, R72, R75). -/
def Obligations.MemoriesReadAsTheMapSays : Prop :=
  ∀ (s : State) (i : Nat), s.caps.Legal → s.busy = false →
    (i < s.caps.capW → hostRead s (BitVec.ofNat 32 (1 * 2 ^ 28 + i)) = (s.wmemAt i).setWidth 64) ∧
    (i < s.caps.capB → hostRead s (BitVec.ofNat 32 (2 * 2 ^ 28 + i)) = (s.bmemAt i).setWidth 64) ∧
    (i < s.caps.capI → hostRead s (BitVec.ofNat 32 (3 * 2 ^ 28 + i)) = (s.imemAt i).setWidth 64) ∧
    (i < s.caps.capO → hostRead s (BitVec.ofNat 32 (4 * 2 ^ 28 + i)) = s.omemAt i) ∧
    (i < s.caps.capX * 16384 → hostRead s (BitVec.ofNat 32 (5 * 2 ^ 28 + i)) = (s.tstoreAt i).setWidth 64) ∧
    (i < s.caps.capP → hostRead s (BitVec.ofNat 32 (6 * 2 ^ 28 + i)) = (s.pbufAt i).setWidth 64) ∧
    (i < s.caps.capA → hostRead s (BitVec.ofNat 32 (7 * 2 ^ 28 + i)) = s.accAt i) ∧
    (i < 128 → hostRead s (BitVec.ofNat 32 (8 * 2 ^ 28 + i)) = s.toutAt i)
end

