-- ==== Sys2Proof/Laws/Arith.lean ====
section
/-! SUPPORT. The machine's integer arithmetic is the spec's arithmetic over rationals and finite sums. -/

namespace Sys2Proof.Machine

theorem sumTo_eq_sum (f : Nat → Int) (n : Nat) : sumTo f n = ∑ k ∈ Finset.range n, f k := by
  induction n with
  | zero => rfl
  | succ n ih => rw [sumTo, ih, Finset.sum_range_succ]

theorem sumTo_congr {f g : Nat → Int} {n : Nat} (h : ∀ k < n, f k = g k) : sumTo f n = sumTo g n := by
  rw [sumTo_eq_sum, sumTo_eq_sum]
  exact Finset.sum_congr rfl fun k hk => h k (Finset.mem_range.mp hk)

/-- Division with remainder, and the three comparisons of `rne`, are those of the rational (00_scope.md R8). -/
theorem rne_eq_rational (a : Int) {d : Nat} (hd : 0 < d) : rne a d = Reference.rne ((a : ℚ) / d) := by
  have hd' : (0 : ℚ) < d := by exact_mod_cast hd
  have hf : ⌊(a : ℚ) / d⌋ = a / (d : Int) := by
    rw [Rat.floor_intCast_div_natCast]
  have hr : (a : ℚ) / d - (a / (d : Int) : Int) = (a % (d : Int) : Int) / d := by
    rw [eq_div_iff hd'.ne', sub_mul, div_mul_cancel₀ _ hd'.ne']
    have := Int.emod_add_mul_ediv a d
    have h2 : ((a % (d : Int) : Int) : ℚ) + d * ((a / (d : Int) : Int) : ℚ) = a := by exact_mod_cast this
    linarith
  have hgt : ((a % (d : Int) : Int) : ℚ) / d > 1 / 2 ↔ 2 * (a % (d : Int)) > d := by
    rw [gt_iff_lt, gt_iff_lt, div_lt_div_iff₀ (by norm_num) hd', one_mul, mul_comm _ (2 : ℚ)]
    exact_mod_cast Iff.rfl
  have hlt : ((a % (d : Int) : Int) : ℚ) / d < 1 / 2 ↔ 2 * (a % (d : Int)) < d := by
    rw [div_lt_div_iff₀ hd' (by norm_num), one_mul, mul_comm _ (2 : ℚ)]
    exact_mod_cast Iff.rfl
  simp only [rne, Reference.rne, hf, hr, hgt, hlt, Int.dvd_iff_emod_eq_zero]

theorem sat_eq_reference (N : Nat) (z : Int) : sat N z = Reference.sat N z := by
  simp [sat, Reference.sat]

/-- The quantizer on `a / 2^k` is the quantizer on the rational (40_quantize_slice.md R130). -/
theorem quantize_eq_reference (N F : Nat) (v : XR) : quantize N F v = Reference.quantize N F (Reference.denote v) := by
  cases v with
  | nan => simp [quantize, pat, Reference.quantize, Reference.denote]
  | posInf => simp [quantize, pat, Reference.quantize, Reference.denote]
  | negInf => simp [quantize, pat, Reference.quantize, Reference.denote]
  | dyadic a k =>
    have : rne (a * (2 ^ F : Nat)) (2 ^ k) = Reference.rne ((a : ℚ) / 2 ^ k * 2 ^ F) := by
      rw [rne_eq_rational _ (by positivity)]
      congr 1
      push_cast
      ring
    simp only [quantize, pat, Reference.quantize, Reference.denote, this, sat_eq_reference]

theorem sat_of_mem {N : Nat} {z : Int} (hl : -(2 ^ (N - 1) : Nat) ≤ z) (hu : z < (2 ^ (N - 1) : Nat)) : sat N z = z := by
  unfold sat
  omega

/-- A saturated integer is in the range of its word. -/
theorem sat_mem (N : Nat) (z : Int) : -(2 ^ (N - 1) : Nat) ≤ sat N z ∧ sat N z < (2 ^ (N - 1) : Nat) := by
  have : 0 < 2 ^ (N - 1) := by positivity
  unfold sat
  omega

/-- A pattern of an integer in range reads back as that integer. -/
theorem toInt_pat {N : Nat} (hN : 0 < N) {z : Int} (hl : -(2 ^ (N - 1) : Nat) ≤ z) (hu : z < (2 ^ (N - 1) : Nat)) :
    (pat N z).toInt = z := by
  unfold pat
  rw [BitVec.toInt_ofInt, Int.bmod_eq_of_le]
  all_goals
    obtain ⟨n, rfl⟩ : ∃ n, N = n + 1 := ⟨N - 1, by omega⟩
    simp only [Nat.add_sub_cancel, pow_succ] at *
    push_cast at *
    omega

end Sys2Proof.Machine
end

