-- ==== Sys2Proof/Laws/Memory.lean ====
section
/-! SUPPORT. The laws of the memories: what a read gives after each operation, and that every operation keeps the canonical form and the capacity. -/

namespace Sys2Proof.Machine

variable {w : Nat}

/-- The indices of a list of cells rise strictly. -/
abbrev Memory.Rising (l : List (Nat × BitVec w)) : Prop := l.Pairwise fun c d => c.1 < d.1

/-- What a list of cells below a mark says of an index: its listed word, else 0 below the mark. -/
def Memory.rawGet (n : Nat) (l : List (Nat × BitVec w)) (i : Nat) : Option (BitVec w) :=
  match Memory.lookup i l with
  | some v => some v
  | none => if i < n then some 0 else none

theorem Memory.get?_eq_rawGet (m : Memory w) (i : Nat) : m.get? i = Memory.rawGet m.filled m.cells i := rfl

@[simp] theorem Memory.lookup_nil (i : Nat) : Memory.lookup i ([] : List (Nat × BitVec w)) = none := rfl

theorem Memory.lookup_cons (i a : Nat) (v : BitVec w) (l : List (Nat × BitVec w)) :
    Memory.lookup i ((a, v) :: l) = if i = a then some v else Memory.lookup i l := rfl

theorem Memory.lookup_none_of_forall_ne {i : Nat} {l : List (Nat × BitVec w)} (h : ∀ c ∈ l, c.1 ≠ i) :
    Memory.lookup i l = none := by
  induction l with
  | nil => rfl
  | cons c l ih =>
    obtain ⟨a, v⟩ := c
    have ha : i ≠ a := fun e => h (a, v) (by simp) e.symm
    rw [Memory.lookup_cons, if_neg ha]
    exact ih fun c hc => h c (List.mem_cons_of_mem _ hc)

theorem Memory.mem_of_lookup {i : Nat} {v : BitVec w} {l : List (Nat × BitVec w)} (h : Memory.lookup i l = some v) :
    (i, v) ∈ l := by
  induction l with
  | nil => simp at h
  | cons c l ih =>
    obtain ⟨a, u⟩ := c
    rw [Memory.lookup_cons] at h
    split at h
    · next e => cases e; simp_all
    · exact List.mem_cons_of_mem _ (ih h)

theorem Memory.lookup_of_mem {i : Nat} {v : BitVec w} {l : List (Nat × BitVec w)} (hr : Memory.Rising l)
    (h : (i, v) ∈ l) : Memory.lookup i l = some v := by
  induction l with
  | nil => simp at h
  | cons c l ih =>
    obtain ⟨a, u⟩ := c
    rw [Memory.lookup_cons]
    obtain ⟨hlt, hrest⟩ := List.pairwise_cons.mp hr
    rcases List.mem_cons.mp h with e | hm
    · cases e; simp
    · have := hlt _ hm
      rw [if_neg (by simp only at this; omega)]
      exact ih hrest hm

theorem Memory.lookup_append (i : Nat) (l l' : List (Nat × BitVec w)) :
    Memory.lookup i (l ++ l') = (Memory.lookup i l).or (Memory.lookup i l') := by
  induction l with
  | nil => simp
  | cons c l ih =>
    obtain ⟨a, v⟩ := c
    rw [List.cons_append, Memory.lookup_cons, Memory.lookup_cons, ih]
    split <;> simp

/-! ### `put` -/

theorem Memory.lookup_put (i j : Nat) (v : BitVec w) {l : List (Nat × BitVec w)} (hr : Memory.Rising l) :
    Memory.lookup j (Memory.put i v l) = if j = i then some v else Memory.lookup j l := by
  induction l with
  | nil => simp [Memory.put, Memory.lookup_cons]
  | cons c l ih =>
    obtain ⟨a, u⟩ := c
    obtain ⟨hlt, hrest⟩ := List.pairwise_cons.mp hr
    unfold Memory.put
    split
    · simp [Memory.lookup_cons]
    · split
      · next h => subst h; simp only [Memory.lookup_cons]; split <;> simp_all
      · simp only [Memory.lookup_cons, ih hrest]
        split <;> split <;> simp_all

theorem Memory.mem_put {i : Nat} {v : BitVec w} {l : List (Nat × BitVec w)} {c : Nat × BitVec w}
    (h : c ∈ Memory.put i v l) : c = (i, v) ∨ c ∈ l := by
  induction l with
  | nil => simpa [Memory.put] using h
  | cons d l ih =>
    obtain ⟨a, u⟩ := d
    unfold Memory.put at h
    split at h
    · simpa using h
    · split at h
      · rcases List.mem_cons.mp h with e | e
        · exact .inl e
        · exact .inr (List.mem_cons_of_mem _ e)
      · rcases List.mem_cons.mp h with e | e
        · exact .inr (by simp [e])
        · exact (ih e).imp id (List.mem_cons_of_mem _)

theorem Memory.rising_put (i : Nat) (v : BitVec w) {l : List (Nat × BitVec w)} (hr : Memory.Rising l) :
    Memory.Rising (Memory.put i v l) := by
  induction l with
  | nil => simp [Memory.put]
  | cons c l ih =>
    obtain ⟨a, u⟩ := c
    obtain ⟨hlt, hrest⟩ := List.pairwise_cons.mp hr
    unfold Memory.put
    split
    · next h =>
      refine List.pairwise_cons.mpr ⟨fun d hd => ?_, hr⟩
      rcases List.mem_cons.mp hd with e | e
      · simpa [e] using h
      · exact lt_trans h (hlt d e)
    · split
      · next h => exact List.pairwise_cons.mpr ⟨fun d hd => h ▸ hlt d hd, hrest⟩
      · refine List.pairwise_cons.mpr ⟨fun d hd => ?_, ih hrest⟩
        rcases Memory.mem_put hd with e | e
        · simp only [e]; omega
        · exact hlt d e

/-! ### `settle` -/

/-- Settling moves the mark and drops zero words; what a read gives does not change. -/
theorem Memory.get?_settle (n i : Nat) {l : List (Nat × BitVec w)} (hr : Memory.Rising l) :
    (Memory.settle n l).get? i = Memory.rawGet n l i := by
  induction l generalizing n with
  | nil => rfl
  | cons c l ih =>
    obtain ⟨a, v⟩ := c
    obtain ⟨hlt, hrest⟩ := List.pairwise_cons.mp hr
    unfold Memory.settle
    split
    · rfl
    · next h =>
      have hi := ih (max n (a + 1)) hrest
      rw [Memory.get?_eq_rawGet] at hi ⊢
      simp only [Memory.rawGet, Memory.lookup_cons] at hi ⊢
      by_cases e : i = a
      · subst e
        have hn : Memory.lookup i l = none := Memory.lookup_none_of_forall_ne fun c hc => by have := hlt c hc; omega
        rw [hn] at hi
        by_cases hv : v = 0
        · simp only [hv, if_true]
          rw [hi]
          simp
        · simp only [if_neg hv, Memory.lookup_cons, if_true]
      · have hmax : (i < max n (a + 1)) = (i < n) := by simp only [eq_iff_iff]; omega
        simp only [hmax] at hi
        by_cases hv : v = 0
        · simpa only [if_pos hv, if_neg e] using hi
        · simpa only [if_neg hv, if_neg e, Memory.lookup_cons] using hi

/-- Listed indices and the mark after settling come from before. -/
theorem Memory.mem_settle {n : Nat} {l : List (Nat × BitVec w)} {c : Nat × BitVec w}
    (h : c ∈ (Memory.settle n l).cells) : c ∈ l := by
  induction l generalizing n with
  | nil => simp [Memory.settle] at h
  | cons d l ih =>
    obtain ⟨a, v⟩ := d
    unfold Memory.settle at h
    split at h
    · exact h
    · simp only at h
      split at h
      · exact List.mem_cons_of_mem _ (ih h)
      · rcases List.mem_cons.mp h with e | e
        · simp [e]
        · exact List.mem_cons_of_mem _ (ih e)

theorem Memory.le_filled_settle (n : Nat) (l : List (Nat × BitVec w)) : n ≤ (Memory.settle n l).filled := by
  induction l generalizing n with
  | nil => exact le_rfl
  | cons d l ih =>
    obtain ⟨a, v⟩ := d
    unfold Memory.settle
    split
    · exact le_rfl
    · exact le_trans (le_max_left _ _) (ih _)

theorem Memory.filled_settle_le {n cap : Nat} {l : List (Nat × BitVec w)} (hn : n ≤ cap) (hl : ∀ c ∈ l, c.1 < cap) :
    (Memory.settle n l).filled ≤ cap := by
  induction l generalizing n with
  | nil => exact hn
  | cons d l ih =>
    obtain ⟨a, v⟩ := d
    unfold Memory.settle
    split
    · exact hn
    · have := hl (a, v) (by simp)
      exact ih (by simp only at this; omega) fun c hc => hl c (List.mem_cons_of_mem _ hc)

/-- A settled memory is in canonical form. -/
theorem Memory.wf_settle (n : Nat) {l : List (Nat × BitVec w)} (hr : Memory.Rising l) : (Memory.settle n l).wf := by
  induction l generalizing n with
  | nil => exact ⟨List.Pairwise.nil, by simp [Memory.settle]⟩
  | cons d l ih =>
    obtain ⟨a, v⟩ := d
    obtain ⟨hlt, hrest⟩ := List.pairwise_cons.mp hr
    unfold Memory.settle
    split
    · next h =>
      refine ⟨hr, fun c hc => ?_⟩
      have hac : n < c.1 := by
        rcases List.mem_cons.mp hc with e | e
        · simpa [e] using h
        · exact lt_trans h (hlt c e)
      exact ⟨fun hcn => absurd hac (by simp only at hcn; omega), by simp only; omega⟩
    · obtain ⟨hp, hz⟩ := ih (max n (a + 1)) hrest
      have hfill := Memory.le_filled_settle (max n (a + 1)) l
      simp only
      by_cases hv : v = 0
      · rw [if_pos hv]
        exact ⟨hp, hz⟩
      · rw [if_neg hv]
        refine ⟨List.pairwise_cons.mpr ⟨fun c hc => hlt c (Memory.mem_settle hc), hp⟩, fun c hc => ?_⟩
        rcases List.mem_cons.mp hc with e | e
        · subst e
          exact ⟨fun _ => hv, by simp only; omega⟩
        · exact hz c e

theorem Memory.within_settle {n cap : Nat} {l : List (Nat × BitVec w)} (hn : n ≤ cap) (hl : ∀ c ∈ l, c.1 < cap) :
    (Memory.settle n l).within cap :=
  ⟨Memory.filled_settle_le hn hl, fun c hc => hl c (Memory.mem_settle hc)⟩

/-! ### `write` -/

/-- Read after write: the written word at its index, every other word as before. -/
theorem Memory.get?_write {m : Memory w} (hm : m.wf) (i j : Nat) (v : BitVec w) :
    (m.write i v).get? j = if j = i then some v else m.get? j := by
  rw [Memory.write, Memory.get?_settle _ _ (Memory.rising_put i v hm.1), Memory.get?_eq_rawGet]
  simp only [Memory.rawGet, Memory.lookup_put i j v hm.1]
  by_cases h : j = i <;> simp [h]

theorem Memory.wf_write {m : Memory w} (hm : m.wf) (i : Nat) (v : BitVec w) : (m.write i v).wf :=
  Memory.wf_settle _ (Memory.rising_put i v hm.1)

theorem Memory.within_write {m : Memory w} {cap i : Nat} (hm : m.within cap) (hi : i < cap) (v : BitVec w) :
    (m.write i v).within cap :=
  Memory.within_settle hm.1 fun c hc => by
    rcases Memory.mem_put hc with e | e
    · simpa [e] using hi
    · exact hm.2 c e

/-! ### `overwrite` and `store` -/

theorem Memory.mem_kept {m : Memory w} {n : Nat} {c : Nat × BitVec w} (hr : Memory.Rising m.cells) :
    c ∈ (m.cells.dropWhile fun c => decide (c.1 < n)) ↔ c ∈ m.cells ∧ n ≤ c.1 := by
  generalize m.cells = l at hr
  induction l with
  | nil => simp
  | cons d l ih =>
    obtain ⟨hlt, hrest⟩ := List.pairwise_cons.mp hr
    rw [List.dropWhile_cons]
    by_cases hd : d.1 < n
    · simp only [hd, decide_true, if_true, ih hrest, List.mem_cons]
      constructor
      · exact fun h => ⟨.inr h.1, h.2⟩
      · rintro ⟨e | e, h⟩
        · subst e; omega
        · exact ⟨e, h⟩
    · simp only [hd, decide_false, Bool.false_eq_true, if_false, List.mem_cons]
      constructor
      · intro h
        refine ⟨h, ?_⟩
        rcases h with e | e
        · subst e; omega
        · have := hlt c e; omega
      · exact fun h => h.1

theorem Memory.rising_overwritten {m : Memory w} (hm : m.wf) {n : Nat} {es : List (Nat × BitVec w)}
    (he : Memory.Rising es) (hn : ∀ c ∈ es, c.1 < n) :
    Memory.Rising (es ++ m.cells.dropWhile fun c => decide (c.1 < n)) := by
  refine List.pairwise_append.mpr ⟨he, hm.1.sublist (List.dropWhile_sublist _), fun c hc d hd => ?_⟩
  exact lt_of_lt_of_le (hn c hc) ((Memory.mem_kept hm.1).mp hd).2

/-- A read after an overwrite of the words 0 to `n - 1`: the listed words, 0 in between, every word from `n` on as before. -/
theorem Memory.get?_overwrite {m : Memory w} (hm : m.wf) {n : Nat} {es : List (Nat × BitVec w)}
    (he : Memory.Rising es) (hn : ∀ c ∈ es, c.1 < n) (j : Nat) :
    (m.overwrite n es).get? j = if j < n then some ((Memory.lookup j es).getD 0) else m.get? j := by
  rw [Memory.overwrite, Memory.get?_settle _ _ (Memory.rising_overwritten hm he hn)]
  simp only [Memory.rawGet, Memory.lookup_append]
  by_cases hj : j < n
  · have hk : Memory.lookup j (m.cells.dropWhile fun c => decide (c.1 < n)) = none :=
      Memory.lookup_none_of_forall_ne fun c hc => by have := ((Memory.mem_kept hm.1).mp hc).2; omega
    rw [hk]
    cases hl : Memory.lookup j es <;> simp [hj]
  · have hl : Memory.lookup j es = none :=
      Memory.lookup_none_of_forall_ne fun c hc => by have := hn c hc; omega
    have hk : Memory.lookup j (m.cells.dropWhile fun c => decide (c.1 < n)) = Memory.lookup j m.cells := by
      cases hc : Memory.lookup j m.cells with
      | none =>
        exact Memory.lookup_none_of_forall_ne fun c hc' e => by
          obtain ⟨a, v⟩ := c
          simp only at e
          subst e
          have := Memory.lookup_of_mem hm.1 ((Memory.mem_kept hm.1).mp hc').1
          rw [hc] at this
          cases this
      | some v =>
        exact Memory.lookup_of_mem (hm.1.sublist (List.dropWhile_sublist _))
          ((Memory.mem_kept hm.1).mpr ⟨Memory.mem_of_lookup hc, by simpa using hj⟩)
    rw [hl, hk, Memory.get?_eq_rawGet]
    simp only [Memory.rawGet, Option.none_or, if_neg hj]
    have hmax : (j < max n m.filled) = (j < m.filled) := by simp only [eq_iff_iff]; omega
    simp only [hmax]

theorem Memory.wf_overwrite {m : Memory w} (hm : m.wf) {n : Nat} {es : List (Nat × BitVec w)}
    (he : Memory.Rising es) (hn : ∀ c ∈ es, c.1 < n) : (m.overwrite n es).wf :=
  Memory.wf_settle _ (Memory.rising_overwritten hm he hn)

theorem Memory.within_overwrite {m : Memory w} {cap n : Nat} (hm : m.wf) (hw : m.within cap)
    {es : List (Nat × BitVec w)} (hn : ∀ c ∈ es, c.1 < n) (hc : n ≤ cap) : (m.overwrite n es).within cap := by
  refine Memory.within_settle (max_le hc hw.1) fun c hm' => ?_
  rcases List.mem_append.mp hm' with e | e
  · have := hn c e; omega
  · exact hw.2 c ((Memory.mem_kept hm.1).mp e).1

theorem Memory.mem_indexed {a : Nat} {l : List (BitVec w)} {c : Nat × BitVec w} (h : c ∈ Memory.indexed a l) :
    a ≤ c.1 ∧ c.1 < a + l.length := by
  induction l generalizing a with
  | nil => simp [Memory.indexed] at h
  | cons v l ih =>
    rcases List.mem_cons.mp h with e | e
    · subst e; simp
    · have := ih e
      simp only [List.length_cons]; omega

theorem Memory.rising_indexed (a : Nat) (l : List (BitVec w)) : Memory.Rising (Memory.indexed a l) := by
  induction l generalizing a with
  | nil => exact List.Pairwise.nil
  | cons v l ih =>
    refine List.pairwise_cons.mpr ⟨fun c hc => ?_, ih _⟩
    have := (Memory.mem_indexed hc).1
    simp only; omega

theorem Memory.lookup_indexed (a i : Nat) (l : List (BitVec w)) :
    Memory.lookup i (Memory.indexed a l) = if i < a then none else l[i - a]? := by
  induction l generalizing a with
  | nil => simp [Memory.indexed]
  | cons v l ih =>
    rw [Memory.indexed, Memory.lookup_cons, ih]
    by_cases e : i = a
    · simp [e]
    · by_cases h : i < a
      · simp [e, h, Nat.lt_succ_of_lt h]
      · have h1 : ¬ i < a + 1 := by omega
        have h2 : i - a = (i - (a + 1)) + 1 := by omega
        rw [if_neg e, if_neg h1, if_neg h, h2, List.getElem?_cons_succ]

/-- A read after a vector is stored from word 0 on. -/
theorem Memory.get?_store {m : Memory w} (hm : m.wf) (ws : List (BitVec w)) (j : Nat) :
    (m.store ws).get? j = if h : j < ws.length then some ws[j] else m.get? j := by
  rw [Memory.store, Memory.get?_overwrite hm (Memory.rising_indexed 0 ws) fun c hc => by
    simpa using (Memory.mem_indexed hc).2]
  by_cases h : j < ws.length
  · simp [h, Memory.lookup_indexed]
  · simp [h]

theorem Memory.wf_store {m : Memory w} (hm : m.wf) (ws : List (BitVec w)) : (m.store ws).wf :=
  Memory.wf_overwrite hm (Memory.rising_indexed 0 ws) fun c hc => by simpa using (Memory.mem_indexed hc).2

theorem Memory.within_store {m : Memory w} {cap : Nat} (hm : m.wf) (hw : m.within cap) {ws : List (BitVec w)}
    (hc : ws.length ≤ cap) : (m.store ws).within cap :=
  Memory.within_overwrite hm hw (fun c h => by simpa using (Memory.mem_indexed h).2) hc

/-! ### The canonical form is one per contents -/

theorem Memory.wf_empty (w : Nat) : (Memory.empty w).wf := by simp [Memory.wf]

theorem Memory.within_empty (w cap : Nat) : (Memory.empty w).within cap := by simp [Memory.within]

theorem Memory.get?_filled_none {m : Memory w} (hm : m.wf) : m.get? m.filled = none := by
  rw [Memory.get?_eq_rawGet, Memory.rawGet, Memory.lookup_none_of_forall_ne fun c hc => (hm.2 c hc).2]
  simp

theorem Memory.filled_le_of_get?_eq {m m' : Memory w} (hm' : m'.wf) (h : ∀ i, m.get? i = m'.get? i) :
    m.filled ≤ m'.filled := by
  by_contra hlt
  have h1 := h m'.filled
  rw [Memory.get?_filled_none hm', Memory.get?_eq_rawGet, Memory.rawGet] at h1
  split at h1
  · cases h1
  · rw [if_pos (by omega)] at h1
    cases h1

theorem Memory.mem_cells_iff {m : Memory w} (hm : m.wf) (c : Nat × BitVec w) :
    c ∈ m.cells ↔ m.get? c.1 = some c.2 ∧ (c.1 < m.filled → c.2 ≠ 0) := by
  obtain ⟨i, v⟩ := c
  rw [Memory.get?_eq_rawGet, Memory.rawGet]
  constructor
  · intro h
    exact ⟨by simp [Memory.lookup_of_mem hm.1 h], (hm.2 _ h).1⟩
  · rintro ⟨h, hz⟩
    simp only at h hz
    split at h
    · next u hu => cases h; exact Memory.mem_of_lookup hu
    · split at h
      · next hi => cases h; exact absurd rfl (hz hi)
      · cases h

/-- Two memories in canonical form with the same contents are the same data. -/
theorem Memory.ext_of_wf {m m' : Memory w} (hm : m.wf) (hm' : m'.wf) (h : ∀ i, m.get? i = m'.get? i) : m = m' := by
  have hf : m.filled = m'.filled :=
    le_antisymm (Memory.filled_le_of_get?_eq hm' h) (Memory.filled_le_of_get?_eq hm fun i => (h i).symm)
  have hmem : ∀ c, c ∈ m.cells ↔ c ∈ m'.cells := fun c => by
    rw [Memory.mem_cells_iff hm, Memory.mem_cells_iff hm', h, hf]
  have hnd : ∀ {l : List (Nat × BitVec w)}, Memory.Rising l → l.Nodup := fun hl =>
    hl.imp fun hlt e => by subst e; exact absurd hlt (lt_irrefl _)
  have hperm := (List.perm_ext_iff_of_nodup (hnd hm.1) (hnd hm'.1)).mpr hmem
  have hcells : m.cells = m'.cells :=
    hperm.eq_of_pairwise (fun a b _ _ hab hba => absurd (lt_trans hab hba) (lt_irrefl _)) hm.1 hm'.1
  cases m; cases m'
  simp_all

end Sys2Proof.Machine
end

