-- ==== Sys2Proof/Laws/Slice.lean ====
section
/-! SUPPORT. The slicer in plain numbers (40_quantize_slice.md R135, 42_tile_mvm.md R165). -/

namespace Sys2Proof.Machine

/-- The slices reach the top of the word, and the top slice starts inside it. -/
theorem sliceCount_bounds {s : Nat} (h1 : 1 ≤ s) (h16 : s ≤ 16) :
    16 ≤ s * sliceCount s ∧ s * (sliceCount s - 1) < 16 ∧ 1 ≤ sliceCount s ∧ sliceCount s ≤ 16 := by
  interval_cases s <;> decide

/-- `Slice(u, s, k) = floor(uval(u) / 2^(s*k)) mod 2^s`, for every `k` (40_quantize_slice.md R135). -/
theorem slice_eq_div_mod (u : Fx16) (s k : Nat) : slice u s k = u.toNat / 2 ^ (s * k) % 2 ^ s := by
  have hu : u.toNat < 2 ^ 16 := u.isLt
  simp only [slice, BitVec.extractLsb'_toNat, Nat.shiftRight_eq_div_pow, wordWidth]
  rcases Nat.le_total (s * k + s) 16 with h | h
  · rw [Nat.min_eq_right h, Nat.add_sub_cancel_left]
  · rw [Nat.min_eq_left h]
    have hlt : u.toNat / 2 ^ (s * k) < 2 ^ (16 - s * k) := by
      rcases Nat.le_total (s * k) 16 with hk | hk
      · rw [Nat.div_lt_iff_lt_mul (by positivity), ← pow_add]
        rwa [Nat.sub_add_cancel hk]
      · rw [Nat.sub_eq_zero_of_le hk, Nat.div_eq_of_lt (hu.trans_le (Nat.pow_le_pow_right (by norm_num) hk))]
        norm_num
    have hlt' : u.toNat / 2 ^ (s * k) < 2 ^ s := hlt.trans_le (Nat.pow_le_pow_right (by norm_num) (by omega))
    rw [Nat.mod_eq_of_lt hlt, Nat.mod_eq_of_lt hlt']

theorem slice_lt (u : Fx16) (s k : Nat) : slice u s k < 2 ^ s := by
  rw [slice_eq_div_mod]
  exact Nat.mod_lt _ (by positivity)

theorem slice_zero (s k : Nat) : slice 0 s k = 0 := by
  simp [slice_eq_div_mod]

/-- A slice fits the 16 bits of a cell. -/
theorem toNat_ofNat_slice {u : Fx16} {s k : Nat} (h : s ≤ 16) : (BitVec.ofNat 16 (slice u s k)).toNat = slice u s k := by
  rw [BitVec.toNat_ofNat, Nat.mod_eq_of_lt]
  exact (slice_lt u s k).trans_le (Nat.pow_le_pow_right (by norm_num) h)

/-- The low `n` slices recombine to the low `s * n` bits. -/
theorem sum_slices_mod (u : Fx16) (s n : Nat) :
    ∑ k ∈ Finset.range n, slice u s k * 2 ^ (s * k) = u.toNat % 2 ^ (s * n) := by
  induction n with
  | zero => simp [Nat.mod_one]
  | succ n ih =>
    rw [Finset.sum_range_succ, ih, slice_eq_div_mod, Nat.mul_succ, pow_add, Nat.mod_mul, mul_comm (2 ^ (s * n))]

end Sys2Proof.Machine
end

