-- ==== Sys2Proof/Laws/State.lean ====
section
/-! SUPPORT. One lemma per field for every named update of the state: what the update leaves in the field. -/

namespace Sys2Proof.Machine

/-! ### `noteOverflow` -/

@[simp] theorem noteOverflow_state (ovf : Bool) (s : State) : (noteOverflow ovf s).state = s.state := rfl
@[simp] theorem noteOverflow_busy (ovf : Bool) (s : State) : (noteOverflow ovf s).busy = s.busy := rfl
@[simp] theorem noteOverflow_qovf (ovf : Bool) (s : State) : (noteOverflow ovf s).qovf = (s.qovf || ovf) := rfl
@[simp] theorem noteOverflow_errCode (ovf : Bool) (s : State) : (noteOverflow ovf s).errCode = s.errCode := rfl
@[simp] theorem noteOverflow_errInfo (ovf : Bool) (s : State) : (noteOverflow ovf s).errInfo = s.errInfo := rfl
@[simp] theorem noteOverflow_arg0 (ovf : Bool) (s : State) : (noteOverflow ovf s).arg0 = s.arg0 := rfl
@[simp] theorem noteOverflow_result (ovf : Bool) (s : State) : (noteOverflow ovf s).result = s.result := rfl
@[simp] theorem noteOverflow_tileI (ovf : Bool) (s : State) : (noteOverflow ovf s).tileI = s.tileI := rfl
@[simp] theorem noteOverflow_tileJ (ovf : Bool) (s : State) : (noteOverflow ovf s).tileJ = s.tileJ := rfl
@[simp] theorem noteOverflow_inCh (ovf : Bool) (s : State) : (noteOverflow ovf s).inCh = s.inCh := rfl
@[simp] theorem noteOverflow_outCh (ovf : Bool) (s : State) : (noteOverflow ovf s).outCh = s.outCh := rfl
@[simp] theorem noteOverflow_kRows (ovf : Bool) (s : State) : (noteOverflow ovf s).kRows = s.kRows := rfl
@[simp] theorem noteOverflow_kCols (ovf : Bool) (s : State) : (noteOverflow ovf s).kCols = s.kCols := rfl
@[simp] theorem noteOverflow_stride (ovf : Bool) (s : State) : (noteOverflow ovf s).stride = s.stride := rfl
@[simp] theorem noteOverflow_pad (ovf : Bool) (s : State) : (noteOverflow ovf s).pad = s.pad := rfl
@[simp] theorem noteOverflow_dil (ovf : Bool) (s : State) : (noteOverflow ovf s).dil = s.dil := rfl
@[simp] theorem noteOverflow_groups (ovf : Bool) (s : State) : (noteOverflow ovf s).groups = s.groups := rfl
@[simp] theorem noteOverflow_biasEn (ovf : Bool) (s : State) : (noteOverflow ovf s).biasEn = s.biasEn := rfl
@[simp] theorem noteOverflow_sliceW (ovf : Bool) (s : State) : (noteOverflow ovf s).sliceW = s.sliceW := rfl
@[simp] theorem noteOverflow_fmt (ovf : Bool) (s : State) : (noteOverflow ovf s).fmt = s.fmt := rfl
@[simp] theorem noteOverflow_inRows (ovf : Bool) (s : State) : (noteOverflow ovf s).inRows = s.inRows := rfl
@[simp] theorem noteOverflow_inCols (ovf : Bool) (s : State) : (noteOverflow ovf s).inCols = s.inCols := rfl
@[simp] theorem noteOverflow_posR (ovf : Bool) (s : State) : (noteOverflow ovf s).posR = s.posR := rfl
@[simp] theorem noteOverflow_posC (ovf : Bool) (s : State) : (noteOverflow ovf s).posC = s.posC := rfl
@[simp] theorem noteOverflow_inFeat (ovf : Bool) (s : State) : (noteOverflow ovf s).inFeat = s.inFeat := rfl
@[simp] theorem noteOverflow_rowTiles (ovf : Bool) (s : State) : (noteOverflow ovf s).rowTiles = s.rowTiles := rfl
@[simp] theorem noteOverflow_colTiles (ovf : Bool) (s : State) : (noteOverflow ovf s).colTiles = s.colTiles := rfl
@[simp] theorem noteOverflow_nSlices (ovf : Bool) (s : State) : (noteOverflow ovf s).nSlices = s.nSlices := rfl
@[simp] theorem noteOverflow_outRows (ovf : Bool) (s : State) : (noteOverflow ovf s).outRows = s.outRows := rfl
@[simp] theorem noteOverflow_outCols (ovf : Bool) (s : State) : (noteOverflow ovf s).outCols = s.outCols := rfl
@[simp] theorem noteOverflow_wmem (ovf : Bool) (s : State) : (noteOverflow ovf s).wmem = s.wmem := rfl
@[simp] theorem noteOverflow_bmem (ovf : Bool) (s : State) : (noteOverflow ovf s).bmem = s.bmem := rfl
@[simp] theorem noteOverflow_imem (ovf : Bool) (s : State) : (noteOverflow ovf s).imem = s.imem := rfl
@[simp] theorem noteOverflow_omem (ovf : Bool) (s : State) : (noteOverflow ovf s).omem = s.omem := rfl
@[simp] theorem noteOverflow_tstore (ovf : Bool) (s : State) : (noteOverflow ovf s).tstore = s.tstore := rfl
@[simp] theorem noteOverflow_pbuf (ovf : Bool) (s : State) : (noteOverflow ovf s).pbuf = s.pbuf := rfl
@[simp] theorem noteOverflow_acc (ovf : Bool) (s : State) : (noteOverflow ovf s).acc = s.acc := rfl
@[simp] theorem noteOverflow_tout (ovf : Bool) (s : State) : (noteOverflow ovf s).tout = s.tout := rfl
@[simp] theorem noteOverflow_caps (ovf : Bool) (s : State) : (noteOverflow ovf s).caps = s.caps := rfl
@[simp] theorem noteOverflow_port (ovf : Bool) (s : State) : (noteOverflow ovf s).port = s.port := rfl
@[simp] theorem noteOverflow_readLog (ovf : Bool) (s : State) : (noteOverflow ovf s).readLog = s.readLog := rfl
@[simp] theorem noteOverflow_powerOns (ovf : Bool) (s : State) : (noteOverflow ovf s).powerOns = s.powerOns := rfl

/-! ### `raiseError` -/

@[simp] theorem raiseError_state (e : ErrorCode) (info : BitVec 64) (s : State) : (raiseError e info s).state = s.state := rfl
@[simp] theorem raiseError_busy (e : ErrorCode) (info : BitVec 64) (s : State) : (raiseError e info s).busy = s.busy := rfl
@[simp] theorem raiseError_qovf (e : ErrorCode) (info : BitVec 64) (s : State) : (raiseError e info s).qovf = s.qovf := rfl
@[simp] theorem raiseError_errCode (e : ErrorCode) (info : BitVec 64) (s : State) : (raiseError e info s).errCode = (if s.errCode = 0 then e.code else s.errCode) := rfl
@[simp] theorem raiseError_errInfo (e : ErrorCode) (info : BitVec 64) (s : State) : (raiseError e info s).errInfo = (if s.errCode = 0 then info else s.errInfo) := rfl
@[simp] theorem raiseError_arg0 (e : ErrorCode) (info : BitVec 64) (s : State) : (raiseError e info s).arg0 = s.arg0 := rfl
@[simp] theorem raiseError_result (e : ErrorCode) (info : BitVec 64) (s : State) : (raiseError e info s).result = s.result := rfl
@[simp] theorem raiseError_tileI (e : ErrorCode) (info : BitVec 64) (s : State) : (raiseError e info s).tileI = s.tileI := rfl
@[simp] theorem raiseError_tileJ (e : ErrorCode) (info : BitVec 64) (s : State) : (raiseError e info s).tileJ = s.tileJ := rfl
@[simp] theorem raiseError_inCh (e : ErrorCode) (info : BitVec 64) (s : State) : (raiseError e info s).inCh = s.inCh := rfl
@[simp] theorem raiseError_outCh (e : ErrorCode) (info : BitVec 64) (s : State) : (raiseError e info s).outCh = s.outCh := rfl
@[simp] theorem raiseError_kRows (e : ErrorCode) (info : BitVec 64) (s : State) : (raiseError e info s).kRows = s.kRows := rfl
@[simp] theorem raiseError_kCols (e : ErrorCode) (info : BitVec 64) (s : State) : (raiseError e info s).kCols = s.kCols := rfl
@[simp] theorem raiseError_stride (e : ErrorCode) (info : BitVec 64) (s : State) : (raiseError e info s).stride = s.stride := rfl
@[simp] theorem raiseError_pad (e : ErrorCode) (info : BitVec 64) (s : State) : (raiseError e info s).pad = s.pad := rfl
@[simp] theorem raiseError_dil (e : ErrorCode) (info : BitVec 64) (s : State) : (raiseError e info s).dil = s.dil := rfl
@[simp] theorem raiseError_groups (e : ErrorCode) (info : BitVec 64) (s : State) : (raiseError e info s).groups = s.groups := rfl
@[simp] theorem raiseError_biasEn (e : ErrorCode) (info : BitVec 64) (s : State) : (raiseError e info s).biasEn = s.biasEn := rfl
@[simp] theorem raiseError_sliceW (e : ErrorCode) (info : BitVec 64) (s : State) : (raiseError e info s).sliceW = s.sliceW := rfl
@[simp] theorem raiseError_fmt (e : ErrorCode) (info : BitVec 64) (s : State) : (raiseError e info s).fmt = s.fmt := rfl
@[simp] theorem raiseError_inRows (e : ErrorCode) (info : BitVec 64) (s : State) : (raiseError e info s).inRows = s.inRows := rfl
@[simp] theorem raiseError_inCols (e : ErrorCode) (info : BitVec 64) (s : State) : (raiseError e info s).inCols = s.inCols := rfl
@[simp] theorem raiseError_posR (e : ErrorCode) (info : BitVec 64) (s : State) : (raiseError e info s).posR = s.posR := rfl
@[simp] theorem raiseError_posC (e : ErrorCode) (info : BitVec 64) (s : State) : (raiseError e info s).posC = s.posC := rfl
@[simp] theorem raiseError_inFeat (e : ErrorCode) (info : BitVec 64) (s : State) : (raiseError e info s).inFeat = s.inFeat := rfl
@[simp] theorem raiseError_rowTiles (e : ErrorCode) (info : BitVec 64) (s : State) : (raiseError e info s).rowTiles = s.rowTiles := rfl
@[simp] theorem raiseError_colTiles (e : ErrorCode) (info : BitVec 64) (s : State) : (raiseError e info s).colTiles = s.colTiles := rfl
@[simp] theorem raiseError_nSlices (e : ErrorCode) (info : BitVec 64) (s : State) : (raiseError e info s).nSlices = s.nSlices := rfl
@[simp] theorem raiseError_outRows (e : ErrorCode) (info : BitVec 64) (s : State) : (raiseError e info s).outRows = s.outRows := rfl
@[simp] theorem raiseError_outCols (e : ErrorCode) (info : BitVec 64) (s : State) : (raiseError e info s).outCols = s.outCols := rfl
@[simp] theorem raiseError_wmem (e : ErrorCode) (info : BitVec 64) (s : State) : (raiseError e info s).wmem = s.wmem := rfl
@[simp] theorem raiseError_bmem (e : ErrorCode) (info : BitVec 64) (s : State) : (raiseError e info s).bmem = s.bmem := rfl
@[simp] theorem raiseError_imem (e : ErrorCode) (info : BitVec 64) (s : State) : (raiseError e info s).imem = s.imem := rfl
@[simp] theorem raiseError_omem (e : ErrorCode) (info : BitVec 64) (s : State) : (raiseError e info s).omem = s.omem := rfl
@[simp] theorem raiseError_tstore (e : ErrorCode) (info : BitVec 64) (s : State) : (raiseError e info s).tstore = s.tstore := rfl
@[simp] theorem raiseError_pbuf (e : ErrorCode) (info : BitVec 64) (s : State) : (raiseError e info s).pbuf = s.pbuf := rfl
@[simp] theorem raiseError_acc (e : ErrorCode) (info : BitVec 64) (s : State) : (raiseError e info s).acc = s.acc := rfl
@[simp] theorem raiseError_tout (e : ErrorCode) (info : BitVec 64) (s : State) : (raiseError e info s).tout = s.tout := rfl
@[simp] theorem raiseError_caps (e : ErrorCode) (info : BitVec 64) (s : State) : (raiseError e info s).caps = s.caps := rfl
@[simp] theorem raiseError_port (e : ErrorCode) (info : BitVec 64) (s : State) : (raiseError e info s).port = s.port := rfl
@[simp] theorem raiseError_readLog (e : ErrorCode) (info : BitVec 64) (s : State) : (raiseError e info s).readLog = s.readLog := rfl
@[simp] theorem raiseError_powerOns (e : ErrorCode) (info : BitVec 64) (s : State) : (raiseError e info s).powerOns = s.powerOns := rfl

/-! ### `raiseFatal` -/

@[simp] theorem raiseFatal_state (info : BitVec 64) (s : State) : (raiseFatal info s).state = .fault := rfl
@[simp] theorem raiseFatal_busy (info : BitVec 64) (s : State) : (raiseFatal info s).busy = s.busy := rfl
@[simp] theorem raiseFatal_qovf (info : BitVec 64) (s : State) : (raiseFatal info s).qovf = s.qovf := rfl
@[simp] theorem raiseFatal_errCode (info : BitVec 64) (s : State) : (raiseFatal info s).errCode = ErrorCode.tileBoundary.code := rfl
@[simp] theorem raiseFatal_errInfo (info : BitVec 64) (s : State) : (raiseFatal info s).errInfo = info := rfl
@[simp] theorem raiseFatal_arg0 (info : BitVec 64) (s : State) : (raiseFatal info s).arg0 = s.arg0 := rfl
@[simp] theorem raiseFatal_result (info : BitVec 64) (s : State) : (raiseFatal info s).result = s.result := rfl
@[simp] theorem raiseFatal_tileI (info : BitVec 64) (s : State) : (raiseFatal info s).tileI = s.tileI := rfl
@[simp] theorem raiseFatal_tileJ (info : BitVec 64) (s : State) : (raiseFatal info s).tileJ = s.tileJ := rfl
@[simp] theorem raiseFatal_inCh (info : BitVec 64) (s : State) : (raiseFatal info s).inCh = s.inCh := rfl
@[simp] theorem raiseFatal_outCh (info : BitVec 64) (s : State) : (raiseFatal info s).outCh = s.outCh := rfl
@[simp] theorem raiseFatal_kRows (info : BitVec 64) (s : State) : (raiseFatal info s).kRows = s.kRows := rfl
@[simp] theorem raiseFatal_kCols (info : BitVec 64) (s : State) : (raiseFatal info s).kCols = s.kCols := rfl
@[simp] theorem raiseFatal_stride (info : BitVec 64) (s : State) : (raiseFatal info s).stride = s.stride := rfl
@[simp] theorem raiseFatal_pad (info : BitVec 64) (s : State) : (raiseFatal info s).pad = s.pad := rfl
@[simp] theorem raiseFatal_dil (info : BitVec 64) (s : State) : (raiseFatal info s).dil = s.dil := rfl
@[simp] theorem raiseFatal_groups (info : BitVec 64) (s : State) : (raiseFatal info s).groups = s.groups := rfl
@[simp] theorem raiseFatal_biasEn (info : BitVec 64) (s : State) : (raiseFatal info s).biasEn = s.biasEn := rfl
@[simp] theorem raiseFatal_sliceW (info : BitVec 64) (s : State) : (raiseFatal info s).sliceW = s.sliceW := rfl
@[simp] theorem raiseFatal_fmt (info : BitVec 64) (s : State) : (raiseFatal info s).fmt = s.fmt := rfl
@[simp] theorem raiseFatal_inRows (info : BitVec 64) (s : State) : (raiseFatal info s).inRows = s.inRows := rfl
@[simp] theorem raiseFatal_inCols (info : BitVec 64) (s : State) : (raiseFatal info s).inCols = s.inCols := rfl
@[simp] theorem raiseFatal_posR (info : BitVec 64) (s : State) : (raiseFatal info s).posR = s.posR := rfl
@[simp] theorem raiseFatal_posC (info : BitVec 64) (s : State) : (raiseFatal info s).posC = s.posC := rfl
@[simp] theorem raiseFatal_inFeat (info : BitVec 64) (s : State) : (raiseFatal info s).inFeat = s.inFeat := rfl
@[simp] theorem raiseFatal_rowTiles (info : BitVec 64) (s : State) : (raiseFatal info s).rowTiles = s.rowTiles := rfl
@[simp] theorem raiseFatal_colTiles (info : BitVec 64) (s : State) : (raiseFatal info s).colTiles = s.colTiles := rfl
@[simp] theorem raiseFatal_nSlices (info : BitVec 64) (s : State) : (raiseFatal info s).nSlices = s.nSlices := rfl
@[simp] theorem raiseFatal_outRows (info : BitVec 64) (s : State) : (raiseFatal info s).outRows = s.outRows := rfl
@[simp] theorem raiseFatal_outCols (info : BitVec 64) (s : State) : (raiseFatal info s).outCols = s.outCols := rfl
@[simp] theorem raiseFatal_wmem (info : BitVec 64) (s : State) : (raiseFatal info s).wmem = s.wmem := rfl
@[simp] theorem raiseFatal_bmem (info : BitVec 64) (s : State) : (raiseFatal info s).bmem = s.bmem := rfl
@[simp] theorem raiseFatal_imem (info : BitVec 64) (s : State) : (raiseFatal info s).imem = s.imem := rfl
@[simp] theorem raiseFatal_omem (info : BitVec 64) (s : State) : (raiseFatal info s).omem = s.omem := rfl
@[simp] theorem raiseFatal_tstore (info : BitVec 64) (s : State) : (raiseFatal info s).tstore = s.tstore := rfl
@[simp] theorem raiseFatal_pbuf (info : BitVec 64) (s : State) : (raiseFatal info s).pbuf = s.pbuf := rfl
@[simp] theorem raiseFatal_acc (info : BitVec 64) (s : State) : (raiseFatal info s).acc = s.acc := rfl
@[simp] theorem raiseFatal_tout (info : BitVec 64) (s : State) : (raiseFatal info s).tout = s.tout := rfl
@[simp] theorem raiseFatal_caps (info : BitVec 64) (s : State) : (raiseFatal info s).caps = s.caps := rfl
@[simp] theorem raiseFatal_port (info : BitVec 64) (s : State) : (raiseFatal info s).port = s.port := rfl
@[simp] theorem raiseFatal_readLog (info : BitVec 64) (s : State) : (raiseFatal info s).readLog = s.readLog := rfl
@[simp] theorem raiseFatal_powerOns (info : BitVec 64) (s : State) : (raiseFatal info s).powerOns = s.powerOns := rfl

/-! ### `clearRecord` -/

@[simp] theorem clearRecord_state (s : State) : (clearRecord s).state = s.state := rfl
@[simp] theorem clearRecord_busy (s : State) : (clearRecord s).busy = s.busy := rfl
@[simp] theorem clearRecord_qovf (s : State) : (clearRecord s).qovf = false := rfl
@[simp] theorem clearRecord_errCode (s : State) : (clearRecord s).errCode = 0 := rfl
@[simp] theorem clearRecord_errInfo (s : State) : (clearRecord s).errInfo = 0 := rfl
@[simp] theorem clearRecord_arg0 (s : State) : (clearRecord s).arg0 = s.arg0 := rfl
@[simp] theorem clearRecord_result (s : State) : (clearRecord s).result = s.result := rfl
@[simp] theorem clearRecord_tileI (s : State) : (clearRecord s).tileI = s.tileI := rfl
@[simp] theorem clearRecord_tileJ (s : State) : (clearRecord s).tileJ = s.tileJ := rfl
@[simp] theorem clearRecord_inCh (s : State) : (clearRecord s).inCh = s.inCh := rfl
@[simp] theorem clearRecord_outCh (s : State) : (clearRecord s).outCh = s.outCh := rfl
@[simp] theorem clearRecord_kRows (s : State) : (clearRecord s).kRows = s.kRows := rfl
@[simp] theorem clearRecord_kCols (s : State) : (clearRecord s).kCols = s.kCols := rfl
@[simp] theorem clearRecord_stride (s : State) : (clearRecord s).stride = s.stride := rfl
@[simp] theorem clearRecord_pad (s : State) : (clearRecord s).pad = s.pad := rfl
@[simp] theorem clearRecord_dil (s : State) : (clearRecord s).dil = s.dil := rfl
@[simp] theorem clearRecord_groups (s : State) : (clearRecord s).groups = s.groups := rfl
@[simp] theorem clearRecord_biasEn (s : State) : (clearRecord s).biasEn = s.biasEn := rfl
@[simp] theorem clearRecord_sliceW (s : State) : (clearRecord s).sliceW = s.sliceW := rfl
@[simp] theorem clearRecord_fmt (s : State) : (clearRecord s).fmt = s.fmt := rfl
@[simp] theorem clearRecord_inRows (s : State) : (clearRecord s).inRows = s.inRows := rfl
@[simp] theorem clearRecord_inCols (s : State) : (clearRecord s).inCols = s.inCols := rfl
@[simp] theorem clearRecord_posR (s : State) : (clearRecord s).posR = s.posR := rfl
@[simp] theorem clearRecord_posC (s : State) : (clearRecord s).posC = s.posC := rfl
@[simp] theorem clearRecord_inFeat (s : State) : (clearRecord s).inFeat = s.inFeat := rfl
@[simp] theorem clearRecord_rowTiles (s : State) : (clearRecord s).rowTiles = s.rowTiles := rfl
@[simp] theorem clearRecord_colTiles (s : State) : (clearRecord s).colTiles = s.colTiles := rfl
@[simp] theorem clearRecord_nSlices (s : State) : (clearRecord s).nSlices = s.nSlices := rfl
@[simp] theorem clearRecord_outRows (s : State) : (clearRecord s).outRows = s.outRows := rfl
@[simp] theorem clearRecord_outCols (s : State) : (clearRecord s).outCols = s.outCols := rfl
@[simp] theorem clearRecord_wmem (s : State) : (clearRecord s).wmem = s.wmem := rfl
@[simp] theorem clearRecord_bmem (s : State) : (clearRecord s).bmem = s.bmem := rfl
@[simp] theorem clearRecord_imem (s : State) : (clearRecord s).imem = s.imem := rfl
@[simp] theorem clearRecord_omem (s : State) : (clearRecord s).omem = s.omem := rfl
@[simp] theorem clearRecord_tstore (s : State) : (clearRecord s).tstore = s.tstore := rfl
@[simp] theorem clearRecord_pbuf (s : State) : (clearRecord s).pbuf = s.pbuf := rfl
@[simp] theorem clearRecord_acc (s : State) : (clearRecord s).acc = s.acc := rfl
@[simp] theorem clearRecord_tout (s : State) : (clearRecord s).tout = s.tout := rfl
@[simp] theorem clearRecord_caps (s : State) : (clearRecord s).caps = s.caps := rfl
@[simp] theorem clearRecord_port (s : State) : (clearRecord s).port = s.port := rfl
@[simp] theorem clearRecord_readLog (s : State) : (clearRecord s).readLog = s.readLog := rfl
@[simp] theorem clearRecord_powerOns (s : State) : (clearRecord s).powerOns = s.powerOns := rfl

/-! ### `publishOutDims` -/

@[simp] theorem publishOutDims_state (s : State) : (publishOutDims s).state = s.state := rfl
@[simp] theorem publishOutDims_busy (s : State) : (publishOutDims s).busy = s.busy := rfl
@[simp] theorem publishOutDims_qovf (s : State) : (publishOutDims s).qovf = s.qovf := rfl
@[simp] theorem publishOutDims_errCode (s : State) : (publishOutDims s).errCode = s.errCode := rfl
@[simp] theorem publishOutDims_errInfo (s : State) : (publishOutDims s).errInfo = s.errInfo := rfl
@[simp] theorem publishOutDims_arg0 (s : State) : (publishOutDims s).arg0 = s.arg0 := rfl
@[simp] theorem publishOutDims_result (s : State) : (publishOutDims s).result = s.result := rfl
@[simp] theorem publishOutDims_tileI (s : State) : (publishOutDims s).tileI = s.tileI := rfl
@[simp] theorem publishOutDims_tileJ (s : State) : (publishOutDims s).tileJ = s.tileJ := rfl
@[simp] theorem publishOutDims_inCh (s : State) : (publishOutDims s).inCh = s.inCh := rfl
@[simp] theorem publishOutDims_outCh (s : State) : (publishOutDims s).outCh = s.outCh := rfl
@[simp] theorem publishOutDims_kRows (s : State) : (publishOutDims s).kRows = s.kRows := rfl
@[simp] theorem publishOutDims_kCols (s : State) : (publishOutDims s).kCols = s.kCols := rfl
@[simp] theorem publishOutDims_stride (s : State) : (publishOutDims s).stride = s.stride := rfl
@[simp] theorem publishOutDims_pad (s : State) : (publishOutDims s).pad = s.pad := rfl
@[simp] theorem publishOutDims_dil (s : State) : (publishOutDims s).dil = s.dil := rfl
@[simp] theorem publishOutDims_groups (s : State) : (publishOutDims s).groups = s.groups := rfl
@[simp] theorem publishOutDims_biasEn (s : State) : (publishOutDims s).biasEn = s.biasEn := rfl
@[simp] theorem publishOutDims_sliceW (s : State) : (publishOutDims s).sliceW = s.sliceW := rfl
@[simp] theorem publishOutDims_fmt (s : State) : (publishOutDims s).fmt = s.fmt := rfl
@[simp] theorem publishOutDims_inRows (s : State) : (publishOutDims s).inRows = s.inRows := rfl
@[simp] theorem publishOutDims_inCols (s : State) : (publishOutDims s).inCols = s.inCols := rfl
@[simp] theorem publishOutDims_posR (s : State) : (publishOutDims s).posR = s.posR := rfl
@[simp] theorem publishOutDims_posC (s : State) : (publishOutDims s).posC = s.posC := rfl
@[simp] theorem publishOutDims_inFeat (s : State) : (publishOutDims s).inFeat = s.inFeat := rfl
@[simp] theorem publishOutDims_rowTiles (s : State) : (publishOutDims s).rowTiles = s.rowTiles := rfl
@[simp] theorem publishOutDims_colTiles (s : State) : (publishOutDims s).colTiles = s.colTiles := rfl
@[simp] theorem publishOutDims_nSlices (s : State) : (publishOutDims s).nSlices = s.nSlices := rfl
@[simp] theorem publishOutDims_outRows (s : State) : (publishOutDims s).outRows = (BitVec.ofNat 32 s.callOutRows) := rfl
@[simp] theorem publishOutDims_outCols (s : State) : (publishOutDims s).outCols = (BitVec.ofNat 32 s.callOutCols) := rfl
@[simp] theorem publishOutDims_wmem (s : State) : (publishOutDims s).wmem = s.wmem := rfl
@[simp] theorem publishOutDims_bmem (s : State) : (publishOutDims s).bmem = s.bmem := rfl
@[simp] theorem publishOutDims_imem (s : State) : (publishOutDims s).imem = s.imem := rfl
@[simp] theorem publishOutDims_omem (s : State) : (publishOutDims s).omem = s.omem := rfl
@[simp] theorem publishOutDims_tstore (s : State) : (publishOutDims s).tstore = s.tstore := rfl
@[simp] theorem publishOutDims_pbuf (s : State) : (publishOutDims s).pbuf = s.pbuf := rfl
@[simp] theorem publishOutDims_acc (s : State) : (publishOutDims s).acc = s.acc := rfl
@[simp] theorem publishOutDims_tout (s : State) : (publishOutDims s).tout = s.tout := rfl
@[simp] theorem publishOutDims_caps (s : State) : (publishOutDims s).caps = s.caps := rfl
@[simp] theorem publishOutDims_port (s : State) : (publishOutDims s).port = s.port := rfl
@[simp] theorem publishOutDims_readLog (s : State) : (publishOutDims s).readLog = s.readLog := rfl
@[simp] theorem publishOutDims_powerOns (s : State) : (publishOutDims s).powerOns = s.powerOns := rfl

/-! ### `accumulate` -/

@[simp] theorem accumulate_state (s : State) : (accumulate s).state = s.state := rfl
@[simp] theorem accumulate_busy (s : State) : (accumulate s).busy = s.busy := rfl
@[simp] theorem accumulate_qovf (s : State) : (accumulate s).qovf = s.qovf := rfl
@[simp] theorem accumulate_errCode (s : State) : (accumulate s).errCode = s.errCode := rfl
@[simp] theorem accumulate_errInfo (s : State) : (accumulate s).errInfo = s.errInfo := rfl
@[simp] theorem accumulate_arg0 (s : State) : (accumulate s).arg0 = s.arg0 := rfl
@[simp] theorem accumulate_result (s : State) : (accumulate s).result = s.result := rfl
@[simp] theorem accumulate_tileI (s : State) : (accumulate s).tileI = s.tileI := rfl
@[simp] theorem accumulate_tileJ (s : State) : (accumulate s).tileJ = s.tileJ := rfl
@[simp] theorem accumulate_inCh (s : State) : (accumulate s).inCh = s.inCh := rfl
@[simp] theorem accumulate_outCh (s : State) : (accumulate s).outCh = s.outCh := rfl
@[simp] theorem accumulate_kRows (s : State) : (accumulate s).kRows = s.kRows := rfl
@[simp] theorem accumulate_kCols (s : State) : (accumulate s).kCols = s.kCols := rfl
@[simp] theorem accumulate_stride (s : State) : (accumulate s).stride = s.stride := rfl
@[simp] theorem accumulate_pad (s : State) : (accumulate s).pad = s.pad := rfl
@[simp] theorem accumulate_dil (s : State) : (accumulate s).dil = s.dil := rfl
@[simp] theorem accumulate_groups (s : State) : (accumulate s).groups = s.groups := rfl
@[simp] theorem accumulate_biasEn (s : State) : (accumulate s).biasEn = s.biasEn := rfl
@[simp] theorem accumulate_sliceW (s : State) : (accumulate s).sliceW = s.sliceW := rfl
@[simp] theorem accumulate_fmt (s : State) : (accumulate s).fmt = s.fmt := rfl
@[simp] theorem accumulate_inRows (s : State) : (accumulate s).inRows = s.inRows := rfl
@[simp] theorem accumulate_inCols (s : State) : (accumulate s).inCols = s.inCols := rfl
@[simp] theorem accumulate_posR (s : State) : (accumulate s).posR = s.posR := rfl
@[simp] theorem accumulate_posC (s : State) : (accumulate s).posC = s.posC := rfl
@[simp] theorem accumulate_inFeat (s : State) : (accumulate s).inFeat = s.inFeat := rfl
@[simp] theorem accumulate_rowTiles (s : State) : (accumulate s).rowTiles = s.rowTiles := rfl
@[simp] theorem accumulate_colTiles (s : State) : (accumulate s).colTiles = s.colTiles := rfl
@[simp] theorem accumulate_nSlices (s : State) : (accumulate s).nSlices = s.nSlices := rfl
@[simp] theorem accumulate_outRows (s : State) : (accumulate s).outRows = s.outRows := rfl
@[simp] theorem accumulate_outCols (s : State) : (accumulate s).outCols = s.outCols := rfl
@[simp] theorem accumulate_wmem (s : State) : (accumulate s).wmem = s.wmem := rfl
@[simp] theorem accumulate_bmem (s : State) : (accumulate s).bmem = s.bmem := rfl
@[simp] theorem accumulate_imem (s : State) : (accumulate s).imem = s.imem := rfl
@[simp] theorem accumulate_omem (s : State) : (accumulate s).omem = s.omem := rfl
@[simp] theorem accumulate_tstore (s : State) : (accumulate s).tstore = s.tstore := rfl
@[simp] theorem accumulate_pbuf (s : State) : (accumulate s).pbuf = s.pbuf := rfl
@[simp] theorem accumulate_acc (s : State) : (accumulate s).acc = (s.acc.store (schedOutputs s)) := rfl
@[simp] theorem accumulate_tout (s : State) : (accumulate s).tout = s.tout := rfl
@[simp] theorem accumulate_caps (s : State) : (accumulate s).caps = s.caps := rfl
@[simp] theorem accumulate_port (s : State) : (accumulate s).port = s.port := rfl
@[simp] theorem accumulate_readLog (s : State) : (accumulate s).readLog = s.readLog := rfl
@[simp] theorem accumulate_powerOns (s : State) : (accumulate s).powerOns = s.powerOns := rfl

/-! ### `encodePatch` -/

@[simp] theorem encodePatch_state (r c : Nat) (s : State) : (encodePatch r c s).state = s.state := rfl
@[simp] theorem encodePatch_busy (r c : Nat) (s : State) : (encodePatch r c s).busy = s.busy := rfl
@[simp] theorem encodePatch_qovf (r c : Nat) (s : State) : (encodePatch r c s).qovf = (s.qovf || (List.range s.inFeatures).any fun f => (s.encodedElem r c f).2) := rfl
@[simp] theorem encodePatch_errCode (r c : Nat) (s : State) : (encodePatch r c s).errCode = s.errCode := rfl
@[simp] theorem encodePatch_errInfo (r c : Nat) (s : State) : (encodePatch r c s).errInfo = s.errInfo := rfl
@[simp] theorem encodePatch_arg0 (r c : Nat) (s : State) : (encodePatch r c s).arg0 = s.arg0 := rfl
@[simp] theorem encodePatch_result (r c : Nat) (s : State) : (encodePatch r c s).result = s.result := rfl
@[simp] theorem encodePatch_tileI (r c : Nat) (s : State) : (encodePatch r c s).tileI = s.tileI := rfl
@[simp] theorem encodePatch_tileJ (r c : Nat) (s : State) : (encodePatch r c s).tileJ = s.tileJ := rfl
@[simp] theorem encodePatch_inCh (r c : Nat) (s : State) : (encodePatch r c s).inCh = s.inCh := rfl
@[simp] theorem encodePatch_outCh (r c : Nat) (s : State) : (encodePatch r c s).outCh = s.outCh := rfl
@[simp] theorem encodePatch_kRows (r c : Nat) (s : State) : (encodePatch r c s).kRows = s.kRows := rfl
@[simp] theorem encodePatch_kCols (r c : Nat) (s : State) : (encodePatch r c s).kCols = s.kCols := rfl
@[simp] theorem encodePatch_stride (r c : Nat) (s : State) : (encodePatch r c s).stride = s.stride := rfl
@[simp] theorem encodePatch_pad (r c : Nat) (s : State) : (encodePatch r c s).pad = s.pad := rfl
@[simp] theorem encodePatch_dil (r c : Nat) (s : State) : (encodePatch r c s).dil = s.dil := rfl
@[simp] theorem encodePatch_groups (r c : Nat) (s : State) : (encodePatch r c s).groups = s.groups := rfl
@[simp] theorem encodePatch_biasEn (r c : Nat) (s : State) : (encodePatch r c s).biasEn = s.biasEn := rfl
@[simp] theorem encodePatch_sliceW (r c : Nat) (s : State) : (encodePatch r c s).sliceW = s.sliceW := rfl
@[simp] theorem encodePatch_fmt (r c : Nat) (s : State) : (encodePatch r c s).fmt = s.fmt := rfl
@[simp] theorem encodePatch_inRows (r c : Nat) (s : State) : (encodePatch r c s).inRows = s.inRows := rfl
@[simp] theorem encodePatch_inCols (r c : Nat) (s : State) : (encodePatch r c s).inCols = s.inCols := rfl
@[simp] theorem encodePatch_posR (r c : Nat) (s : State) : (encodePatch r c s).posR = s.posR := rfl
@[simp] theorem encodePatch_posC (r c : Nat) (s : State) : (encodePatch r c s).posC = s.posC := rfl
@[simp] theorem encodePatch_inFeat (r c : Nat) (s : State) : (encodePatch r c s).inFeat = s.inFeat := rfl
@[simp] theorem encodePatch_rowTiles (r c : Nat) (s : State) : (encodePatch r c s).rowTiles = s.rowTiles := rfl
@[simp] theorem encodePatch_colTiles (r c : Nat) (s : State) : (encodePatch r c s).colTiles = s.colTiles := rfl
@[simp] theorem encodePatch_nSlices (r c : Nat) (s : State) : (encodePatch r c s).nSlices = s.nSlices := rfl
@[simp] theorem encodePatch_outRows (r c : Nat) (s : State) : (encodePatch r c s).outRows = s.outRows := rfl
@[simp] theorem encodePatch_outCols (r c : Nat) (s : State) : (encodePatch r c s).outCols = s.outCols := rfl
@[simp] theorem encodePatch_wmem (r c : Nat) (s : State) : (encodePatch r c s).wmem = s.wmem := rfl
@[simp] theorem encodePatch_bmem (r c : Nat) (s : State) : (encodePatch r c s).bmem = s.bmem := rfl
@[simp] theorem encodePatch_imem (r c : Nat) (s : State) : (encodePatch r c s).imem = s.imem := rfl
@[simp] theorem encodePatch_omem (r c : Nat) (s : State) : (encodePatch r c s).omem = s.omem := rfl
@[simp] theorem encodePatch_tstore (r c : Nat) (s : State) : (encodePatch r c s).tstore = s.tstore := rfl
@[simp] theorem encodePatch_pbuf (r c : Nat) (s : State) : (encodePatch r c s).pbuf = (s.pbuf.store ((List.range s.inFeatures).map fun f => (s.encodedElem r c f).1)) := rfl
@[simp] theorem encodePatch_acc (r c : Nat) (s : State) : (encodePatch r c s).acc = s.acc := rfl
@[simp] theorem encodePatch_tout (r c : Nat) (s : State) : (encodePatch r c s).tout = s.tout := rfl
@[simp] theorem encodePatch_caps (r c : Nat) (s : State) : (encodePatch r c s).caps = s.caps := rfl
@[simp] theorem encodePatch_port (r c : Nat) (s : State) : (encodePatch r c s).port = s.port := rfl
@[simp] theorem encodePatch_readLog (r c : Nat) (s : State) : (encodePatch r c s).readLog = s.readLog := rfl
@[simp] theorem encodePatch_powerOns (r c : Nat) (s : State) : (encodePatch r c s).powerOns = s.powerOns := rfl

/-! ### `writeOutput` -/

@[simp] theorem writeOutput_state (rows cols r c : Nat) (s : State) (o : Nat) : (writeOutput rows cols r c s o).state = s.state := rfl
@[simp] theorem writeOutput_busy (rows cols r c : Nat) (s : State) (o : Nat) : (writeOutput rows cols r c s o).busy = s.busy := rfl
@[simp] theorem writeOutput_qovf (rows cols r c : Nat) (s : State) (o : Nat) : (writeOutput rows cols r c s o).qovf = s.qovf := rfl
@[simp] theorem writeOutput_errCode (rows cols r c : Nat) (s : State) (o : Nat) : (writeOutput rows cols r c s o).errCode = s.errCode := rfl
@[simp] theorem writeOutput_errInfo (rows cols r c : Nat) (s : State) (o : Nat) : (writeOutput rows cols r c s o).errInfo = s.errInfo := rfl
@[simp] theorem writeOutput_arg0 (rows cols r c : Nat) (s : State) (o : Nat) : (writeOutput rows cols r c s o).arg0 = s.arg0 := rfl
@[simp] theorem writeOutput_result (rows cols r c : Nat) (s : State) (o : Nat) : (writeOutput rows cols r c s o).result = s.result := rfl
@[simp] theorem writeOutput_tileI (rows cols r c : Nat) (s : State) (o : Nat) : (writeOutput rows cols r c s o).tileI = s.tileI := rfl
@[simp] theorem writeOutput_tileJ (rows cols r c : Nat) (s : State) (o : Nat) : (writeOutput rows cols r c s o).tileJ = s.tileJ := rfl
@[simp] theorem writeOutput_inCh (rows cols r c : Nat) (s : State) (o : Nat) : (writeOutput rows cols r c s o).inCh = s.inCh := rfl
@[simp] theorem writeOutput_outCh (rows cols r c : Nat) (s : State) (o : Nat) : (writeOutput rows cols r c s o).outCh = s.outCh := rfl
@[simp] theorem writeOutput_kRows (rows cols r c : Nat) (s : State) (o : Nat) : (writeOutput rows cols r c s o).kRows = s.kRows := rfl
@[simp] theorem writeOutput_kCols (rows cols r c : Nat) (s : State) (o : Nat) : (writeOutput rows cols r c s o).kCols = s.kCols := rfl
@[simp] theorem writeOutput_stride (rows cols r c : Nat) (s : State) (o : Nat) : (writeOutput rows cols r c s o).stride = s.stride := rfl
@[simp] theorem writeOutput_pad (rows cols r c : Nat) (s : State) (o : Nat) : (writeOutput rows cols r c s o).pad = s.pad := rfl
@[simp] theorem writeOutput_dil (rows cols r c : Nat) (s : State) (o : Nat) : (writeOutput rows cols r c s o).dil = s.dil := rfl
@[simp] theorem writeOutput_groups (rows cols r c : Nat) (s : State) (o : Nat) : (writeOutput rows cols r c s o).groups = s.groups := rfl
@[simp] theorem writeOutput_biasEn (rows cols r c : Nat) (s : State) (o : Nat) : (writeOutput rows cols r c s o).biasEn = s.biasEn := rfl
@[simp] theorem writeOutput_sliceW (rows cols r c : Nat) (s : State) (o : Nat) : (writeOutput rows cols r c s o).sliceW = s.sliceW := rfl
@[simp] theorem writeOutput_fmt (rows cols r c : Nat) (s : State) (o : Nat) : (writeOutput rows cols r c s o).fmt = s.fmt := rfl
@[simp] theorem writeOutput_inRows (rows cols r c : Nat) (s : State) (o : Nat) : (writeOutput rows cols r c s o).inRows = s.inRows := rfl
@[simp] theorem writeOutput_inCols (rows cols r c : Nat) (s : State) (o : Nat) : (writeOutput rows cols r c s o).inCols = s.inCols := rfl
@[simp] theorem writeOutput_posR (rows cols r c : Nat) (s : State) (o : Nat) : (writeOutput rows cols r c s o).posR = s.posR := rfl
@[simp] theorem writeOutput_posC (rows cols r c : Nat) (s : State) (o : Nat) : (writeOutput rows cols r c s o).posC = s.posC := rfl
@[simp] theorem writeOutput_inFeat (rows cols r c : Nat) (s : State) (o : Nat) : (writeOutput rows cols r c s o).inFeat = s.inFeat := rfl
@[simp] theorem writeOutput_rowTiles (rows cols r c : Nat) (s : State) (o : Nat) : (writeOutput rows cols r c s o).rowTiles = s.rowTiles := rfl
@[simp] theorem writeOutput_colTiles (rows cols r c : Nat) (s : State) (o : Nat) : (writeOutput rows cols r c s o).colTiles = s.colTiles := rfl
@[simp] theorem writeOutput_nSlices (rows cols r c : Nat) (s : State) (o : Nat) : (writeOutput rows cols r c s o).nSlices = s.nSlices := rfl
@[simp] theorem writeOutput_outRows (rows cols r c : Nat) (s : State) (o : Nat) : (writeOutput rows cols r c s o).outRows = s.outRows := rfl
@[simp] theorem writeOutput_outCols (rows cols r c : Nat) (s : State) (o : Nat) : (writeOutput rows cols r c s o).outCols = s.outCols := rfl
@[simp] theorem writeOutput_wmem (rows cols r c : Nat) (s : State) (o : Nat) : (writeOutput rows cols r c s o).wmem = s.wmem := rfl
@[simp] theorem writeOutput_bmem (rows cols r c : Nat) (s : State) (o : Nat) : (writeOutput rows cols r c s o).bmem = s.bmem := rfl
@[simp] theorem writeOutput_imem (rows cols r c : Nat) (s : State) (o : Nat) : (writeOutput rows cols r c s o).imem = s.imem := rfl
@[simp] theorem writeOutput_omem (rows cols r c : Nat) (s : State) (o : Nat) : (writeOutput rows cols r c s o).omem = s.omem.write (omemIndex rows cols o r c) (s.accAt o) := rfl
@[simp] theorem writeOutput_tstore (rows cols r c : Nat) (s : State) (o : Nat) : (writeOutput rows cols r c s o).tstore = s.tstore := rfl
@[simp] theorem writeOutput_pbuf (rows cols r c : Nat) (s : State) (o : Nat) : (writeOutput rows cols r c s o).pbuf = s.pbuf := rfl
@[simp] theorem writeOutput_acc (rows cols r c : Nat) (s : State) (o : Nat) : (writeOutput rows cols r c s o).acc = s.acc := rfl
@[simp] theorem writeOutput_tout (rows cols r c : Nat) (s : State) (o : Nat) : (writeOutput rows cols r c s o).tout = s.tout := rfl
@[simp] theorem writeOutput_caps (rows cols r c : Nat) (s : State) (o : Nat) : (writeOutput rows cols r c s o).caps = s.caps := rfl
@[simp] theorem writeOutput_port (rows cols r c : Nat) (s : State) (o : Nat) : (writeOutput rows cols r c s o).port = s.port := rfl
@[simp] theorem writeOutput_readLog (rows cols r c : Nat) (s : State) (o : Nat) : (writeOutput rows cols r c s o).readLog = s.readLog := rfl
@[simp] theorem writeOutput_powerOns (rows cols r c : Nat) (s : State) (o : Nat) : (writeOutput rows cols r c s o).powerOns = s.powerOns := rfl

/-! ### `addBias` -/

@[simp] theorem addBias_state (rows cols o : Nat) (bq : FxAcc) (s : State) (p : Nat × Nat) : (addBias rows cols o bq s p).state = s.state := rfl
@[simp] theorem addBias_busy (rows cols o : Nat) (bq : FxAcc) (s : State) (p : Nat × Nat) : (addBias rows cols o bq s p).busy = s.busy := rfl
@[simp] theorem addBias_errCode (rows cols o : Nat) (bq : FxAcc) (s : State) (p : Nat × Nat) : (addBias rows cols o bq s p).errCode = s.errCode := rfl
@[simp] theorem addBias_errInfo (rows cols o : Nat) (bq : FxAcc) (s : State) (p : Nat × Nat) : (addBias rows cols o bq s p).errInfo = s.errInfo := rfl
@[simp] theorem addBias_arg0 (rows cols o : Nat) (bq : FxAcc) (s : State) (p : Nat × Nat) : (addBias rows cols o bq s p).arg0 = s.arg0 := rfl
@[simp] theorem addBias_result (rows cols o : Nat) (bq : FxAcc) (s : State) (p : Nat × Nat) : (addBias rows cols o bq s p).result = s.result := rfl
@[simp] theorem addBias_tileI (rows cols o : Nat) (bq : FxAcc) (s : State) (p : Nat × Nat) : (addBias rows cols o bq s p).tileI = s.tileI := rfl
@[simp] theorem addBias_tileJ (rows cols o : Nat) (bq : FxAcc) (s : State) (p : Nat × Nat) : (addBias rows cols o bq s p).tileJ = s.tileJ := rfl
@[simp] theorem addBias_inCh (rows cols o : Nat) (bq : FxAcc) (s : State) (p : Nat × Nat) : (addBias rows cols o bq s p).inCh = s.inCh := rfl
@[simp] theorem addBias_outCh (rows cols o : Nat) (bq : FxAcc) (s : State) (p : Nat × Nat) : (addBias rows cols o bq s p).outCh = s.outCh := rfl
@[simp] theorem addBias_kRows (rows cols o : Nat) (bq : FxAcc) (s : State) (p : Nat × Nat) : (addBias rows cols o bq s p).kRows = s.kRows := rfl
@[simp] theorem addBias_kCols (rows cols o : Nat) (bq : FxAcc) (s : State) (p : Nat × Nat) : (addBias rows cols o bq s p).kCols = s.kCols := rfl
@[simp] theorem addBias_stride (rows cols o : Nat) (bq : FxAcc) (s : State) (p : Nat × Nat) : (addBias rows cols o bq s p).stride = s.stride := rfl
@[simp] theorem addBias_pad (rows cols o : Nat) (bq : FxAcc) (s : State) (p : Nat × Nat) : (addBias rows cols o bq s p).pad = s.pad := rfl
@[simp] theorem addBias_dil (rows cols o : Nat) (bq : FxAcc) (s : State) (p : Nat × Nat) : (addBias rows cols o bq s p).dil = s.dil := rfl
@[simp] theorem addBias_groups (rows cols o : Nat) (bq : FxAcc) (s : State) (p : Nat × Nat) : (addBias rows cols o bq s p).groups = s.groups := rfl
@[simp] theorem addBias_biasEn (rows cols o : Nat) (bq : FxAcc) (s : State) (p : Nat × Nat) : (addBias rows cols o bq s p).biasEn = s.biasEn := rfl
@[simp] theorem addBias_sliceW (rows cols o : Nat) (bq : FxAcc) (s : State) (p : Nat × Nat) : (addBias rows cols o bq s p).sliceW = s.sliceW := rfl
@[simp] theorem addBias_fmt (rows cols o : Nat) (bq : FxAcc) (s : State) (p : Nat × Nat) : (addBias rows cols o bq s p).fmt = s.fmt := rfl
@[simp] theorem addBias_inRows (rows cols o : Nat) (bq : FxAcc) (s : State) (p : Nat × Nat) : (addBias rows cols o bq s p).inRows = s.inRows := rfl
@[simp] theorem addBias_inCols (rows cols o : Nat) (bq : FxAcc) (s : State) (p : Nat × Nat) : (addBias rows cols o bq s p).inCols = s.inCols := rfl
@[simp] theorem addBias_posR (rows cols o : Nat) (bq : FxAcc) (s : State) (p : Nat × Nat) : (addBias rows cols o bq s p).posR = s.posR := rfl
@[simp] theorem addBias_posC (rows cols o : Nat) (bq : FxAcc) (s : State) (p : Nat × Nat) : (addBias rows cols o bq s p).posC = s.posC := rfl
@[simp] theorem addBias_inFeat (rows cols o : Nat) (bq : FxAcc) (s : State) (p : Nat × Nat) : (addBias rows cols o bq s p).inFeat = s.inFeat := rfl
@[simp] theorem addBias_rowTiles (rows cols o : Nat) (bq : FxAcc) (s : State) (p : Nat × Nat) : (addBias rows cols o bq s p).rowTiles = s.rowTiles := rfl
@[simp] theorem addBias_colTiles (rows cols o : Nat) (bq : FxAcc) (s : State) (p : Nat × Nat) : (addBias rows cols o bq s p).colTiles = s.colTiles := rfl
@[simp] theorem addBias_nSlices (rows cols o : Nat) (bq : FxAcc) (s : State) (p : Nat × Nat) : (addBias rows cols o bq s p).nSlices = s.nSlices := rfl
@[simp] theorem addBias_outRows (rows cols o : Nat) (bq : FxAcc) (s : State) (p : Nat × Nat) : (addBias rows cols o bq s p).outRows = s.outRows := rfl
@[simp] theorem addBias_outCols (rows cols o : Nat) (bq : FxAcc) (s : State) (p : Nat × Nat) : (addBias rows cols o bq s p).outCols = s.outCols := rfl
@[simp] theorem addBias_wmem (rows cols o : Nat) (bq : FxAcc) (s : State) (p : Nat × Nat) : (addBias rows cols o bq s p).wmem = s.wmem := rfl
@[simp] theorem addBias_bmem (rows cols o : Nat) (bq : FxAcc) (s : State) (p : Nat × Nat) : (addBias rows cols o bq s p).bmem = s.bmem := rfl
@[simp] theorem addBias_imem (rows cols o : Nat) (bq : FxAcc) (s : State) (p : Nat × Nat) : (addBias rows cols o bq s p).imem = s.imem := rfl
@[simp] theorem addBias_tstore (rows cols o : Nat) (bq : FxAcc) (s : State) (p : Nat × Nat) : (addBias rows cols o bq s p).tstore = s.tstore := rfl
@[simp] theorem addBias_pbuf (rows cols o : Nat) (bq : FxAcc) (s : State) (p : Nat × Nat) : (addBias rows cols o bq s p).pbuf = s.pbuf := rfl
@[simp] theorem addBias_acc (rows cols o : Nat) (bq : FxAcc) (s : State) (p : Nat × Nat) : (addBias rows cols o bq s p).acc = s.acc := rfl
@[simp] theorem addBias_tout (rows cols o : Nat) (bq : FxAcc) (s : State) (p : Nat × Nat) : (addBias rows cols o bq s p).tout = s.tout := rfl
@[simp] theorem addBias_caps (rows cols o : Nat) (bq : FxAcc) (s : State) (p : Nat × Nat) : (addBias rows cols o bq s p).caps = s.caps := rfl
@[simp] theorem addBias_port (rows cols o : Nat) (bq : FxAcc) (s : State) (p : Nat × Nat) : (addBias rows cols o bq s p).port = s.port := rfl
@[simp] theorem addBias_readLog (rows cols o : Nat) (bq : FxAcc) (s : State) (p : Nat × Nat) : (addBias rows cols o bq s p).readLog = s.readLog := rfl
@[simp] theorem addBias_powerOns (rows cols o : Nat) (bq : FxAcc) (s : State) (p : Nat × Nat) : (addBias rows cols o bq s p).powerOns = s.powerOns := rfl

/-! ### `resetRegisters` and `hardwareReset` -/

@[simp] theorem resetRegisters_state (s : State) : (resetRegisters s).state = State.reset.state := rfl
@[simp] theorem resetRegisters_busy (s : State) : (resetRegisters s).busy = State.reset.busy := rfl
@[simp] theorem resetRegisters_qovf (s : State) : (resetRegisters s).qovf = State.reset.qovf := rfl
@[simp] theorem resetRegisters_errCode (s : State) : (resetRegisters s).errCode = State.reset.errCode := rfl
@[simp] theorem resetRegisters_errInfo (s : State) : (resetRegisters s).errInfo = State.reset.errInfo := rfl
@[simp] theorem resetRegisters_arg0 (s : State) : (resetRegisters s).arg0 = State.reset.arg0 := rfl
@[simp] theorem resetRegisters_result (s : State) : (resetRegisters s).result = State.reset.result := rfl
@[simp] theorem resetRegisters_tileI (s : State) : (resetRegisters s).tileI = State.reset.tileI := rfl
@[simp] theorem resetRegisters_tileJ (s : State) : (resetRegisters s).tileJ = State.reset.tileJ := rfl
@[simp] theorem resetRegisters_inCh (s : State) : (resetRegisters s).inCh = State.reset.inCh := rfl
@[simp] theorem resetRegisters_outCh (s : State) : (resetRegisters s).outCh = State.reset.outCh := rfl
@[simp] theorem resetRegisters_kRows (s : State) : (resetRegisters s).kRows = State.reset.kRows := rfl
@[simp] theorem resetRegisters_kCols (s : State) : (resetRegisters s).kCols = State.reset.kCols := rfl
@[simp] theorem resetRegisters_stride (s : State) : (resetRegisters s).stride = State.reset.stride := rfl
@[simp] theorem resetRegisters_pad (s : State) : (resetRegisters s).pad = State.reset.pad := rfl
@[simp] theorem resetRegisters_dil (s : State) : (resetRegisters s).dil = State.reset.dil := rfl
@[simp] theorem resetRegisters_groups (s : State) : (resetRegisters s).groups = State.reset.groups := rfl
@[simp] theorem resetRegisters_biasEn (s : State) : (resetRegisters s).biasEn = State.reset.biasEn := rfl
@[simp] theorem resetRegisters_sliceW (s : State) : (resetRegisters s).sliceW = State.reset.sliceW := rfl
@[simp] theorem resetRegisters_fmt (s : State) : (resetRegisters s).fmt = State.reset.fmt := rfl
@[simp] theorem resetRegisters_inRows (s : State) : (resetRegisters s).inRows = State.reset.inRows := rfl
@[simp] theorem resetRegisters_inCols (s : State) : (resetRegisters s).inCols = State.reset.inCols := rfl
@[simp] theorem resetRegisters_posR (s : State) : (resetRegisters s).posR = State.reset.posR := rfl
@[simp] theorem resetRegisters_posC (s : State) : (resetRegisters s).posC = State.reset.posC := rfl
@[simp] theorem resetRegisters_inFeat (s : State) : (resetRegisters s).inFeat = State.reset.inFeat := rfl
@[simp] theorem resetRegisters_rowTiles (s : State) : (resetRegisters s).rowTiles = State.reset.rowTiles := rfl
@[simp] theorem resetRegisters_colTiles (s : State) : (resetRegisters s).colTiles = State.reset.colTiles := rfl
@[simp] theorem resetRegisters_nSlices (s : State) : (resetRegisters s).nSlices = State.reset.nSlices := rfl
@[simp] theorem resetRegisters_outRows (s : State) : (resetRegisters s).outRows = State.reset.outRows := rfl
@[simp] theorem resetRegisters_outCols (s : State) : (resetRegisters s).outCols = State.reset.outCols := rfl
@[simp] theorem resetRegisters_wmem (s : State) : (resetRegisters s).wmem = s.wmem := rfl
@[simp] theorem resetRegisters_bmem (s : State) : (resetRegisters s).bmem = s.bmem := rfl
@[simp] theorem resetRegisters_imem (s : State) : (resetRegisters s).imem = s.imem := rfl
@[simp] theorem resetRegisters_omem (s : State) : (resetRegisters s).omem = s.omem := rfl
@[simp] theorem resetRegisters_tstore (s : State) : (resetRegisters s).tstore = s.tstore := rfl
@[simp] theorem resetRegisters_pbuf (s : State) : (resetRegisters s).pbuf = s.pbuf := rfl
@[simp] theorem resetRegisters_acc (s : State) : (resetRegisters s).acc = s.acc := rfl
@[simp] theorem resetRegisters_tout (s : State) : (resetRegisters s).tout = s.tout := rfl
@[simp] theorem resetRegisters_caps (s : State) : (resetRegisters s).caps = s.caps := rfl
@[simp] theorem resetRegisters_port (s : State) : (resetRegisters s).port = s.port := rfl
@[simp] theorem resetRegisters_readLog (s : State) : (resetRegisters s).readLog = s.readLog := rfl
@[simp] theorem resetRegisters_powerOns (s : State) : (resetRegisters s).powerOns = s.powerOns := rfl

@[simp] theorem hardwareReset_state (s : State) : (hardwareReset s).state = State.reset.state := rfl
@[simp] theorem hardwareReset_busy (s : State) : (hardwareReset s).busy = State.reset.busy := rfl
@[simp] theorem hardwareReset_qovf (s : State) : (hardwareReset s).qovf = State.reset.qovf := rfl
@[simp] theorem hardwareReset_errCode (s : State) : (hardwareReset s).errCode = State.reset.errCode := rfl
@[simp] theorem hardwareReset_errInfo (s : State) : (hardwareReset s).errInfo = State.reset.errInfo := rfl
@[simp] theorem hardwareReset_arg0 (s : State) : (hardwareReset s).arg0 = State.reset.arg0 := rfl
@[simp] theorem hardwareReset_result (s : State) : (hardwareReset s).result = State.reset.result := rfl
@[simp] theorem hardwareReset_tileI (s : State) : (hardwareReset s).tileI = State.reset.tileI := rfl
@[simp] theorem hardwareReset_tileJ (s : State) : (hardwareReset s).tileJ = State.reset.tileJ := rfl
@[simp] theorem hardwareReset_inCh (s : State) : (hardwareReset s).inCh = State.reset.inCh := rfl
@[simp] theorem hardwareReset_outCh (s : State) : (hardwareReset s).outCh = State.reset.outCh := rfl
@[simp] theorem hardwareReset_kRows (s : State) : (hardwareReset s).kRows = State.reset.kRows := rfl
@[simp] theorem hardwareReset_kCols (s : State) : (hardwareReset s).kCols = State.reset.kCols := rfl
@[simp] theorem hardwareReset_stride (s : State) : (hardwareReset s).stride = State.reset.stride := rfl
@[simp] theorem hardwareReset_pad (s : State) : (hardwareReset s).pad = State.reset.pad := rfl
@[simp] theorem hardwareReset_dil (s : State) : (hardwareReset s).dil = State.reset.dil := rfl
@[simp] theorem hardwareReset_groups (s : State) : (hardwareReset s).groups = State.reset.groups := rfl
@[simp] theorem hardwareReset_biasEn (s : State) : (hardwareReset s).biasEn = State.reset.biasEn := rfl
@[simp] theorem hardwareReset_sliceW (s : State) : (hardwareReset s).sliceW = State.reset.sliceW := rfl
@[simp] theorem hardwareReset_fmt (s : State) : (hardwareReset s).fmt = State.reset.fmt := rfl
@[simp] theorem hardwareReset_inRows (s : State) : (hardwareReset s).inRows = State.reset.inRows := rfl
@[simp] theorem hardwareReset_inCols (s : State) : (hardwareReset s).inCols = State.reset.inCols := rfl
@[simp] theorem hardwareReset_posR (s : State) : (hardwareReset s).posR = State.reset.posR := rfl
@[simp] theorem hardwareReset_posC (s : State) : (hardwareReset s).posC = State.reset.posC := rfl
@[simp] theorem hardwareReset_inFeat (s : State) : (hardwareReset s).inFeat = State.reset.inFeat := rfl
@[simp] theorem hardwareReset_rowTiles (s : State) : (hardwareReset s).rowTiles = State.reset.rowTiles := rfl
@[simp] theorem hardwareReset_colTiles (s : State) : (hardwareReset s).colTiles = State.reset.colTiles := rfl
@[simp] theorem hardwareReset_nSlices (s : State) : (hardwareReset s).nSlices = State.reset.nSlices := rfl
@[simp] theorem hardwareReset_outRows (s : State) : (hardwareReset s).outRows = State.reset.outRows := rfl
@[simp] theorem hardwareReset_outCols (s : State) : (hardwareReset s).outCols = State.reset.outCols := rfl
@[simp] theorem hardwareReset_wmem (s : State) : (hardwareReset s).wmem = State.reset.wmem := rfl
@[simp] theorem hardwareReset_bmem (s : State) : (hardwareReset s).bmem = State.reset.bmem := rfl
@[simp] theorem hardwareReset_imem (s : State) : (hardwareReset s).imem = State.reset.imem := rfl
@[simp] theorem hardwareReset_omem (s : State) : (hardwareReset s).omem = State.reset.omem := rfl
@[simp] theorem hardwareReset_tstore (s : State) : (hardwareReset s).tstore = State.reset.tstore := rfl
@[simp] theorem hardwareReset_pbuf (s : State) : (hardwareReset s).pbuf = State.reset.pbuf := rfl
@[simp] theorem hardwareReset_acc (s : State) : (hardwareReset s).acc = State.reset.acc := rfl
@[simp] theorem hardwareReset_tout (s : State) : (hardwareReset s).tout = State.reset.tout := rfl
@[simp] theorem hardwareReset_caps (s : State) : (hardwareReset s).caps = s.caps := rfl
@[simp] theorem hardwareReset_port (s : State) : (hardwareReset s).port = s.port := rfl
@[simp] theorem hardwareReset_readLog (s : State) : (hardwareReset s).readLog = s.readLog := rfl
@[simp] theorem hardwareReset_powerOns (s : State) : (hardwareReset s).powerOns = s.powerOns + 1 := rfl

end Sys2Proof.Machine
end

