-- ==== Sys2Proof/Laws/Engine.lean ====
section
/-! SUPPORT. The engine's sums: the tile and the scheduler as finite sums, the patch tap by tap, what a patch leaves in PBUF and what the accumulator then holds (42_tile_mvm.md R168, 43_scheduler.md R182, 44_conv.md R197). -/

namespace Sys2Proof.Machine

/-! ### Sums over blocks -/

/-- A sum over blocks is the sum over all. -/
theorem sum_blocks (h : Nat → Int) (R B : Nat) :
    ∑ i ∈ Finset.range R, ∑ r ∈ Finset.range B, h (i * B + r) = ∑ f ∈ Finset.range (R * B), h f := by
  induction R with
  | zero => simp
  | succ R ih => rw [Finset.sum_range_succ, ih, Nat.succ_mul, Finset.sum_range_add]

/-- A sum whose terms vanish from `n` on ends at `n`. -/
theorem sum_truncate (h : Nat → Int) {n m : Nat} (hnm : n ≤ m) :
    ∑ f ∈ Finset.range m, (if f < n then h f else 0) = ∑ f ∈ Finset.range n, h f := by
  obtain ⟨k, rfl⟩ := Nat.exists_eq_add_of_le hnm
  rw [Finset.sum_range_add, Finset.sum_congr rfl fun f hf => if_pos (Finset.mem_range.mp hf)]
  simp

/-- A sum over the rows of tiles, of terms that vanish from `n` on, is the sum to `n`. -/
theorem sum_rows (g : Nat → Int) {n R : Nat} (hn : n ≤ R * 128) :
    ∑ i ∈ Finset.range R, ∑ row ∈ Finset.range 128, (if i * 128 + row < n then g (i * 128 + row) else 0) =
      ∑ f ∈ Finset.range n, g f := by
  have h := sum_blocks (fun f => if f < n then g f else 0) R 128
  rw [h, sum_truncate g hn]

/-! ### Tile and scheduler -/

theorem tileMvm_eq_sum (s : State) (i j : Nat) (x : Nat → Fx16) (col : Nat) :
    s.tileMvm i j x col = ∑ row ∈ Finset.range 128, s.weight i j row col * (x row).toInt := by
  rw [State.tileMvm, sumTo_eq_sum]
  refine Finset.sum_congr rfl fun row _ => ?_
  split
  · next h => simp [h]
  · rfl

/-- The scheduler's sum over the features of the grid: the weight of each feature times its input. -/
theorem schedMvm_eq_sum (s : State) (a : Nat) (h : s.inFeat.toNat ≤ s.rowTiles.toNat * 128) :
    s.schedMvm a = ∑ f ∈ Finset.range s.inFeat.toNat,
      s.weight (f / 128) (a / 128) (f % 128) (a % 128) * (s.pbufAt f).toInt := by
  rw [State.schedMvm, sumTo_eq_sum, ← sum_rows _ h]
  refine Finset.sum_congr rfl fun i _ => ?_
  rw [tileMvm_eq_sum]
  refine Finset.sum_congr rfl fun row hr => ?_
  have hr := Finset.mem_range.mp hr
  have h1 : (i * 128 + row) / 128 = i := by omega
  have h2 : (i * 128 + row) % 128 = row := by omega
  simp only [State.subVector, tileDim, h1, h2]
  split <;> simp

/-! ### Taps -/

/-- Two mixed-radix digits from their number. -/
theorem digits_of_number {a b c m n : Nat} (hb : b < m) (hc : c < n) :
    ((a * m + b) * n + c) % n = c ∧ ((a * m + b) * n + c) / n % m = b ∧ ((a * m + b) * n + c) / (m * n) = a := by
  have h1 : ((a * m + b) * n + c) / n = a * m + b := by
    rw [Nat.mul_comm, Nat.mul_add_div (by omega), Nat.div_eq_of_lt hc, Nat.add_zero]
  refine ⟨?_, ?_, ?_⟩
  · rw [Nat.mul_add_mod_self_right, Nat.mod_eq_of_lt hc]
  · rw [h1, Nat.mul_add_mod_self_right, Nat.mod_eq_of_lt hb]
  · rw [Nat.mul_comm m n, ← Nat.div_div_eq_div_mul, h1, Nat.mul_comm, Nat.mul_add_div (by omega), Nat.div_eq_of_lt hb,
      Nat.add_zero]

/-- The features are the taps, in the order of 20_memory.md R79. -/
theorem sum_features (s : State) (h : Nat → Int) :
    ∑ f ∈ Finset.range s.inFeatures, h f =
      ∑ ch ∈ Finset.range s.inCh.toNat, ∑ kr ∈ Finset.range s.kRows.toNat, ∑ kc ∈ Finset.range s.kCols.toNat,
        h (Reference.tapIndex s ch kr kc) := by
  rw [State.inFeatures, ← sum_blocks h, ← sum_blocks fun p => ∑ kc ∈ Finset.range s.kCols.toNat, h (p * s.kCols.toNat + kc)]
  rfl

/-- Every feature is a tap. -/
theorem exists_tap {s : State} {f : Nat} (h : f < s.inFeatures) :
    ∃ ch < s.inCh.toNat, ∃ kr < s.kRows.toNat, ∃ kc < s.kCols.toNat, f = Reference.tapIndex s ch kr kc := by
  have hc : 0 < s.kCols.toNat := by
    by_contra hc
    simp [State.inFeatures, Nat.eq_zero_of_not_pos hc] at h
  have hr : 0 < s.kRows.toNat := by
    by_contra hr
    simp [State.inFeatures, Nat.eq_zero_of_not_pos hr] at h
  have h1 : f / s.kCols.toNat < s.inCh.toNat * s.kRows.toNat := (Nat.div_lt_iff_lt_mul hc).mpr h
  refine ⟨f / s.kCols.toNat / s.kRows.toNat, (Nat.div_lt_iff_lt_mul hr).mpr h1, f / s.kCols.toNat % s.kRows.toNat,
    Nat.mod_lt _ hr, f % s.kCols.toNat, Nat.mod_lt _ hc, ?_⟩
  rw [Reference.tapIndex, Nat.mul_comm (f / s.kCols.toNat / s.kRows.toNat), Nat.div_add_mod,
    Nat.mul_comm (f / s.kCols.toNat), Nat.div_add_mod]

/-- Every tap is a feature. -/
theorem tapIndex_lt {s : State} {ch kr kc : Nat} (h : ch < s.inCh.toNat) (hr : kr < s.kRows.toNat)
    (hc : kc < s.kCols.toNat) : Reference.tapIndex s ch kr kc < s.inFeatures := by
  have h1 : ch * s.kRows.toNat + kr + 1 ≤ s.inCh.toNat * s.kRows.toNat := by nlinarith
  have h2 : (ch * s.kRows.toNat + kr + 1) * s.kCols.toNat ≤ s.inCh.toNat * s.kRows.toNat * s.kCols.toNat :=
    Nat.mul_le_mul_right _ h1
  simp only [Reference.tapIndex, State.inFeatures]
  nlinarith

/-- The patch element of a tap: an input of IMEM, or 0 in the padding (44_conv.md R197). -/
theorem patchElem_tap (s : State) (r c : Nat) {ch kr kc : Nat} (hr : kr < s.kRows.toNat) (hc : kc < s.kCols.toNat) :
    s.patchElem r c (Reference.tapIndex s ch kr kc) =
      let pr := r * s.stride.toNat + kr * s.dil.toNat
      let pc := c * s.stride.toNat + kc * s.dil.toNat
      if s.pad.toNat ≤ pr ∧ pr < s.pad.toNat + s.inRows.toNat ∧ s.pad.toNat ≤ pc ∧ pc < s.pad.toNat + s.inCols.toNat then
        f32 (s.imemAt ((ch * s.inRows.toNat + (pr - s.pad.toNat)) * s.inCols.toNat + (pc - s.pad.toNat)))
      else .dyadic 0 0 := by
  obtain ⟨h1, h2, h3⟩ := digits_of_number (a := ch) hr hc
  simp only [State.patchElem, Reference.tapIndex, h1, h2, h3]
  generalize r * s.stride.toNat + kr * s.dil.toNat = pr
  generalize c * s.stride.toNat + kc * s.dil.toNat = pc
  by_cases h : s.pad.toNat ≤ pr ∧ pr < s.pad.toNat + s.inRows.toNat ∧ s.pad.toNat ≤ pc ∧ pc < s.pad.toNat + s.inCols.toNat
  · have e1 : ((pr : Int) - s.pad.toNat).toNat = pr - s.pad.toNat := by omega
    have e2 : ((pc : Int) - s.pad.toNat).toNat = pc - s.pad.toNat := by omega
    rw [if_pos h, if_pos (by omega), e1, e2]
  · rw [if_neg h, if_neg (by omega)]

/-! ### The patch in PBUF -/

/-- After `EncodePatch` the word of every feature is its encoded element; the words beyond are as before. -/
theorem pbuf_encodePatch {s : State} (h : s.pbuf.wf) (r c x : Nat) :
    (encodePatch r c s).pbufAt x = if x < s.inFeatures then (s.encodedElem r c x).1 else s.pbufAt x := by
  simp only [State.pbufAt, encodePatch, noteOverflow]
  rw [Memory.get?_store h]
  simp only [List.length_map, List.length_range, List.getElem_map, List.getElem_range]
  split <;> rfl

/-- The sums of an encoded patch: weights of the grid times encoded elements. -/
theorem schedMvm_encodePatch {s : State} (h : s.pbuf.wf) (hf : s.inFeat.toNat = s.inFeatures)
    (ht : s.inFeatures ≤ s.rowTiles.toNat * 128) (r c a : Nat) :
    (encodePatch r c s).schedMvm a = ∑ f ∈ Finset.range s.inFeatures,
      s.weight (f / 128) (a / 128) (f % 128) (a % 128) * (s.encodedElem r c f).1.toInt := by
  have e1 : (encodePatch r c s).inFeat = s.inFeat := rfl
  have e2 : (encodePatch r c s).rowTiles = s.rowTiles := rfl
  rw [schedMvm_eq_sum _ _ (by rw [e1, e2, hf]; exact ht), e1, hf]
  refine Finset.sum_congr rfl fun f hf => ?_
  rw [pbuf_encodePatch h, if_pos (Finset.mem_range.mp hf)]
  rfl

/-- After SMVM's writes: the sums in the channel slots of the grid, every other word as before. -/
theorem acc_accumulate {s : State} (h : s.acc.wf) (a : Nat) :
    (accumulate s).accAt a = if a < s.colTiles.toNat * 128 then pat 64 (s.schedMvm a) else s.accAt a := by
  simp only [State.accAt, accumulate, schedOutputs]
  rw [Memory.get?_store h]
  simp only [List.length_map, List.length_range, List.getElem_map, List.getElem_range, tileDim]
  split <;> rfl

end Sys2Proof.Machine
end

