-- ==== Sys2Proof/Laws/Ops.lean ====
section
/-! SUPPORT. What each shared operation can do, said once: the prologue, the checks, the guard of the engine. -/

namespace Sys2Proof.Machine

/-! ### Checks -/

theorem firstFailing_eq_none {cs : List Check} : firstFailing cs = none ↔ ∀ c ∈ cs, c.failed = false := by
  induction cs with
  | nil => simp [firstFailing]
  | cons c cs ih =>
    unfold firstFailing
    cases h : c.failed <;> simp [h, ih]

theorem firstFailing_append (cs ds : List Check) :
    firstFailing (cs ++ ds) = (firstFailing cs).or (firstFailing ds) := by
  induction cs with
  | nil => simp [firstFailing]
  | cons c cs ih =>
    cases h : c.failed <;> simp [firstFailing, h, ih]

theorem firstFailing_mem {cs : List Check} {c : Check} (h : firstFailing cs = some c) : c ∈ cs ∧ c.failed = true := by
  induction cs with
  | nil => simp [firstFailing] at h
  | cons d cs ih =>
    unfold firstFailing at h
    split at h
    · next hd => cases h; exact ⟨List.mem_cons_self, hd⟩
    · exact ⟨List.mem_cons_of_mem _ (ih h).1, (ih h).2⟩

theorem checked_pass {cs : List Check} (h : firstFailing cs = none) (s : State) (effect : State → Result) :
    checked cs s effect = effect s := by
  simp [checked, h]

theorem checked_fail {cs : List Check} {c : Check} (h : firstFailing cs = some c) (s : State) (effect : State → Result) :
    checked cs s effect = .next (raiseError c.error c.info s) := by
  simp [checked, h]

/-- A checked command that goes on to a next state: an error entry, or its effect. -/
theorem checked_next {cs : List Check} {s t : State} {effect : State → Result} (h : checked cs s effect = .next t) :
    (∃ c ∈ cs, c.failed = true ∧ firstFailing cs = some c ∧ t = raiseError c.error c.info s) ∨
    (firstFailing cs = none ∧ effect s = .next t) := by
  unfold checked at h
  split at h
  · next c hc =>
    obtain ⟨hm, hf⟩ := firstFailing_mem hc
    exact .inl ⟨c, hm, hf, hc, by injection h with h; exact h.symm⟩
  · next hc => exact .inr ⟨hc, h⟩

/-! ### The guard of the engine -/

theorem insideSpaces_of_fits {s : State} (h : s.engineFits = true) (effect : State → State) :
    insideSpaces s effect = .next (effect s) := by
  simp [insideSpaces, h]

theorem insideSpaces_next {s t : State} {effect : State → State} (h : insideSpaces s effect = .next t) :
    s.engineFits = true ∧ t = effect s := by
  unfold insideSpaces at h
  split at h
  · next hf => exact ⟨hf, by injection h with h; exact h.symm⟩
  · cases h

/-- What the guard says, as plain bounds. -/
theorem engineFits_iff (s : State) : s.engineFits = true ↔
    s.rowTiles.toNat * s.colTiles.toNat * s.nSlices.toNat ≤ s.caps.capX ∧
    s.inFeat.toNat ≤ s.caps.capP ∧ s.inFeatures ≤ s.caps.capP ∧
    s.colTiles.toNat * tileDim ≤ s.caps.capA ∧ s.outCh.toNat ≤ s.colTiles.toNat * tileDim ∧
    (s.biasEn = 1 → s.outCh.toNat ≤ s.caps.capB) := by
  simp only [State.engineFits, Bool.and_eq_true, decide_eq_true_eq, and_assoc]

/-! ### The prologue -/

/-- Outside FAULT a command runs with BUSY = 1, which falls when it ends. -/
theorem issued_of_not_fault {s : State} (h : s.state ≠ .fault) (body : State → Result) :
    issued s body =
      match body { s with busy := true } with
      | .next t => .next { t with busy := false }
      | .fault r => .fault r
      | .refused r => .refused r := by
  unfold issued
  exact if_neg h

theorem issued_of_fault {s : State} (h : s.state = .fault) (body : State → Result) : issued s body = .next s := by
  rw [issued, if_pos h]

theorem issued_eq_next {s u : State} {body : State → Result} (h : s.state ≠ .fault)
    (hb : body { s with busy := true } = .next u) : issued s body = .next { u with busy := false } := by
  rw [issued_of_not_fault h, hb]

/-- An issued command that goes on to a next state: it was discarded in FAULT, or its body went on. -/
theorem issued_next {s t : State} {body : State → Result} (h : issued s body = .next t) :
    (s.state = .fault ∧ t = s) ∨
    (s.state ≠ .fault ∧ ∃ u, body { s with busy := true } = .next u ∧ t = { u with busy := false }) := by
  by_cases hf : s.state = .fault
  · rw [issued_of_fault hf] at h
    exact .inl ⟨hf, by injection h with h; exact h.symm⟩
  · rw [issued_of_not_fault hf] at h
    refine .inr ⟨hf, ?_⟩
    split at h
    · next u hu => exact ⟨u, hu, by injection h with h; exact h.symm⟩
    · cases h
    · cases h

end Sys2Proof.Machine
end

