-- ==== Sys2Proof/Laws/Exec.lean ====
section
/-! SUPPORT. What a command can do, said once: the checks of each command, its effect once they pass, and the one equation that puts them together (45_system.md R222, 60_exceptions.md R241). -/

namespace Sys2Proof.Machine

/-- The checks of a command, in their order (60_exceptions.md R244). -/
def checksOf (s : State) : Instr → List Check
  | .qenc _ => []
  | .bslice k => bsliceChecks k s
  | .build => s.layerChecks
  | .inval => []
  | .encp => notBuiltCheck 0x20 s :: s.callChecks ++ [positionCheck s]
  | .tmvm => [notBuiltCheck 0x21 s]
  | .smvm => [notBuiltCheck 0x22 s]
  | .conv => notBuiltCheck 0x30 s :: s.callChecks ++
      [capacityCheck (s.outCh.toNat * s.callOutRows * s.callOutCols) s.caps.capO 4]
  | .clrerr => []
  | .sreset => []

/-- TMVM's tile index is outside the grid. -/
def tileOutside (s : State) : Bool := decide (s.rowTiles ≤ s.tileI ∨ s.colTiles ≤ s.tileJ)

/-- Whether the effect of a command needs the engine to stay inside its spaces. -/
def usesEngine (s : State) : Instr → Bool
  | .qenc _ => false
  | .bslice _ => false
  | .build => false
  | .inval => false
  | .encp => true
  | .tmvm => !tileOutside s
  | .smvm => true
  | .conv => true
  | .clrerr => false
  | .sreset => false

/-- What BUILD leaves (41_build.md R152). -/
def buildEffect (s : State) : State :=
  noteOverflow (buildOverflow s)
    { s with
      tstore := s.tstore.overwrite s.gridCells (gridEntries s)
      inFeat := BitVec.ofNat 32 s.inFeatures
      rowTiles := BitVec.ofNat 32 s.layerRowTiles
      colTiles := BitVec.ofNat 32 s.layerColTiles
      nSlices := BitVec.ofNat 5 s.layerSlices
      state := .built }

/-- What INVAL leaves (41_build.md R155). -/
def invalEffect (s : State) : State :=
  { s with
    state := .unbuilt
    inFeat := 0
    rowTiles := 0
    colTiles := 0
    nSlices := 0
    outRows := 0
    outCols := 0 }

/-- The effect of a command whose checks pass. -/
def effectOf (s : State) : Instr → State
  | .qenc fmt =>
    let q := quantize wordWidth (s.fSel fmt) (f32 s.arg0)
    noteOverflow q.2 { s with result := q.1 }
  | .bslice k => { s with result := BitVec.ofNat 16 (slice (s.arg0.extractLsb' 0 16) s.sliceW.toNat k) }
  | .build => buildEffect s
  | .inval => invalEffect s
  | .encp => encodePatch s.posR.toNat s.posC.toNat (publishOutDims s)
  | .tmvm => if tileOutside s then raiseFatal (s.tileI ++ s.tileJ) s else { s with tout := s.tout.store (tileOutputs s) }
  | .smvm => accumulate s
  | .conv => convolve s
  | .clrerr => clearRecord s
  | .sreset => s

/-- The state in which a command runs: BUSY is 1. -/
abbrev started (s : State) : State := { s with busy := true }

/-- The state when a command ends: BUSY falls. -/
abbrev ended (s : State) : State := { s with busy := false }

theorem exec_of_fault {i : Instr} {s : State} (hi : i ≠ .sreset) (hs : s.state = .fault) : exec i s = .next s := by
  cases i with
  | sreset => exact absurd rfl hi
  | _ =>
    simp only [exec, execQenc, execBslice, execBuild, execInval, execEncp, execTmvm, execSmvm, execConv, execClrerr]
    exact issued_of_fault hs _

/-- The checks do not read BUSY. -/
theorem checksOf_started (s : State) (i : Instr) : checksOf (started s) i = checksOf s i := by cases i <;> rfl

theorem usesEngine_started (s : State) (i : Instr) : usesEngine (started s) i = usesEngine s i := by cases i <;> rfl

theorem engineFits_started (s : State) : (started s).engineFits = s.engineFits := rfl

/-- What every command but SRESET does outside FAULT. -/
theorem exec_eq {i : Instr} {s : State} (hi : i ≠ .sreset) (hs : s.state ≠ .fault) :
    exec i s =
      match firstFailing (checksOf s i) with
      | some c => .next (ended (raiseError c.error c.info s))
      | none =>
        if usesEngine s i && !s.engineFits then .fault .engineOutsideSpace
        else .next (ended (effectOf (started s) i)) := by
  have key : ∀ body : State → Result, exec i s = issued s body →
      (∀ u, body u = match firstFailing (checksOf u i) with
        | some c => .next (raiseError c.error c.info u)
        | none => if usesEngine u i && !u.engineFits then .fault .engineOutsideSpace else .next (effectOf u i)) →
      exec i s = match firstFailing (checksOf s i) with
        | some c => .next (ended (raiseError c.error c.info s))
        | none =>
          if usesEngine s i && !s.engineFits then .fault .engineOutsideSpace
          else .next (ended (effectOf (started s) i)) := by
    intro body he hb
    rw [he, issued_of_not_fault hs, hb, checksOf_started, usesEngine_started, engineFits_started]
    cases firstFailing (checksOf s i) with
    | some c => rfl
    | none => by_cases h : (usesEngine s i && !s.engineFits) = true <;> simp [h]
  cases i with
  | sreset => exact absurd rfl hi
  | qenc fmt => exact key _ rfl fun u => rfl
  | inval => exact key _ rfl fun u => rfl
  | clrerr => exact key _ rfl fun u => rfl
  | bslice k => exact key _ rfl fun u => by simp only [usesEngine]; rfl
  | build => exact key _ rfl fun u => by simp only [usesEngine]; rfl
  | encp =>
    refine key _ (by rw [exec, execEncp]) fun u => ?_
    simp only [checked, checksOf, usesEngine, effectOf, insideSpaces]
    cases u.engineFits <;> rfl
  | smvm =>
    refine key _ (by rw [exec, execSmvm]) fun u => ?_
    simp only [checked, checksOf, usesEngine, effectOf, insideSpaces]
    cases u.engineFits <;> rfl
  | conv =>
    refine key _ (by rw [exec, execConv]) fun u => ?_
    simp only [checked, checksOf, usesEngine, effectOf, insideSpaces]
    cases u.engineFits <;> rfl
  | tmvm =>
    refine key _ (by rw [exec, execTmvm]) fun u => ?_
    simp only [checked, checksOf, usesEngine, effectOf, insideSpaces, tileOutside]
    by_cases h : u.rowTiles ≤ u.tileI ∨ u.colTiles ≤ u.tileJ <;> cases u.engineFits <;> simp [h] <;> try rfl

/-- A failing check: the error is recorded and nothing else happens. -/
theorem exec_of_failing {i : Instr} {s : State} {c : Check} (hi : i ≠ .sreset) (hs : s.state ≠ .fault)
    (hc : firstFailing (checksOf s i) = some c) : exec i s = .next (ended (raiseError c.error c.info s)) := by
  rw [exec_eq hi hs, hc]

/-- No failing check, and the engine inside its spaces: the effect. -/
theorem exec_of_passing {i : Instr} {s : State} (hi : i ≠ .sreset) (hs : s.state ≠ .fault)
    (hc : firstFailing (checksOf s i) = none) (he : usesEngine s i = true → s.engineFits = true) :
    exec i s = .next (ended (effectOf (started s) i)) := by
  rw [exec_eq hi hs, hc]
  cases hu : usesEngine s i
  · rfl
  · simp [he hu]

/-- Everything a command that goes on to a next state can have done. -/
theorem exec_next {i : Instr} {s t : State} (h : exec i s = .next t) :
    (i = .sreset ∧ t = resetRegisters s) ∨
    (i ≠ .sreset ∧ s.state = .fault ∧ t = s) ∨
    (i ≠ .sreset ∧ s.state ≠ .fault ∧ ∃ c, firstFailing (checksOf s i) = some c ∧
      t = ended (raiseError c.error c.info s)) ∨
    (i ≠ .sreset ∧ s.state ≠ .fault ∧ firstFailing (checksOf s i) = none ∧
      (usesEngine s i = true → s.engineFits = true) ∧ t = ended (effectOf (started s) i)) := by
  by_cases hi : i = .sreset
  · subst hi
    exact .inl ⟨rfl, by injection h with h; exact h.symm⟩
  by_cases hs : s.state = .fault
  · rw [exec_of_fault hi hs] at h
    exact .inr (.inl ⟨hi, hs, by injection h with h; exact h.symm⟩)
  rw [exec_eq hi hs] at h
  split at h
  · next c hc => exact .inr (.inr (.inl ⟨hi, hs, c, hc, by injection h with h; exact h.symm⟩))
  · next hc =>
    split at h
    · cases h
    · next hu =>
      refine .inr (.inr (.inr ⟨hi, hs, hc, fun hu' => ?_, by injection h with h; exact h.symm⟩))
      simpa [hu'] using hu

end Sys2Proof.Machine
end

