-- ==== Sys2Proof/Laws/Frames.lean ====
section
/-! SUPPORT. What the passes of CONV leave unchanged (44_conv.md R200 to R204). -/

namespace Sys2Proof.Machine

/-- `t` differs from `s` at most in what one pass of CONV writes. -/
def ConvFrame (s t : State) : Prop :=
  t = { s with omem := t.omem, posR := t.posR, posC := t.posC, pbuf := t.pbuf, acc := t.acc, qovf := t.qovf }

theorem ConvFrame.refl (s : State) : ConvFrame s s := rfl

theorem ConvFrame.trans {s t u : State} (h : ConvFrame s t) (h' : ConvFrame t u) : ConvFrame s u := by
  unfold ConvFrame at *
  rw [h'] 
  rw [h]

/-- A fold of passes that each keep the frame keeps it. -/
theorem ConvFrame.foldl {α : Type} {f : State → α → State} (hf : ∀ s a, ConvFrame s (f s a)) (l : List α) (s : State) :
    ConvFrame s (l.foldl f s) := by
  induction l generalizing s with
  | nil => exact .refl s
  | cons a l ih => exact (hf s a).trans (ih (f s a))

theorem convFrame_writeOutput (rows cols r c : Nat) (s : State) (o : Nat) : ConvFrame s (writeOutput rows cols r c s o) := rfl

theorem convFrame_convPosition (rows cols : Nat) (s : State) (p : Nat × Nat) : ConvFrame s (convPosition rows cols s p) := by
  refine ConvFrame.trans ?_ (ConvFrame.foldl (convFrame_writeOutput rows cols p.1 p.2) _ _)
  rfl

theorem convFrame_addBias (rows cols o : Nat) (bq : FxAcc) (s : State) (p : Nat × Nat) :
    ConvFrame s (addBias rows cols o bq s p) := rfl

theorem convFrame_biasChannel (rows cols : Nat) (s : State) (o : Nat) : ConvFrame s (biasChannel rows cols s o) := by
  refine ConvFrame.trans ?_ (ConvFrame.foldl (convFrame_addBias rows cols o _) _ _)
  rfl

theorem convFrame_biasPass (rows cols : Nat) (s : State) : ConvFrame s (biasPass rows cols s) := by
  unfold biasPass
  split
  · exact ConvFrame.foldl (convFrame_biasChannel rows cols) _ _
  · exact .refl s

/-- CONV changes OMEM, the output size, the position counters, PBUF, ACC and QOVF only. -/
theorem convFrame_convolve (s : State) : ConvFrame (publishOutDims s) (convolve s) :=
  (ConvFrame.foldl (convFrame_convPosition _ _) _ _).trans (convFrame_biasPass _ _ _)

end Sys2Proof.Machine
end

