-- ==== Sys2Proof/Laws/Conv.lean ====
section
/-! SUPPORT. The loops of CONV: what each pass, and the fold over all positions, leaves in OMEM, PBUF, ACC and QOVF (44_conv.md R200 to R204). -/

namespace Sys2Proof.Machine

/-! ### Positions and output words -/

theorem mem_positions {rows cols : Nat} {p : Nat × Nat} : p ∈ positions rows cols ↔ p.1 < rows ∧ p.2 < cols := by
  obtain ⟨r, c⟩ := p
  simp [positions, List.mem_flatMap]

theorem nodup_positions (rows cols : Nat) : (positions rows cols).Nodup := by
  rw [positions, List.nodup_flatMap]
  refine ⟨fun r _ => List.nodup_range.map fun c c' h => by simpa using h, ?_⟩
  refine List.Pairwise.imp ?_ List.nodup_range
  intro r r' hne
  simp only [Function.onFun, List.disjoint_left, List.mem_map, not_exists, not_and]
  rintro _ ⟨c, -, rfl⟩ c' - h
  exact hne (by simpa using (congrArg Prod.fst h).symm)

/-- Output words of different channels or positions have different indices. -/
theorem omemIndex_inj {rows cols o r c o' r' c' : Nat} (hr : r < rows) (hc : c < cols) (hr' : r' < rows) (hc' : c' < cols)
    (h : omemIndex rows cols o r c = omemIndex rows cols o' r' c') : o = o' ∧ r = r' ∧ c = c' := by
  obtain ⟨h1, h2, h3⟩ := digits_of_number (a := o) hr hc
  obtain ⟨h1', h2', h3'⟩ := digits_of_number (a := o') hr' hc'
  simp only [omemIndex] at h
  exact ⟨by rw [← h3, ← h3', h], by rw [← h2, ← h2', h], by rw [← h1, ← h1', h]⟩

/-- Every output word lies below the size of the output tensor. -/
theorem omemIndex_lt {rows cols n o r c : Nat} (ho : o < n) (hr : r < rows) (hc : c < cols) :
    omemIndex rows cols o r c < n * rows * cols := by
  have h1 : o * rows + r + 1 ≤ n * rows := by nlinarith
  have h2 : (o * rows + r + 1) * cols ≤ n * rows * cols := Nat.mul_le_mul_right _ h1
  simp only [omemIndex]
  nlinarith

/-! ### One position -/

/-- The sum of channel slot `a` at position `(r, c)`: weights of the grid times encoded elements of the patch. -/
def State.posSum (s : State) (a r c : Nat) : Int :=
  ∑ f ∈ Finset.range s.inFeatures, s.weight (f / 128) (a / 128) (f % 128) (a % 128) * (s.encodedElem r c f).1.toInt

theorem ConvFrame.posSum_eq {s t : State} (h : ConvFrame s t) (a r c : Nat) : t.posSum a r c = s.posSum a r c := by
  rw [h]
  rfl

theorem ConvFrame.encodedElem_eq {s t : State} (h : ConvFrame s t) (r c f : Nat) : t.encodedElem r c f = s.encodedElem r c f := by
  rw [h]
  rfl

/-- What the passes of CONV need of a state: canonical memories and geometry registers that describe the layer. -/
structure ConvReady (s : State) : Prop where
  omem : s.omem.wf
  pbuf : s.pbuf.wf
  acc : s.acc.wf
  inFeat : s.inFeat.toNat = s.inFeatures
  rows : s.inFeatures ≤ s.rowTiles.toNat * 128
  cols : s.outCh.toNat ≤ s.colTiles.toNat * 128

theorem ConvReady.of_frame {s t : State} (h : ConvReady s) (hf : ConvFrame s t) (ho : t.omem.wf) (hp : t.pbuf.wf)
    (ha : t.acc.wf) : ConvReady t := by
  obtain ⟨-, -, -, h1, h2, h3⟩ := h
  rw [hf] at ho hp ha ⊢
  exact ⟨ho, hp, ha, h1, h2, h3⟩

theorem omem_wf_writeOutputs {s : State} (h : s.omem.wf) (rows cols r c : Nat) (l : List Nat) :
    (l.foldl (writeOutput rows cols r c) s).omem.wf := by
  induction l generalizing s with
  | nil => exact h
  | cons o l ih => exact ih (Memory.wf_write h _ _)

/-- The output writes of one position change OMEM only. -/
theorem writeOutputs_eq (rows cols r c : Nat) (l : List Nat) (s : State) :
    l.foldl (writeOutput rows cols r c) s = { s with omem := (l.foldl (writeOutput rows cols r c) s).omem } := by
  induction l generalizing s with
  | nil => rfl
  | cons o l ih => rw [List.foldl_cons, ih]; rfl

/-- The output writes of one position: the sum of every listed channel, every other word as before. -/
theorem get?_writeOutputs {s : State} (h : s.omem.wf) {rows cols r c : Nat} (hr : r < rows) (hc : c < cols) (l : List Nat)
    (x : Nat) :
    (∀ o ∈ l, x = omemIndex rows cols o r c →
      (l.foldl (writeOutput rows cols r c) s).omem.get? x = some (s.accAt o)) ∧
    ((∀ o ∈ l, x ≠ omemIndex rows cols o r c) →
      (l.foldl (writeOutput rows cols r c) s).omem.get? x = s.omem.get? x) := by
  induction l generalizing s with
  | nil => simp
  | cons o l ih =>
    rw [List.foldl_cons]
    obtain ⟨h1, h2⟩ := ih (s := writeOutput rows cols r c s o) (Memory.wf_write h _ _)
    have hw : (writeOutput rows cols r c s o).omem.get? x =
        if x = omemIndex rows cols o r c then some (s.accAt o) else s.omem.get? x := Memory.get?_write h _ _ _
    constructor
    · intro o' ho' hx
      by_cases hl : o' ∈ l
      · exact h1 o' hl hx
      · obtain rfl : o' = o := by
          rcases List.mem_cons.mp ho' with e | e
          · exact e
          · exact absurd e hl
        rw [h2, hw, if_pos hx]
        intro o'' ho'' hx''
        obtain ⟨rfl, -⟩ := omemIndex_inj hr hc hr hc (hx.symm.trans hx'')
        exact hl ho''
    · intro hx
      rw [h2 fun o' ho' => hx o' (List.mem_cons_of_mem _ ho'), hw, if_neg (hx o List.mem_cons_self)]

/-- The state after the sums of one position, before its output writes. -/
def summed (p : Nat × Nat) (s : State) : State :=
  accumulate (encodePatch p.1 p.2 { s with posR := BitVec.ofNat 32 p.1, posC := BitVec.ofNat 32 p.2 })

theorem convPosition_eq (rows cols : Nat) (s : State) (p : Nat × Nat) :
    convPosition rows cols s p = (List.range s.outCh.toNat).foldl (writeOutput rows cols p.1 p.2) (summed p s) := rfl

/-- ACC after the sums of one position. -/
theorem acc_summed {s : State} (h : ConvReady s) (p : Nat × Nat) (a : Nat) :
    (summed p s).accAt a = if a < s.colTiles.toNat * 128 then pat 64 (s.posSum a p.1 p.2) else s.accAt a := by
  rw [summed, acc_accumulate (by exact h.acc)]
  rw [schedMvm_encodePatch (by exact h.pbuf) (by exact h.inFeat) (by exact h.rows)]
  rfl

/-- PBUF after the sums of one position. -/
theorem pbuf_summed {s : State} (h : ConvReady s) (p : Nat × Nat) (x : Nat) :
    (summed p s).pbufAt x = if x < s.inFeatures then (s.encodedElem p.1 p.2 x).1 else s.pbufAt x :=
  pbuf_encodePatch (s := { s with posR := BitVec.ofNat 32 p.1, posC := BitVec.ofNat 32 p.2 }) h.pbuf p.1 p.2 x

/-- After one position the state is ready for the next. -/
theorem ConvReady.convPosition {s : State} (h : ConvReady s) (rows cols : Nat) (p : Nat × Nat) :
    ConvReady (convPosition rows cols s p) := by
  refine h.of_frame (convFrame_convPosition rows cols s p) ?_ ?_ ?_
  · rw [convPosition_eq]
    exact omem_wf_writeOutputs (s := summed p s) h.omem rows cols p.1 p.2 _
  · rw [convPosition_eq, writeOutputs_eq]
    exact Memory.wf_store h.pbuf _
  · rw [convPosition_eq, writeOutputs_eq]
    exact Memory.wf_store h.acc _

/-- One position: the sum of every channel in its output word, every other word as before. -/
theorem get?_convPosition {s : State} (h : ConvReady s) {rows cols : Nat} {p : Nat × Nat} (hr : p.1 < rows)
    (hc : p.2 < cols) (x : Nat) :
    (∀ o < s.outCh.toNat, x = omemIndex rows cols o p.1 p.2 →
      (convPosition rows cols s p).omem.get? x = some (pat 64 (s.posSum o p.1 p.2))) ∧
    ((∀ o < s.outCh.toNat, x ≠ omemIndex rows cols o p.1 p.2) →
      (convPosition rows cols s p).omem.get? x = s.omem.get? x) := by
  obtain ⟨h1, h2⟩ := get?_writeOutputs (s := summed p s) h.omem hr hc (List.range s.outCh.toNat) x
  rw [convPosition_eq]
  refine ⟨fun o ho hx => ?_, fun hx => h2 fun o ho => hx o (List.mem_range.mp ho)⟩
  rw [h1 o (List.mem_range.mpr ho) hx, acc_summed h, if_pos (lt_of_lt_of_le ho h.cols)]

/-- QOVF after one position. -/
theorem qovf_convPosition (rows cols : Nat) (s : State) (p : Nat × Nat) :
    (convPosition rows cols s p).qovf =
      (s.qovf || (List.range s.inFeatures).any fun f => (s.encodedElem p.1 p.2 f).2) := by
  rw [convPosition_eq, writeOutputs_eq]
  rfl

/-! ### All positions -/

theorem ConvReady.foldPositions {s : State} (h : ConvReady s) (rows cols : Nat) (l : List (Nat × Nat)) :
    ConvReady (l.foldl (Machine.convPosition rows cols) s) := by
  induction l generalizing s with
  | nil => exact h
  | cons p l ih => exact ih (h.convPosition rows cols p)

/-- All positions: the sum of every channel at every listed position in its output word, every other word as before. -/
theorem get?_foldPositions {s : State} (h : ConvReady s) {rows cols : Nat} {l : List (Nat × Nat)}
    (hl : ∀ p ∈ l, p.1 < rows ∧ p.2 < cols) (x : Nat) :
    (∀ p ∈ l, ∀ o < s.outCh.toNat, x = omemIndex rows cols o p.1 p.2 →
      (l.foldl (convPosition rows cols) s).omem.get? x = some (pat 64 (s.posSum o p.1 p.2))) ∧
    ((∀ p ∈ l, ∀ o < s.outCh.toNat, x ≠ omemIndex rows cols o p.1 p.2) →
      (l.foldl (convPosition rows cols) s).omem.get? x = s.omem.get? x) := by
  induction l generalizing s with
  | nil => simp
  | cons p l ih =>
    rw [List.foldl_cons]
    have hf := convFrame_convPosition rows cols s p
    have ho : (convPosition rows cols s p).outCh = s.outCh := by rw [hf]
    obtain ⟨i1, i2⟩ := ih (h.convPosition rows cols p) fun q hq => hl q (List.mem_cons_of_mem _ hq)
    obtain ⟨hr, hc⟩ := hl p List.mem_cons_self
    obtain ⟨c1, c2⟩ := get?_convPosition h hr hc x
    rw [ho] at i1 i2
    constructor
    · intro q hq o hlt hx
      by_cases hql : q ∈ l
      · rw [i1 q hql o hlt hx, hf.posSum_eq]
      · obtain rfl : q = p := by
          rcases List.mem_cons.mp hq with e | e
          · exact e
          · exact absurd e hql
        rw [i2, c1 o hlt hx]
        intro q' hq' o' hlt' hx'
        obtain ⟨hr', hc'⟩ := hl q' (List.mem_cons_of_mem _ hq')
        obtain ⟨-, e1, e2⟩ := omemIndex_inj hr hc hr' hc' (hx.symm.trans hx')
        exact hql (by rw [show q = q' from Prod.ext e1 e2]; exact hq')
    · intro hx
      rw [i2 fun q hq => hx q (List.mem_cons_of_mem _ hq), c2 (hx p List.mem_cons_self)]

/-- QOVF after all positions. -/
theorem qovf_foldPositions (rows cols : Nat) (l : List (Nat × Nat)) (s : State) :
    (l.foldl (convPosition rows cols) s).qovf =
      (s.qovf || l.any fun p => (List.range s.inFeatures).any fun f => (s.encodedElem p.1 p.2 f).2) := by
  induction l generalizing s with
  | nil => simp
  | cons p l ih =>
    have hf := convFrame_convPosition rows cols s p
    have hi : (convPosition rows cols s p).inFeatures = s.inFeatures := by rw [hf]; rfl
    rw [List.foldl_cons, ih, qovf_convPosition, List.any_cons, hi]
    simp only [hf.encodedElem_eq, Bool.or_assoc]

/-! ### The bias pass -/

/-- The saturated sum of an output word and a bias, before it is written (44_conv.md R202). -/
def biased (w bq : FxAcc) : Int := w.toInt + bq.toInt

theorem omemAt_of_get? {s t : State} {x : Nat} (hp : t.powerOns = s.powerOns) (h : t.omem.get? x = s.omem.get? x) :
    t.omemAt x = s.omemAt x := by
  simp only [State.omemAt, State.unwritten, h, hp]

theorem ConvFrame.powerOns_eq {s t : State} (h : ConvFrame s t) : t.powerOns = s.powerOns := by rw [h]

theorem get?_addBias {s : State} (h : s.omem.wf) (rows cols o : Nat) (bq : FxAcc) (p : Nat × Nat) (x : Nat) :
    (addBias rows cols o bq s p).omem.get? x =
      if x = omemIndex rows cols o p.1 p.2 then some (pat 64 (sat 64 (biased (s.omemAt x) bq))) else s.omem.get? x := by
  refine (Memory.get?_write h _ _ _).trans ?_
  split
  · next e => subst e; rfl
  · rfl

theorem omem_wf_foldAddBias {s : State} (h : s.omem.wf) (rows cols o : Nat) (bq : FxAcc) (l : List (Nat × Nat)) :
    (l.foldl (addBias rows cols o bq) s).omem.wf := by
  induction l generalizing s with
  | nil => exact h
  | cons p l ih => exact ih (Memory.wf_write h _ _)

/-- The bias of one channel added at every listed position; every other word as before. -/
theorem get?_foldAddBias {s : State} (h : s.omem.wf) {rows cols o : Nat} (bq : FxAcc) {l : List (Nat × Nat)}
    (hn : l.Nodup) (hl : ∀ p ∈ l, p.1 < rows ∧ p.2 < cols) (x : Nat) :
    (∀ p ∈ l, x = omemIndex rows cols o p.1 p.2 →
      (l.foldl (addBias rows cols o bq) s).omem.get? x = some (pat 64 (sat 64 (biased (s.omemAt x) bq)))) ∧
    ((∀ p ∈ l, x ≠ omemIndex rows cols o p.1 p.2) →
      (l.foldl (addBias rows cols o bq) s).omem.get? x = s.omem.get? x) := by
  induction l generalizing s with
  | nil => simp
  | cons p l ih =>
    obtain ⟨hp, hn⟩ := List.nodup_cons.mp hn
    obtain ⟨hr, hc⟩ := hl p List.mem_cons_self
    rw [List.foldl_cons]
    obtain ⟨i1, i2⟩ := ih (s := addBias rows cols o bq s p) (Memory.wf_write h _ _) hn
      fun q hq => hl q (List.mem_cons_of_mem _ hq)
    have hw := get?_addBias h rows cols o bq p x
    constructor
    · intro q hq hx
      rcases List.mem_cons.mp hq with rfl | hq
      · rw [i2, hw, if_pos hx]
        intro q' hq' hx'
        obtain ⟨hr', hc'⟩ := hl q' (List.mem_cons_of_mem _ hq')
        obtain ⟨-, e1, e2⟩ := omemIndex_inj hr hc hr' hc' (hx.symm.trans hx')
        exact hp (by rw [show q = q' from Prod.ext e1 e2]; exact hq')
      · have hne : x ≠ omemIndex rows cols o p.1 p.2 := by
          intro hx'
          obtain ⟨hr', hc'⟩ := hl q (List.mem_cons_of_mem _ hq)
          obtain ⟨-, e1, e2⟩ := omemIndex_inj hr hc hr' hc' (hx'.symm.trans hx)
          exact hp (by rw [show p = q from Prod.ext e1 e2]; exact hq)
        rw [i1 q hq hx, omemAt_of_get? (s := s) (t := addBias rows cols o bq s p) rfl (by rw [hw, if_neg hne])]
    · intro hx
      rw [i2 fun q hq => hx q (List.mem_cons_of_mem _ hq), hw, if_neg (hx p List.mem_cons_self)]

/-- QOVF after the bias of one channel is added: set where some addition saturates. -/
theorem qovf_foldAddBias {s : State} (h : s.omem.wf) {rows cols o : Nat} (bq : FxAcc) {l : List (Nat × Nat)}
    (hn : l.Nodup) (hl : ∀ p ∈ l, p.1 < rows ∧ p.2 < cols) :
    (l.foldl (addBias rows cols o bq) s).qovf = (s.qovf || l.any fun p =>
      decide (sat 64 (biased (s.omemAt (omemIndex rows cols o p.1 p.2)) bq) ≠
        biased (s.omemAt (omemIndex rows cols o p.1 p.2)) bq)) := by
  induction l generalizing s with
  | nil => simp
  | cons p l ih =>
    obtain ⟨hp, hn⟩ := List.nodup_cons.mp hn
    obtain ⟨hr, hc⟩ := hl p List.mem_cons_self
    rw [List.foldl_cons, ih (s := addBias rows cols o bq s p) (Memory.wf_write h _ _) hn
      fun q hq => hl q (List.mem_cons_of_mem _ hq), List.any_cons, ← Bool.or_assoc]
    refine congrArg₂ _ rfl (Bool.eq_iff_iff.mpr ?_)
    simp only [List.any_eq_true]
    refine exists_congr fun q => and_congr_right fun hq => ?_
    have hne : omemIndex rows cols o q.1 q.2 ≠ omemIndex rows cols o p.1 p.2 := by
      intro e
      obtain ⟨hr', hc'⟩ := hl q (List.mem_cons_of_mem _ hq)
      obtain ⟨-, e1, e2⟩ := omemIndex_inj hr' hc' hr hc e
      exact hp (by rw [show p = q from Prod.ext e1.symm e2.symm]; exact hq)
    rw [omemAt_of_get? (s := s) (t := addBias rows cols o bq s p) rfl (by rw [get?_addBias h, if_neg hne])]

/-- The quantized bias of a channel, with its overflow bit. -/
def State.biasOf (s : State) (o : Nat) : FxAcc × Bool := quantize 64 s.fOut (f32 (s.bmemAt o))

theorem ConvFrame.biasOf_eq {s t : State} (h : ConvFrame s t) (o : Nat) : t.biasOf o = s.biasOf o := by
  rw [h]
  rfl

theorem biasChannel_eq (rows cols : Nat) (s : State) (o : Nat) : biasChannel rows cols s o =
    (positions rows cols).foldl (addBias rows cols o (s.biasOf o).1) (noteOverflow (s.biasOf o).2 s) := rfl

theorem get?_biasChannel {s : State} (h : s.omem.wf) (rows cols o x : Nat) :
    (∀ p ∈ positions rows cols, x = omemIndex rows cols o p.1 p.2 →
      (biasChannel rows cols s o).omem.get? x = some (pat 64 (sat 64 (biased (s.omemAt x) (s.biasOf o).1)))) ∧
    ((∀ p ∈ positions rows cols, x ≠ omemIndex rows cols o p.1 p.2) →
      (biasChannel rows cols s o).omem.get? x = s.omem.get? x) := by
  rw [biasChannel_eq]
  exact get?_foldAddBias (s := noteOverflow (s.biasOf o).2 s) h _ (nodup_positions rows cols)
    (fun p hp => mem_positions.mp hp) x

theorem omem_wf_biasChannel {s : State} (h : s.omem.wf) (rows cols o : Nat) : (biasChannel rows cols s o).omem.wf :=
  omem_wf_foldAddBias (s := noteOverflow (s.biasOf o).2 s) h _ _ _ _ _

theorem omem_wf_foldBias {s : State} (h : s.omem.wf) (rows cols : Nat) (l : List Nat) :
    (l.foldl (biasChannel rows cols) s).omem.wf := by
  induction l generalizing s with
  | nil => exact h
  | cons o l ih => exact ih (omem_wf_biasChannel h rows cols o)

/-- The biases of the listed channels added at every position; every other word as before. -/
theorem get?_foldBias {s : State} (h : s.omem.wf) {rows cols : Nat} {l : List Nat} (hn : l.Nodup) (x : Nat) :
    (∀ o ∈ l, ∀ p ∈ positions rows cols, x = omemIndex rows cols o p.1 p.2 →
      (l.foldl (biasChannel rows cols) s).omem.get? x = some (pat 64 (sat 64 (biased (s.omemAt x) (s.biasOf o).1)))) ∧
    ((∀ o ∈ l, ∀ p ∈ positions rows cols, x ≠ omemIndex rows cols o p.1 p.2) →
      (l.foldl (biasChannel rows cols) s).omem.get? x = s.omem.get? x) := by
  induction l generalizing s with
  | nil => simp
  | cons o l ih =>
    obtain ⟨ho, hn⟩ := List.nodup_cons.mp hn
    rw [List.foldl_cons]
    have hf := convFrame_biasChannel rows cols s o
    obtain ⟨i1, i2⟩ := ih (omem_wf_biasChannel h rows cols o) hn
    obtain ⟨c1, c2⟩ := get?_biasChannel h rows cols o x
    constructor
    · intro o' ho' p hp hx
      obtain ⟨hr, hc⟩ := mem_positions.mp hp
      rcases List.mem_cons.mp ho' with rfl | hol
      · rw [i2, c1 p hp hx]
        intro o'' ho'' q hq hx'
        obtain ⟨hr', hc'⟩ := mem_positions.mp hq
        obtain ⟨rfl, -⟩ := omemIndex_inj hr hc hr' hc' (hx.symm.trans hx')
        exact ho ho''
      · have hne : ∀ q ∈ positions rows cols, x ≠ omemIndex rows cols o q.1 q.2 := by
          intro q hq hx'
          obtain ⟨hr', hc'⟩ := mem_positions.mp hq
          obtain ⟨rfl, -⟩ := omemIndex_inj hr hc hr' hc' (hx.symm.trans hx')
          exact ho hol
        rw [i1 o' hol p hp hx, hf.biasOf_eq, omemAt_of_get? hf.powerOns_eq (c2 hne)]
    · intro hx
      rw [i2 fun o' ho' => hx o' (List.mem_cons_of_mem _ ho'), c2 (hx o List.mem_cons_self)]

/-- QOVF after the bias pass over the listed channels. -/
theorem qovf_foldBias {s : State} (h : s.omem.wf) {rows cols : Nat} {l : List Nat} (hn : l.Nodup) :
    (l.foldl (biasChannel rows cols) s).qovf = (s.qovf || l.any fun o => (s.biasOf o).2 ||
      (positions rows cols).any fun p =>
        decide (sat 64 (biased (s.omemAt (omemIndex rows cols o p.1 p.2)) (s.biasOf o).1) ≠
          biased (s.omemAt (omemIndex rows cols o p.1 p.2)) (s.biasOf o).1)) := by
  induction l generalizing s with
  | nil => simp
  | cons o l ih =>
    obtain ⟨ho, hn⟩ := List.nodup_cons.mp hn
    have hf := convFrame_biasChannel rows cols s o
    have hq : (biasChannel rows cols s o).qovf = (s.qovf || ((s.biasOf o).2 || (positions rows cols).any fun p =>
        decide (sat 64 (biased (s.omemAt (omemIndex rows cols o p.1 p.2)) (s.biasOf o).1) ≠
          biased (s.omemAt (omemIndex rows cols o p.1 p.2)) (s.biasOf o).1))) := by
      rw [biasChannel_eq, qovf_foldAddBias (s := noteOverflow (s.biasOf o).2 s) h _ (nodup_positions rows cols)
        fun p hp => mem_positions.mp hp, ← Bool.or_assoc]
      rfl
    rw [List.foldl_cons, ih (omem_wf_biasChannel h rows cols o) hn, hq, List.any_cons, Bool.or_assoc]
    refine congrArg₂ _ rfl (congrArg₂ _ rfl (Bool.eq_iff_iff.mpr ?_))
    simp only [List.any_eq_true, hf.biasOf_eq]
    refine exists_congr fun o' => and_congr_right fun ho' => ?_
    rw [Bool.or_eq_true, Bool.or_eq_true, List.any_eq_true, List.any_eq_true]
    refine or_congr_right (exists_congr fun p => and_congr_right fun hp => ?_)
    rw [omemAt_of_get? hf.powerOns_eq ((get?_biasChannel h rows cols o _).2 ?_)]
    intro q hq hx
    obtain ⟨hr, hc⟩ := mem_positions.mp hp
    obtain ⟨hr', hc'⟩ := mem_positions.mp hq
    obtain ⟨rfl, -⟩ := omemIndex_inj hr hc hr' hc' hx
    exact ho ho'

end Sys2Proof.Machine
end

