-- ==== Sys2Proof/Laws/Decode.lean ====
section
/-! SUPPORT. The decoder as a search of the opcode table. -/

namespace Sys2Proof

theorem matchRow_some {w : CmdWord} {i : Instr} {l : List OpRow} (h : matchRow w l = some i) :
    ∃ r ∈ l, w &&& r.mask = r.pattern ∧ i = r.build w := by
  induction l with
  | nil => simp [matchRow] at h
  | cons r l ih =>
    unfold matchRow at h
    split at h
    · next hr => exact ⟨r, List.mem_cons_self, hr, by injection h with h; exact h.symm⟩
    · obtain ⟨r', hm, hr'⟩ := ih h
      exact ⟨r', List.mem_cons_of_mem _ hm, hr'⟩

/-- A word that decodes matches a row, whose immediates it carries. -/
theorem decode_ok_row {w : CmdWord} {i : Instr} (h : decode w = .ok i) :
    ∃ r ∈ opcodeTable, w &&& r.mask = r.pattern ∧ i = r.build w := by
  unfold decode at h
  split at h
  · next j hj => injection h with h; subst h; exact matchRow_some hj
  · cases h

theorem matchRow_none {w : CmdWord} {l : List OpRow} (h : matchRow w l = none) : ∀ r ∈ l, w &&& r.mask ≠ r.pattern := by
  induction l with
  | nil => simp
  | cons r l ih =>
    unfold matchRow at h
    split at h
    · cases h
    · next hr => simpa [hr] using ih h

/-- A word that is rejected matches no row. -/
theorem decode_error_row {w : CmdWord} {e : DecodeError} (h : decode w = .error e) :
    ∀ r ∈ opcodeTable, w &&& r.mask ≠ r.pattern := by
  unfold decode at h
  split at h
  · cases h
  · next hn => exact matchRow_none hn

/-- The rows differ in bits that both their masks keep, so no word matches two rows (30_encoding.md R104). -/
theorem opcodeTable_disjoint :
    opcodeTable.Pairwise fun r r' => r.pattern &&& r'.mask ≠ r'.pattern &&& r.mask := by
  decide

theorem row_unique {w : CmdWord} {r r' : OpRow} (hd : r.pattern &&& r'.mask ≠ r'.pattern &&& r.mask)
    (h : w &&& r.mask = r.pattern) : w &&& r'.mask ≠ r'.pattern := by
  rintro h'
  apply hd
  rw [← h, ← h', BitVec.and_assoc, BitVec.and_assoc, BitVec.and_comm r.mask]

theorem matchRow_of_mem {w : CmdWord} {r : OpRow} {l : List OpRow}
    (hp : l.Pairwise fun r r' => r.pattern &&& r'.mask ≠ r'.pattern &&& r.mask) (hm : r ∈ l)
    (hr : w &&& r.mask = r.pattern) : matchRow w l = some (r.build w) := by
  induction l with
  | nil => cases hm
  | cons r' l ih =>
    obtain ⟨hall, hp⟩ := List.pairwise_cons.mp hp
    unfold matchRow
    rcases List.mem_cons.mp hm with rfl | hm
    · rw [if_pos hr]
    · have : w &&& r'.mask ≠ r'.pattern := fun h' => row_unique (hall r hm) h' hr
      rw [if_neg this]
      exact ih hp hm

/-- A word that matches a row decodes to the row's command. -/
theorem decode_of_row {w : CmdWord} {r : OpRow} (hm : r ∈ opcodeTable) (hr : w &&& r.mask = r.pattern) :
    decode w = .ok (r.build w) := by
  simp [decode, matchRow_of_mem opcodeTable_disjoint hm hr]

end Sys2Proof
end

