-- ==== Sys2Proof/Laws/Grid.lean ====
section
/-! SUPPORT. The layout of the tile grid: cells have distinct indices inside the grid, the cells BUILD lists rise, and each cell of the grid reads as its slice afterwards (20_memory.md R80, 41_build.md R152, R153). -/

namespace Sys2Proof.Machine

/-! ### Indices -/

theorem ceilDiv_mul_ge (a : Nat) {b : Nat} (hb : 0 < b) : a ≤ ceilDiv a b * b := by
  unfold ceilDiv
  have := Nat.div_add_mod (a + b - 1) b
  have := Nat.mod_lt (a + b - 1) hb
  have : (a + b - 1) / b * b = b * ((a + b - 1) / b) := Nat.mul_comm _ _
  omega

theorem lt_ceilDiv_mul {a i r b : Nat} (h : i * b + r < a) (hr : r < b) : i < ceilDiv a b := by
  by_contra hc
  have h1 := ceilDiv_mul_ge a (b := b) (by omega)
  have h2 : ceilDiv a b * b ≤ i * b := Nat.mul_le_mul_right b (by omega)
  omega

/-- Every cell of the grid lies below the number of its cells. -/
theorem cellIndex_lt {R C N i j k row col : Nat} (hi : i < R) (hj : j < C) (hk : k < N) (hr : row < 128) (hc : col < 128) :
    cellIndex C N i j k row col < R * C * N * planeCells := by
  have h1 : i * C + j + 1 ≤ R * C := by nlinarith
  have h2 : (i * C + j) * N + k + 1 ≤ R * C * N := by nlinarith
  have h3 : ((i * C + j) * N + k) * 16384 + 16384 ≤ R * C * N * 16384 := by omega
  simp only [cellIndex, planeCells, tileDim]
  omega

/-- Two cells with one index are one cell. -/
theorem cellIndex_inj {C N i j k row col i' j' k' row' col' : Nat} (hj : j < C) (hk : k < N) (hr : row < 128)
    (hc : col < 128) (hj' : j' < C) (hk' : k' < N) (hr' : row' < 128) (hc' : col' < 128)
    (h : cellIndex C N i j k row col = cellIndex C N i' j' k' row' col') :
    i = i' ∧ j = j' ∧ k = k' ∧ row = row' ∧ col = col' := by
  simp only [cellIndex, tileDim] at h
  obtain ⟨hcol, hrow, h⟩ : col = col' ∧ row = row' ∧ (i * C + j) * N + k = (i' * C + j') * N + k' := by omega
  have split : ∀ {a b x y n : Nat}, x < n → y < n → a * n + x = b * n + y → a = b ∧ x = y := by
    intro a b x y n hx hy he
    have h1 : (a * n + x) / n = a := by
      rw [Nat.mul_comm, Nat.mul_add_div (by omega), Nat.div_eq_of_lt hx, Nat.add_zero]
    have h2 : (b * n + y) / n = b := by
      rw [Nat.mul_comm, Nat.mul_add_div (by omega), Nat.div_eq_of_lt hy, Nat.add_zero]
    have : a = b := by rw [← h1, ← h2, he]
    subst this
    exact ⟨rfl, by omega⟩
  obtain ⟨h2, rfl⟩ := split hk hk' h
  obtain ⟨rfl, rfl⟩ := split hj hj' h2
  exact ⟨rfl, rfl, rfl, hrow, hcol⟩

/-! ### The list of cells -/

/-- Blocks of cells laid one after another rise. -/
theorem rising_blocks {w : Nat} (b B n : Nat) (f : Nat → List (Nat × BitVec w)) (hr : ∀ i < n, Memory.Rising (f i))
    (hb : ∀ i < n, ∀ c ∈ f i, b + i * B ≤ c.1 ∧ c.1 < b + (i + 1) * B) : Memory.Rising ((List.range n).flatMap f) := by
  induction n with
  | zero => simp [Memory.Rising]
  | succ n ih =>
    rw [List.range_succ, List.flatMap_append]
    refine List.pairwise_append.mpr ⟨ih (fun i h => hr i (by omega)) (fun i h => hb i (by omega)), ?_, ?_⟩
    · simpa using hr n (by omega)
    · intro c hc d hd
      obtain ⟨i, hi, hc⟩ := List.mem_flatMap.mp hc
      have hi := List.mem_range.mp hi
      have h1 := (hb i (by omega) c hc).2
      have h2 := (hb n (by omega) d (by simpa using hd)).1
      have h3 : (i + 1) * B ≤ n * B := Nat.mul_le_mul_right B (by omega)
      omega

theorem mem_planeEntries {s : State} {i j k : Nat} {c : Nat × BitVec 16} :
    c ∈ planeEntries s i j k ↔ ∃ row col, row < 128 ∧ col < 128 ∧ i * 128 + row < s.inFeatures ∧
      j * 128 + col < s.outCh.toNat ∧
      c = (cellIndex s.layerColTiles s.layerSlices i j k row col,
        BitVec.ofNat 16 (slice (quantizedWeight s (i * 128 + row) (j * 128 + col)).1 s.sliceW.toNat k)) := by
  simp only [planeEntries, List.mem_flatMap, List.mem_map, List.mem_range, tileDim]
  constructor
  · rintro ⟨row, hr, col, hc, rfl⟩
    exact ⟨row, col, by omega, by omega, by omega, by omega, rfl⟩
  · rintro ⟨row, col, hr, hc, hf, ho, rfl⟩
    exact ⟨row, by omega, col, by omega, rfl⟩

theorem mem_gridEntries {s : State} {c : Nat × BitVec 16} :
    c ∈ gridEntries s ↔ ∃ i j k row col, i < s.layerRowTiles ∧ j < s.layerColTiles ∧ k < s.layerSlices ∧
      row < 128 ∧ col < 128 ∧ i * 128 + row < s.inFeatures ∧ j * 128 + col < s.outCh.toNat ∧
      c = (cellIndex s.layerColTiles s.layerSlices i j k row col,
        BitVec.ofNat 16 (slice (quantizedWeight s (i * 128 + row) (j * 128 + col)).1 s.sliceW.toNat k)) := by
  simp only [gridEntries, List.mem_flatMap, List.mem_range, mem_planeEntries]
  constructor
  · rintro ⟨i, hi, j, hj, k, hk, row, col, h⟩
    exact ⟨i, j, k, row, col, hi, hj, hk, h⟩
  · rintro ⟨i, j, k, row, col, hi, hj, hk, h⟩
    exact ⟨i, hi, j, hj, k, hk, row, col, h⟩

theorem rising_planeEntries (s : State) (i j k : Nat) : Memory.Rising (planeEntries s i j k) := by
  refine rising_blocks (((i * s.layerColTiles + j) * s.layerSlices + k) * 16384) 128 _ _ (fun row hr => ?_) fun row hr c hc => ?_
  · refine List.pairwise_map.mpr (List.pairwise_lt_range.imp fun h => ?_)
    simpa [cellIndex] using h
  · obtain ⟨col, hcol, rfl⟩ := List.mem_map.mp hc
    have := List.mem_range.mp hcol
    simp only [tileDim] at hr this
    simp only [cellIndex, tileDim]
    omega

/-- The cells BUILD lists rise. -/
theorem rising_gridEntries (s : State) : Memory.Rising (gridEntries s) := by
  have plane : ∀ i j k c, c ∈ planeEntries s i j k →
      ((i * s.layerColTiles + j) * s.layerSlices + k) * 16384 ≤ c.1 ∧
      c.1 < ((i * s.layerColTiles + j) * s.layerSlices + k + 1) * 16384 := by
    intro i j k c hc
    obtain ⟨row, col, hr, hcol, -, -, rfl⟩ := mem_planeEntries.mp hc
    simp only [cellIndex, tileDim]
    omega
  refine rising_blocks 0 (s.layerColTiles * s.layerSlices * 16384) _ _ (fun i _ => ?_) fun i _ c hc => ?_
  · refine rising_blocks (i * s.layerColTiles * s.layerSlices * 16384) (s.layerSlices * 16384) _ _ (fun j _ => ?_)
      fun j _ c hc => ?_
    · refine rising_blocks ((i * s.layerColTiles + j) * s.layerSlices * 16384) 16384 _ _
        (fun k _ => rising_planeEntries s i j k) fun k _ c hc => ?_
      have := plane i j k c hc
      constructor <;> nlinarith
    · obtain ⟨k, hk, hc⟩ := List.mem_flatMap.mp hc
      have hk := List.mem_range.mp hk
      have := plane i j k c hc
      constructor <;> nlinarith
  · obtain ⟨j, hj, hc⟩ := List.mem_flatMap.mp hc
    obtain ⟨k, hk, hc⟩ := List.mem_flatMap.mp hc
    have hj := List.mem_range.mp hj
    have hk := List.mem_range.mp hk
    have := plane i j k c hc
    have h1 : j * s.layerSlices + k + 1 ≤ s.layerColTiles * s.layerSlices := by nlinarith
    have h2 : (i * s.layerColTiles + j) * s.layerSlices + k = i * (s.layerColTiles * s.layerSlices) + (j * s.layerSlices + k) := by
      ring
    rw [h2] at this
    constructor <;> nlinarith

theorem gridEntries_lt (s : State) : ∀ c ∈ gridEntries s, c.1 < s.gridCells := by
  intro c hc
  obtain ⟨i, j, k, row, col, hi, hj, hk, hr, hcol, -, -, rfl⟩ := mem_gridEntries.mp hc
  exact cellIndex_lt hi hj hk hr hcol

/-- The word BUILD stores at a coordinate: the quantized weight, or 0 in the padding (41_build.md R152). -/
def coordinateWord (s : State) (gr gc : Nat) : Fx16 :=
  if gr < s.inFeatures ∧ gc < s.outCh.toNat then (quantizedWeight s gr gc).1 else 0

theorem lookup_gridEntries {s : State} {i j k row col : Nat} (hi : i < s.layerRowTiles) (hj : j < s.layerColTiles)
    (hk : k < s.layerSlices) (hr : row < 128) (hc : col < 128) :
    (Memory.lookup (cellIndex s.layerColTiles s.layerSlices i j k row col) (gridEntries s)).getD 0 =
      BitVec.ofNat 16 (slice (coordinateWord s (i * 128 + row) (j * 128 + col)) s.sliceW.toNat k) := by
  unfold coordinateWord
  split
  · next h =>
    have hm := mem_gridEntries.mpr ⟨i, j, k, row, col, hi, hj, hk, hr, hc, h.1, h.2, rfl⟩
    rw [Memory.lookup_of_mem (rising_gridEntries s) hm, Option.getD_some]
  · next h =>
    rw [Memory.lookup_none_of_forall_ne]
    · rw [slice_zero]
      rfl
    · intro c hm e
      obtain ⟨i', j', k', row', col', -, hj', hk', hr', hc', hf, ho, rfl⟩ := mem_gridEntries.mp hm
      obtain ⟨rfl, rfl, rfl, rfl, rfl⟩ := cellIndex_inj hj' hk' hr' hc' hj hk hr hc e
      exact h ⟨hf, ho⟩

/-- What TSTORE holds at every cell of the grid after BUILD's writes. -/
theorem get?_built {s : State} (hm : s.tstore.wf) {i j k row col : Nat} (hi : i < s.layerRowTiles)
    (hj : j < s.layerColTiles) (hk : k < s.layerSlices) (hr : row < 128) (hc : col < 128) :
    (s.tstore.overwrite s.gridCells (gridEntries s)).get? (cellIndex s.layerColTiles s.layerSlices i j k row col) =
      some (BitVec.ofNat 16 (slice (coordinateWord s (i * 128 + row) (j * 128 + col)) s.sliceW.toNat k)) := by
  have hlt : cellIndex s.layerColTiles s.layerSlices i j k row col < s.gridCells := cellIndex_lt hi hj hk hr hc
  rw [Memory.get?_overwrite hm (rising_gridEntries s) (gridEntries_lt s), if_pos hlt,
    lookup_gridEntries hi hj hk hr hc]

/-- Beyond the grid TSTORE keeps its cells. -/
theorem get?_beyond {s : State} (hm : s.tstore.wf) {x : Nat} (hx : s.gridCells ≤ x) :
    (s.tstore.overwrite s.gridCells (gridEntries s)).get? x = s.tstore.get? x := by
  rw [Memory.get?_overwrite hm (rising_gridEntries s) (gridEntries_lt s), if_neg (by omega)]

theorem buildOverflow_iff (s : State) : buildOverflow s = true ↔
    ∃ gr < s.inFeatures, ∃ gc < s.outCh.toNat, (quantizedWeight s gr gc).2 = true := by
  simp only [buildOverflow, List.any_eq_true, List.mem_range]
  constructor
  · rintro ⟨gc, hc, gr, hr, h⟩
    exact ⟨gr, hr, gc, hc, h⟩
  · rintro ⟨gr, hr, gc, hc, h⟩
    exact ⟨gc, hc, gr, hr, h⟩

end Sys2Proof.Machine
end

