-- ==== Sys2Proof/Laws/HostAccess.lean ====
section
/-! SUPPORT. Host addresses in plain numbers (20_memory.md R71, R72). -/

namespace Sys2Proof.Machine

/-- The space number is the address divided by `2^28`. -/
theorem spaceField_eq (a : HostAddr) : spaceField a = a.toNat / 2 ^ 28 := by
  have := a.isLt
  simp only [spaceField, BitVec.extractLsb'_toNat, Nat.shiftRight_eq_div_pow]
  omega

/-- The index is the address modulo `2^28`. -/
theorem indexField_eq (a : HostAddr) : indexField a = a.toNat % 2 ^ 28 := by
  simp [indexField, BitVec.extractLsb'_toNat]

theorem ofNumber_spaceNumber (sp : Space) : Space.ofNumber (Script.spaceNumber sp) = some sp := by cases sp <;> rfl

theorem ofNumber_unmapped {n : Nat} (h : 9 ≤ n) : Space.ofNumber n = none := by
  rw [Space.ofNumber, List.getD_eq_default]
  simpa using h

theorem ofIndex_registerIndex (c : Csr) : Csr.ofIndex (Script.registerIndex c) = some c := by cases c <;> rfl

theorem toNat_wordAddr (sp : Space) {i : Nat} (h : i < 2 ^ 28) :
    (Script.wordAddr sp i).toNat = Script.spaceNumber sp * 2 ^ 28 + i := by
  rw [Script.wordAddr, BitVec.toNat_ofNat, Nat.mod_eq_of_lt]
  cases sp <;> simp only [Script.spaceNumber] <;> omega

theorem spaceField_wordAddr (sp : Space) {i : Nat} (h : i < 2 ^ 28) :
    spaceField (Script.wordAddr sp i) = Script.spaceNumber sp := by
  rw [spaceField_eq, toNat_wordAddr sp h]
  omega

theorem indexField_wordAddr (sp : Space) {i : Nat} (h : i < 2 ^ 28) : indexField (Script.wordAddr sp i) = i := by
  rw [indexField_eq, toNat_wordAddr sp h]
  omega

/-- A host read does not depend on the accesses still pending. -/
theorem hostRead_port (s : State) (rest : List PortEvent) (a : HostAddr) :
    hostRead { s with port := rest } a = hostRead s a := by
  unfold hostRead
  congr 1

end Sys2Proof.Machine
end

