-- ==== Sys2Proof/Laws/Layer.lean ====
section
/-! SUPPORT. What the checks of a layer and of a call say in plain numbers, and what the register invariant then gives (41_build.md R151, 44_conv.md R196). -/

namespace Sys2Proof.Machine

theorem bitVec_eq_zero_iff {n : Nat} (b : BitVec n) : b = 0 ↔ b.toNat = 0 := by
  rw [← BitVec.toNat_inj]
  simp

/-- A register that `zeroCheck` passes. -/
theorem zeroCheck_passes {w : Nat} (r : BitVec w) (i : Nat) : (zeroCheck r i).failed = false ↔ 1 ≤ r.toNat := by
  simp only [zeroCheck, decide_eq_false_iff_not, bitVec_eq_zero_iff]
  omega

theorem capacityCheck_passes (need cap i : Nat) : (capacityCheck need cap i).failed = false ↔ need ≤ cap := by
  simp [capacityCheck]

/-- The checks of `ValidateLayer` pass exactly for a valid layer. -/
theorem layerChecks_pass_iff (s : State) : firstFailing s.layerChecks = none ↔ LayerValid s := by
  rw [firstFailing_eq_none]
  simp only [State.layerChecks, List.forall_mem_cons, List.not_mem_nil, false_imp_iff, implies_true, and_true,
    zeroCheck_passes, capacityCheck_passes, decide_eq_false_iff_not, bitVec_eq_zero_iff, not_or, not_and, not_lt, ne_eq, not_not,
    gt_iff_lt]
  constructor
  · rintro ⟨h1, h2, h3, h4, h5, h6, ⟨g0, -, -⟩, g1, ⟨s0, s1⟩, w, b, x, p, a⟩
    exact ⟨h1, h2, h3, h4, h5, h6, by omega, ⟨by omega, s1⟩, w, b, x, p, a⟩
  · rintro ⟨h1, h2, h3, h4, h5, h6, g, ⟨s0, s1⟩, w, b, x, p, a⟩
    refine ⟨h1, h2, h3, h4, h5, h6, ⟨by omega, ?_, ?_⟩, by omega, ⟨by omega, s1⟩, w, b, x, p, a⟩ <;> rw [g, Nat.mod_one]

/-- The checks of `ValidateCall` pass exactly for a valid call. -/
theorem callChecks_pass_iff (s : State) : firstFailing s.callChecks = none ↔ CallValid s := by
  rw [firstFailing_eq_none]
  simp only [State.callChecks, List.forall_mem_cons, List.not_mem_nil, false_imp_iff, implies_true, and_true,
    zeroCheck_passes, capacityCheck_passes, decide_eq_false_iff_not, not_lt]
  exact ⟨fun ⟨h1, h2, h3, h4, h5⟩ => ⟨h1, h2, h3, h4, h5⟩, fun ⟨h1, h2, h3, h4, h5⟩ => ⟨h1, h2, h3, h4, h5⟩⟩

/-- The slices of a valid layer. -/
theorem layerSlices_le {s : State} (h : LayerValid s) : 1 ≤ s.layerSlices ∧ s.layerSlices ≤ 16 :=
  (sliceCount_bounds h.sliceW.1 h.sliceW.2).2.2

/-- The grid of a valid layer fits TSTORE. -/
theorem gridCells_le {s : State} (h : LayerValid s) : s.gridCells ≤ s.caps.capX * planeCells :=
  Nat.mul_le_mul_right _ h.fitsX

/-- The geometry of a valid layer fits its registers. -/
theorem geometry_lt {s : State} (hc : s.caps.Legal) (h : LayerValid s) :
    s.inFeatures < 2 ^ 32 ∧ s.layerRowTiles < 2 ^ 32 ∧ s.layerColTiles < 2 ^ 32 ∧ s.layerSlices < 2 ^ 5 := by
  obtain ⟨-, -, -, -, -, hp, -⟩ := hc
  have hf := h.fitsP
  have ho := s.outCh.isLt
  have hs := (layerSlices_le h).2
  simp only [State.layerRowTiles, State.layerColTiles, ceilDiv, tileDim]
  omega

/-- While BUILT the engine stays inside its spaces (20_memory.md R81). -/
theorem engineFits_of_built {s : State} (h : RegistersOk s) (hb : s.state = .built) : s.engineFits = true := by
  have hl := (layerChecks_pass_iff s).mp (h.builtLayer hb)
  obtain ⟨hf, hr, hc, hn⟩ := h.builtGeometry hb
  rw [engineFits_iff, hf, hr, hc, hn]
  exact ⟨hl.fitsX, hl.fitsP, hl.fitsP, hl.fitsA, ceilDiv_mul_ge _ (by norm_num), hl.fitsB⟩

/-- A command that needs the grid passes its checks only while BUILT. -/
theorem built_of_passing {cs : List Check} {op : BitVec 8} {s : State}
    (h : firstFailing (notBuiltCheck op s :: cs) = none) : s.state = .built ∧ firstFailing cs = none := by
  by_cases hb : s.state = .built
  · simpa [firstFailing, notBuiltCheck, hb] using h
  · simp [firstFailing, notBuiltCheck, hb] at h

end Sys2Proof.Machine
end

