-- ==== Sys2Proof/Laws/Step.lean ====
section
/-! SUPPORT. Everything one step can do, and everything one host write can store. -/

namespace Sys2Proof.Machine

/-- Everything a step that goes on to a next state can have done. -/
theorem step_next {s t : State} (h : step s = .next t) :
    (s.port = [] ∧ t = s) ∨
    ∃ e rest, s.port = e :: rest ∧
      ((∃ a, e = .read a ∧ t = { s with port := rest, readLog := s.readLog ++ [hostRead { s with port := rest } a] }) ∨
       (e = .reset ∧ t = hardwareReset { s with port := rest }) ∨
       (∃ d, e = .write cmdAddr d ∧ s.busy = true ∧ t = { s with port := rest }) ∨
       (∃ d i, e = .write cmdAddr d ∧ s.busy = false ∧ decode (d.setWidth 32) = .ok i ∧
          exec i { s with port := rest } = .next t) ∨
       (∃ d r, e = .write cmdAddr d ∧ s.busy = false ∧ decode (d.setWidth 32) = .error r ∧
          t = illegalCommand (d.setWidth 32) { s with port := rest }) ∨
       (∃ a d, e = .write a d ∧ a ≠ cmdAddr ∧ t = hostStore a d { s with port := rest })) := by
  unfold step nextEvent at h
  split at h
  · next hp => exact .inl ⟨hp, by injection h with h; exact h.symm⟩
  · next e rest hp =>
    refine .inr ⟨e, rest, hp, ?_⟩
    cases e with
    | read a => exact .inl ⟨a, rfl, by simp only [portEvent] at h; injection h with h; exact h.symm⟩
    | reset => exact .inr (.inl ⟨rfl, by simp only [portEvent] at h; injection h with h; exact h.symm⟩)
    | write a d =>
      simp only [portEvent, hostWrite] at h
      by_cases ha : a = cmdAddr
      · subst ha
        rw [if_pos rfl] at h
        cases hb : s.busy
        · simp only [hb, Bool.false_eq_true, if_false, issue] at h
          split at h
          · next i hi => exact .inr (.inr (.inr (.inl ⟨d, i, rfl, rfl, hi, by cases s; subst hb; exact h⟩)))
          · next r hr =>
            refine .inr (.inr (.inr (.inr (.inl ⟨d, r, rfl, rfl, hr, ?_⟩))))
            injection h with h
            cases s
            subst hb
            exact h.symm
        · simp only [hb, if_true] at h
          refine .inr (.inr (.inl ⟨d, rfl, rfl, ?_⟩))
          injection h with h
          cases s
          subst hb
          exact h.symm
      · rw [if_neg ha] at h
        exact .inr (.inr (.inr (.inr (.inr ⟨a, d, rfl, ha, by injection h with h; exact h.symm⟩))))

/-- Everything a host write that is no command can do: nothing, one word of a host memory or of PBUF inside its space, the
lock of a layer register, or one register. -/
theorem hostStore_cases (a : HostAddr) (d : HostData) (s : State) :
    hostStore a d s = s ∨
    (s.state ≠ .fault ∧ s.busy = false ∧
      ((indexField a < s.caps.capW ∧ hostStore a d s = { s with wmem := s.wmem.write (indexField a) (d.setWidth 32) }) ∨
       (indexField a < s.caps.capB ∧ hostStore a d s = { s with bmem := s.bmem.write (indexField a) (d.setWidth 32) }) ∨
       (indexField a < s.caps.capI ∧ hostStore a d s = { s with imem := s.imem.write (indexField a) (d.setWidth 32) }) ∨
       (indexField a < s.caps.capP ∧ hostStore a d s = { s with pbuf := s.pbuf.write (indexField a) (d.setWidth 16) }) ∨
       (s.state = .built ∧ isLayerIndex (indexField a) = true ∧
          hostStore a d s = raiseError .protoLocked (BitVec.ofNat 64 (indexField a)) s) ∨
       (∃ c, Csr.ofIndex (indexField a) = some c ∧ (isLayerIndex (indexField a) = true → s.state = .unbuilt) ∧
          hostStore a d s = c.store d s))) := by
  unfold hostStore
  by_cases hbf : (s.busy || decide (s.state = .fault)) = true
  · exact .inl (if_pos hbf)
  · rw [if_neg hbf]
    simp only [Bool.or_eq_true, decide_eq_true_eq, not_or, Bool.not_eq_true] at hbf
    cases hsp : Space.ofNumber (spaceField a) with
    | none => exact .inl rfl
    | some sp =>
      by_cases hi : indexField a < s.spaceWords sp
      · simp only [hi, if_true]
        cases sp with
        | omem => exact .inl rfl
        | tstore => exact .inl rfl
        | acc => exact .inl rfl
        | tout => exact .inl rfl
        | wmem => exact .inr ⟨hbf.2, hbf.1, .inl ⟨hi, rfl⟩⟩
        | bmem => exact .inr ⟨hbf.2, hbf.1, .inr (.inl ⟨hi, rfl⟩)⟩
        | imem => exact .inr ⟨hbf.2, hbf.1, .inr (.inr (.inl ⟨hi, rfl⟩))⟩
        | pbuf => exact .inr ⟨hbf.2, hbf.1, .inr (.inr (.inr (.inl ⟨hi, rfl⟩)))⟩
        | csr =>
          simp only [State.poke, writeRegister]
          by_cases hl : (isLayerIndex (indexField a) && decide (s.state = .built)) = true
          · rw [if_pos hl]
            simp only [Bool.and_eq_true, decide_eq_true_eq] at hl
            exact .inr ⟨hbf.2, hbf.1, .inr (.inr (.inr (.inr (.inl ⟨hl.2, hl.1, rfl⟩))))⟩
          · rw [if_neg hl]
            cases hc : Csr.ofIndex (indexField a) with
            | none => exact .inl rfl
            | some c =>
              refine .inr ⟨hbf.2, hbf.1, .inr (.inr (.inr (.inr (.inr ⟨c, rfl, fun hl' => ?_, rfl⟩))))⟩
              simp only [hl', Bool.true_and, decide_eq_true_eq] at hl
              cases hst : s.state
              · rfl
              · exact absurd hst hl
              · exact absurd hst hbf.2
      · exact .inl (by simp [hi])

end Sys2Proof.Machine
end

