-- ==== Sys2Proof/Laws/Invariants.lean ====
section
/-! SUPPORT. How the parts of the invariant pass through the shared operations: the port, an error entry, reset, a step that leaves the grid alone; and what they give the commands. -/

namespace Sys2Proof.Machine

theorem RegistersOk.withPort {s : State} (h : RegistersOk s) (rest : List PortEvent) : RegistersOk { s with port := rest } := by
  obtain ⟨a, b, c, d, e, f, g, k⟩ := h
  exact ⟨a, b, c, d, e, f, g, k⟩

theorem MemoriesOk.withPort {s : State} (h : MemoriesOk s) (rest : List PortEvent) : MemoriesOk { s with port := rest } := by
  obtain ⟨a, b, c, d, e, f, g, k⟩ := h
  exact ⟨a, b, c, d, e, f, g, k⟩

/-- A check never raises the code of the design-time assertion or the fatal code (60_exceptions.md R236). -/
theorem checksOf_error {s : State} {i : Instr} {c : Check} (h : c ∈ checksOf s i) :
    c.error ≠ .cfgTileDim ∧ c.error ≠ .tileBoundary := by
  cases i <;>
    simp [checksOf, bsliceChecks, State.layerChecks, State.callChecks, notBuiltCheck, positionCheck, zeroCheck,
      capacityCheck] at h
  all_goals (rcases h with rfl | rfl | rfl | rfl | rfl | rfl | rfl | rfl | rfl | rfl | rfl | rfl | rfl | rfl) <;> simp

/-- A non-fatal error entry keeps the register invariant. -/
theorem RegistersOk.raiseError {s : State} (h : RegistersOk s) {e : ErrorCode} (he : e ≠ .cfgTileDim ∧ e ≠ .tileBoundary)
    (info : BitVec 64) (hs : s.state ≠ .fault) : RegistersOk (raiseError e info s) := by
  obtain ⟨a, b, c, d, f, g, k, l⟩ := h
  refine ⟨a, b, ?_, ?_, ?_, g, k, l⟩
  · simp only [Machine.raiseError]
    split
    · cases e <;> simp [ErrorCode.code] at he ⊢
    · exact c
  · simp only [Machine.raiseError]
    split
    · intro h
      exfalso
      revert h
      cases e <;> simp [ErrorCode.code]
    · intro h
      exact absurd h (by assumption)
  · simp only [Machine.raiseError]
    constructor
    · intro h
      exact absurd h hs
    · split
      · intro h
        exfalso
        revert h
        cases e <;> simp [ErrorCode.code] at he ⊢
      · exact f.mpr

theorem registersOk_resetRegisters {s : State} (h : s.caps.Legal) : RegistersOk (resetRegisters s) := by
  constructor <;> simp [resetRegisters, State.reset]
  exact h

/-- A register outside the layer indices is no layer register. -/
theorem ofIndex_not_layer {n : Nat} {c : Csr} (hl : isLayerIndex n ≠ true) (hc : Csr.ofIndex n = some c) :
    c ∉ ([.inCh, .outCh, .kRows, .kCols, .stride, .pad, .dil, .groups, .biasEn, .sliceW, .fmt] : List Csr) := by
  simp only [isLayerIndex, decide_eq_true_eq, ne_eq] at hl
  have : n < 31 := by
    by_contra h
    simp only [Csr.ofIndex] at hc
    rw [List.getD_eq_default] at hc
    · cases hc
    · simp
      omega
  interval_cases n <;> simp [Csr.ofIndex] at hc hl ⊢ <;> subst hc <;> simp

/-- `t` keeps TSTORE, and while BUILT everything the grid is read with. -/
def SameGrid (s t : State) : Prop :=
  t.tstore = s.tstore ∧ (t.state = .built → s.state = .built ∧ t.inFeatures = s.inFeatures ∧ t.outCh = s.outCh ∧
    t.sliceW = s.sliceW ∧ t.rowTiles = s.rowTiles ∧ t.colTiles = s.colTiles ∧ t.nSlices = s.nSlices)

theorem gridOk_of_sameGrid {s t : State} (h : GridOk s) (e : SameGrid s t) : GridOk t := by
  intro hb
  obtain ⟨h0, e⟩ := e
  obtain ⟨h1, h2, h3, h4, h5, h6, h7⟩ := e hb
  have := h h1
  simp only [State.HoldsWord, h0, h2, h3, h4, h5, h6, h7] at this ⊢
  exact this

/-- ENCP, TMVM, SMVM and CONV pass their checks only while BUILT. -/
theorem built_of_checks {s : State} {i : Instr} (hi : i = .encp ∨ i = .tmvm ∨ i = .smvm ∨ i = .conv)
    (h : firstFailing (checksOf s i) = none) : s.state = .built := by
  rcases hi with rfl | rfl | rfl | rfl
  all_goals exact (built_of_passing h).1

/-- While BUILT the loops of CONV find what they need. -/
theorem convReady_of_built {s : State} (hr : RegistersOk s) (hm : MemoriesOk s) (hb : s.state = .built) : ConvReady s := by
  obtain ⟨h1, h2, h3, -⟩ := hr.builtGeometry hb
  refine ⟨hm.omem.1, hm.pbuf.1, hm.acc.1, h1, ?_, ?_⟩
  · rw [h2]
    exact ceilDiv_mul_ge _ (by norm_num)
  · rw [h3]
    exact ceilDiv_mul_ge _ (by norm_num)

/-- The output size of a call fits its registers. -/
theorem callOut_lt (s : State) : s.callOutRows < 2 ^ 32 ∧ s.callOutCols < 2 ^ 32 := by
  have a := s.inRows.isLt
  have b := s.inCols.isLt
  have c := s.pad.isLt
  have h1 := Nat.div_le_self (s.paddedRows - s.extentRows) s.stride.toNat
  have h2 := Nat.div_le_self (s.paddedCols - s.extentCols) s.stride.toNat
  simp only [State.callOutRows, State.callOutCols]
  simp only [State.paddedRows, State.paddedCols] at *
  omega

end Sys2Proof.Machine
end

