-- ==== Sys2Proof/Laws/PerInstr.lean ====
section
/-! SUPPORT. Statements made of every command as syntax, one lemma per constructor. -/

namespace Sys2Proof.Laws.EncodesItsRow

/-- The mask and the pattern of the row of the opcode table a command belongs to (30_encoding.md R104). -/
def row : Instr → CmdWord × CmdWord
  | .qenc _ => (0xFFFFFFFE#32, 0x01000000#32)
  | .bslice _ => (0xFFFFFFE0#32, 0x02000000#32)
  | .build => (0xFFFFFFFF#32, 0x10000000#32)
  | .inval => (0xFFFFFFFF#32, 0x11000000#32)
  | .encp => (0xFFFFFFFF#32, 0x20000000#32)
  | .tmvm => (0xFFFFFFFF#32, 0x21000000#32)
  | .smvm => (0xFFFFFFFF#32, 0x22000000#32)
  | .conv => (0xFFFFFFFF#32, 0x30000000#32)
  | .clrerr => (0xFFFFFFFF#32, 0x40000000#32)
  | .sreset => (0xFFFFFFFF#32, 0x7F000000#32)

/-- The word of a command carries its row's pattern under its row's mask, whatever the immediate. -/
def Statement (i : Instr) : Prop := encode i &&& (row i).1 = (row i).2

theorem qenc (fmt : FmtSel) : Statement (.qenc fmt) := by cases fmt <;> rfl

theorem bslice (k : Nat) : Statement (.bslice k) := by
  have h : ∀ b : BitVec 5, (0x02000000#32 ||| b.setWidth 32) &&& 0xFFFFFFE0#32 = 0x02000000#32 := by decide
  exact h (BitVec.ofNat 5 k)

theorem build : Statement .build := rfl

theorem inval : Statement .inval := rfl

theorem encp : Statement .encp := rfl

theorem tmvm : Statement .tmvm := rfl

theorem smvm : Statement .smvm := rfl

theorem conv : Statement .conv := rfl

theorem clrerr : Statement .clrerr := rfl

theorem sreset : Statement .sreset := rfl

end Sys2Proof.Laws.EncodesItsRow
end

