-- ==== Sys2Proof/Tests/Slice0.lean ====
section
/-! SUPPORT. Tests of the model against words, values and vectors of the spec, and a witness for the hypotheses of every obligation. -/

namespace Sys2Proof.Tests

open Sys2Proof.Machine

/-! ### Syntax and encoding: words written out from 30_encoding.md R101 to R104 -/

/-- `k` is 5 bits (R112): 31 fits, 32 does not. -/
theorem test_wellFormed_bslice : (Instr.bslice 31).wellFormed = true ∧ (Instr.bslice 32).wellFormed = false := by decide

theorem test_decode_qenc : decode 0b00000001000000000000000000000000#32 = .ok (.qenc .input) ∧
    decode 0b00000001000000000000000000000001#32 = .ok (.qenc .weight) := by decide

theorem test_decode_bslice : decode 0b00000010000000000000000000010110#32 = .ok (.bslice 22) := by decide

theorem test_decode_build : decode 0b00010000000000000000000000000000#32 = .ok .build := by decide

theorem test_decode_inval : decode 0b00010001000000000000000000000000#32 = .ok .inval := by decide

theorem test_decode_encp : decode 0b00100000000000000000000000000000#32 = .ok .encp := by decide

theorem test_decode_tmvm : decode 0b00100001000000000000000000000000#32 = .ok .tmvm := by decide

theorem test_decode_smvm : decode 0b00100010000000000000000000000000#32 = .ok .smvm := by decide

theorem test_decode_conv : decode 0b00110000000000000000000000000000#32 = .ok .conv := by decide

theorem test_decode_clrerr : decode 0b01000000000000000000000000000000#32 = .ok .clrerr := by decide

theorem test_decode_sreset : decode 0b01111111000000000000000000000000#32 = .ok .sreset := by decide

/-- A "must be 0" bit that is 1, and opcode bytes that are not listed (R105; words of 95_test_vectors.md 2.1, 2.2, 2.8). -/
theorem test_decode_rejects : decode 0x01000002#32 = .error (.mustBeZero 0x01) ∧
    decode 0x02000020#32 = .error (.mustBeZero 0x02) ∧ decode 0x30000001#32 = .error (.mustBeZero 0x30) ∧
    decode 0x03000000#32 = .error (.unknownOpcode 0x03) ∧ decode 0xFF000000#32 = .error (.unknownOpcode 0xFF) := by decide

/-! ### States -/

/-- The layer `LAYER 1, 1, 1, 1, 1, 0, 1, 1, 0, 16` with `FMT 12, 12`, not yet built, WMEM[0] = 1.0. -/
def layer : State := { State.reset with
  inCh := 1, outCh := 1, kRows := 1, kCols := 1, stride := 1, dil := 1, groups := 1, sliceW := 16, fmt := 0xC0C
  inRows := 1, inCols := 1, wmem := ⟨1, [(0, 0x3F800000)]⟩, imem := ⟨1, [(0, 0x3F800000)]⟩ }

/-- The same layer built: one tile, one slice plane, weight 1.0. -/
def tile : State := { layer with
  state := .built, inFeat := 1, rowTiles := 1, colTiles := 1, nSlices := 1, tstore := ⟨16384, [(0, 0x1000)]⟩
  pbuf := ⟨1, [(0, 0xF000)]⟩ }

/-- A block in FAULT. -/
def broken : State := { tile with state := .fault, errCode := 0x80 }

/-- A state with one access pending. -/
def pending (e : PortEvent) (s : State) : State := { s with port := [e] }

/-- The state a command goes on to. -/
def after (i : Instr) (s : State) : State :=
  match exec i s with
  | .next t => t
  | .fault _ => s
  | .refused _ => s

/-- The state a step goes on to. -/
def stepped (s : State) : State :=
  match step s with
  | .next t => t
  | .fault _ => s
  | .refused _ => s

/-- The outcome is a next state. -/
def goesOn (r : Result) : Bool :=
  match r with
  | .next _ => true
  | .fault _ => false
  | .refused _ => false

theorem exec_after {i : Instr} {s : State} (h : goesOn (exec i s) = true) : exec i s = .next (after i s) := by
  unfold after
  revert h
  cases exec i s <;> simp [goesOn]

theorem step_stepped {s : State} (h : goesOn (step s) = true) : step s = .next (stepped s) := by
  unfold stepped
  revert h
  cases step s <;> simp [goesOn]

/-! ### One command each: vectors of 95_test_vectors.md -/

/-- 2.1 rows 11 and 28: a tie to even, and an overflow below. -/
theorem test_qenc_input : (after (.qenc .input) { tile with arg0 := 0x3A200000 }).result = 0x0002 := by decide

theorem test_qenc_weight : (after (.qenc .weight) { layer with fmt := 0x00C, arg0 := 0xC7000083 }).result = 0x8000 ∧
    (after (.qenc .weight) { layer with fmt := 0x00C, arg0 := 0xC7000083 }).qovf = true := by decide

/-- 2.2: the short top slice of s = 3; a slice index out of range. -/
theorem test_bslice_top : (after (.bslice 5) { layer with sliceW := 3, arg0 := 0xFFFFB6E5 }).result = 1 := by decide

theorem test_bslice_operand : (after (.bslice 8) { layer with sliceW := 2, arg0 := 0xFFFFB6E5 }).errCode = 0x22 ∧
    (after (.bslice 8) { layer with sliceW := 2 }).errInfo = 8 := by decide

/-- 2.3: weight -1.0 at s = 2 fills slices 6 and 7 and nothing else. -/
theorem test_build_cells : (after .build { layer with sliceW := 2, wmem := ⟨1, [(0, 0xBF800000)]⟩ }).tstore =
    ⟨131072, [(0x18000, 3), (0x1C000, 3)]⟩ := by decide +kernel

/-- 2.3: weight 100.0 overflows; the geometry of 129 features in one channel at s = 16. -/
theorem test_build_geometry :
    let t := after .build { layer with inCh := 129, wmem := ⟨129, [(128, 0x42C80000)]⟩ }
    t.inFeat = 129 ∧ t.rowTiles = 2 ∧ t.colTiles = 1 ∧ t.nSlices = 1 ∧ t.qovf = true ∧ t.state = .built := by
  decide +kernel

theorem test_inval : (after .inval tile).state = .unbuilt ∧ (after .inval tile).rowTiles = 0 ∧
    (after .inval tile).tstore = tile.tstore := by decide

/-- 2.7: stride 2, padding 1, dilation 2: at the last position only tap (0, 0) of each channel meets the input. -/
theorem test_encp_patch :
    let s := { tile with
      inCh := 2, kRows := 2, kCols := 2, stride := 2, pad := 1, dil := 2, inRows := 5, inCols := 5, inFeat := 8
      posR := 2, posC := 2, imem := ⟨0, [(18, 0xBE800000), (43, 0x40380000)]⟩, pbuf := ⟨0, []⟩ }
    (after .encp s).pbuf = ⟨8, [(0, 0xFC00), (4, 0x2E00)]⟩ ∧ (after .encp s).outRows = 3 := by decide +kernel

/-- 2.5 row 4: a position past the output. -/
theorem test_encp_position :
    let s := { tile with
      kRows := 3, kCols := 3, pad := 2, inRows := 4, inCols := 4, inFeat := 9, posR := 2, posC := 6 }
    (after .encp s).errCode = 0x22 ∧ (after .encp s).errInfo = 0x0000000200000006 := by decide

/-- The grid of 2.4: s = 3, weights -8.0, 0 in channel 0 and 8 - 2^-12, -2^-12 in channel 1. -/
def extremes : State := { tile with
  inCh := 2, outCh := 2, sliceW := 3, inFeat := 2, nSlices := 6
  tstore := ⟨98304, [(1, 7), (129, 7), (16385, 7), (16513, 7), (32769, 7), (32897, 7), (49153, 7), (49281, 7),
    (65537, 7), (65665, 7), (81920, 1), (82049, 1)]⟩
  pbuf := ⟨3, [(0, 0x8000), (1, 0x7FFF), (2, 0x1234)]⟩ }

/-- 2.4: the largest product of two words, a negative sum, a padding column. -/
theorem test_tmvm_extremes :
    (after .tmvm extremes).tout = ⟨128, [(0, 0x0000000040000000), (1, 0xFFFFFFFFC0000001)]⟩ := by decide +kernel

/-- 60_exceptions.md R243: the fatal error replaces a pending record. -/
theorem test_tmvm_fatal :
    let t := after .tmvm { tile with errCode := 0x22, errInfo := 5, tileJ := 1 }
    t.errCode = 0x80 ∧ t.errInfo = 1 ∧ t.state = .fault := by decide

theorem test_smvm_extremes :
    (after .smvm extremes).acc = ⟨128, [(0, 0x0000000040000000), (1, 0xFFFFFFFFC0000001)]⟩ := by decide +kernel

/-- 2.6: biases 2^40, 2^38, -2^40 on sums 1.0, 1.0, -1.0. -/
theorem test_conv_bias :
    let s := { tile with
      outCh := 3, biasEn := 1, sliceW := 8, nSlices := 2
      tstore := ⟨32768, [(16384, 0x10), (16385, 0x10), (16386, 0xF0)]⟩
      bmem := ⟨3, [(0, 0x53800000), (1, 0x52800000), (2, 0xD3800000)]⟩ }
    (after .conv s).omem = ⟨3, [(0, 0x7FFFFFFFFFFFFFFF), (1, 0x4000000001000000), (2, 0x8000000000000000)]⟩ ∧
      (after .conv s).qovf = true := by decide +kernel

/-- 2.6: an input of 9 clamps. -/
theorem test_conv_clamps :
    let t := after .conv { tile with imem := ⟨1, [(0, 0x41100000)]⟩ }
    t.omem = ⟨1, [(0, 0x0000000007FFF000)]⟩ ∧ t.qovf = true := by decide +kernel

theorem test_clrerr :
    let t := after .clrerr { tile with errCode := 0x20, errInfo := 8, qovf := true }
    t.errCode = 0 ∧ t.errInfo = 0 ∧ t.qovf = false ∧ t.state = .built := by decide

theorem test_sreset : (after .sreset broken).state = .unbuilt ∧ (after .sreset broken).inCh = 0 ∧
    (after .sreset broken).wmem = tile.wmem := by decide

/-! ### Host access: 2.9 and the lock of 2.8 -/

theorem test_write_width : hostRead (stepped (pending (.write 0x08#32 0x12345#64) State.reset)) 0x08#32 = 0x2345 := by decide

theorem test_write_pbuf : hostRead (stepped (pending (.write 0x60000000#32 0x18000#64) tile)) 0x60000000#32 = 0x8000 := by
  decide

theorem test_layer_lock :
    let t := stepped (pending (.write 0x09#32 5#64) tile)
    t.errCode = 0x20 ∧ t.errInfo = 0x09 ∧ t.outCh = 1 := by decide

theorem test_illegal_word :
    let t := stepped (pending (.write 0x03#32 0x30000001#64) State.reset)
    t.errCode = 0x23 ∧ t.errInfo = 0x30000001 := by decide

/-- The host script of 30_encoding.md R114: `WRF IMEM[0], 0.25` and the layer writes. -/
theorem test_script_real : Script.realPattern 1 2 = some 0x3E800000 ∧ Script.realPattern (-123) 5 = some 0xC0760000 ∧
    Script.realPattern 1 150 = none := by decide

/-! ### The invariant holds of `tile`, `layer` and `broken` -/

theorem lookup_tile (x : Nat) : tile.tstore.get? x = if x = 0 then some 0x1000 else if x < 16384 then some 0 else none := by
  by_cases h : x = 0
  · subst h
    rfl
  · simp only [tile, Memory.get?, Memory.lookup, if_neg h]
    rfl

theorem slice_whole (q : Fx16) : BitVec.ofNat 16 (slice q 16 0) = q := by
  simp [slice, BitVec.extractLsb'_toNat]

theorem tile_grid : GridOk tile := by
  intro _ i hi j hj row hrow col hcol
  obtain rfl : i = 0 := by simpa [tile] using hi
  obtain rfl : j = 0 := by simpa [tile] using hj
  simp only [tileDim] at hrow hcol
  refine ⟨if row = 0 ∧ col = 0 then 0x1000 else 0, ?_, ?_⟩
  · intro k hk
    obtain rfl : k = 0 := by simpa [tile] using hk
    have hs : tile.sliceW.toNat = 16 := by decide
    have hx : cellIndex tile.colTiles.toNat tile.nSlices.toNat 0 0 0 row col = row * 128 + col := by
      simp [cellIndex, tileDim]
    rw [hs, slice_whole, hx, lookup_tile]
    by_cases h : row = 0 ∧ col = 0
    · rw [if_pos (by omega), if_pos h]
    · rw [if_neg (by omega), if_pos (by omega), if_neg h]
  · intro h
    rw [if_neg]
    rintro ⟨rfl, rfl⟩
    revert h
    decide

theorem tile_registers : RegistersOk tile := by
  constructor <;> decide

theorem tile_memories : MemoriesOk tile := by
  constructor <;> decide

theorem tile_inv : Inv tile := ⟨tile_registers, tile_memories, tile_grid⟩

theorem layer_inv : Inv layer := by
  refine ⟨?_, ?_, ?_⟩
  · constructor <;> decide
  · constructor <;> decide
  · intro h
    cases h

theorem broken_inv : Inv broken := by
  refine ⟨?_, ?_, ?_⟩
  · constructor <;> decide
  · constructor <;> decide
  · intro h
    cases h

theorem layer_valid : LayerValid layer := by
  constructor <;> decide

theorem tile_call : CallValid tile := by
  constructor <;> decide

/-! ### A witness for the hypotheses of every obligation that has some -/

/-- The word of a command written to CMD. -/
abbrev issueOf (i : Instr) : PortEvent := .write 0x00000003#32 ((encode i).setWidth 64)

theorem witness_DecodeEncodeRoundTrip : (Instr.bslice 31).WellFormed := by decide

theorem witness_EncodeInvertsDecode : decode 0x0200001F#32 = .ok (.bslice 31) := by decide

theorem witness_WordsDecodeByMaskAndMatch : decode 0x01000000#32 = .ok (.qenc .input) ∧
    decode 0x01000001#32 = .ok (.qenc .weight) ∧ decode 0x0200001F#32 = .ok (.bslice 31) := by decide

theorem witness_StepRunsDecodedCommand :
    ((pending (issueOf .build) tile).busy = false ∧
      (pending (issueOf .build) tile).port = .write 0x00000003#32 0x10000000#64 :: [] ∧
      decode ((0x10000000#64).setWidth 32) = .ok .build) ∧
    (tile.busy = false ∧ decodeTableWord 32 0x7F000000 = some .sreset) := by decide

theorem witness_IllegalWordIsRecorded :
    (pending (.write 3 0x30000001) tile).busy = false ∧
    (pending (.write 3 0x30000001) tile).port = .write 0x00000003#32 0x30000001#64 :: [] ∧
    (∀ i, decode ((0x30000001#64).setWidth 32) ≠ .ok i) ∧
    (pending (.write 3 0x30000001) tile).state ≠ .fault ∧
    (pending (.write 3 0x30000001) broken).busy = false ∧
    (pending (.write 3 0x30000001) broken).port = .write 0x00000003#32 0x30000001#64 :: [] ∧
    (pending (.write 3 0x30000001) broken).state = .fault := by
  have h : decode ((0x30000001#64).setWidth 32) = .error (.mustBeZero 0x30) := by decide
  refine ⟨rfl, rfl, fun i hi => ?_, by decide, rfl, rfl, rfl⟩
  rw [h] at hi
  cases hi

theorem witness_HostReadOnlyReturnsData : (pending (.read 0) tile).port = .read 0 :: [] := rfl

theorem witness_IdleBlockKeepsState : tile.port = [] := rfl

/-- Clause by clause; the word next to SRESET's, and SRESET's word at the address next to CMD's, are discarded. -/
theorem witness_FaultDiscardsEveryWriteButSreset :
    (broken.state = .fault ∧ (pending (.write 3 0x7F000001) broken).port = .write 3 0x7F000001 :: [] ∧
      ¬((3 : HostAddr) = 0x00000003#32 ∧ (0x7F000001 : HostData).setWidth 32 = 0x7F000000#32)) ∧
    ((pending (.write 4 0x7F000000) broken).port = .write 4 0x7F000000 :: [] ∧
      ¬((4 : HostAddr) = 0x00000003#32 ∧ (0x7F000000 : HostData).setWidth 32 = 0x7F000000#32)) ∧
    (broken.busy = false ∧ (pending (issueOf .sreset) broken).port = .write 0x00000003#32 0x7F000000#64 :: [] ∧
      (0x7F000000#64).setWidth 32 = 0x7F000000#32) ∧
    ({ tile with busy := true }.busy = true ∧ (1 : HostAddr) ≠ 0) := by decide

theorem witness_HardwareResetSetsEveryRegister : (pending .reset broken).port = .reset :: [] := rfl

theorem witness_QencQuantizesExactly : tile.state ≠ .fault := by decide

theorem witness_QuantizeRoundTrip : 15 ≤ 15 ∧ 0 ≤ 15 := by decide

theorem witness_QuantizeErrorIsHalfUnit : Machine.quantize 16 12 (.dyadic 3 13) = ((2 : Fx16), false) := by decide

/-- The two illegal widths nearest to the legal ones; then the narrowest and the widest slice, with the first index out of
range and the last in range. -/
theorem witness_BsliceFollowsItsRule :
    (({ layer with sliceW := 0 } : State).state ≠ .fault ∧ ({ layer with sliceW := 0 } : State).sliceW.toNat = 0 ∧
      16 < ({ layer with sliceW := 17 } : State).sliceW.toNat) ∧
    (1 ≤ layer.sliceW.toNat ∧ layer.sliceW.toNat ≤ 16 ∧ (16 + layer.sliceW.toNat - 1) / layer.sliceW.toNat ≤ 1 ∧
      0 < (16 + layer.sliceW.toNat - 1) / layer.sliceW.toNat) ∧
    (1 ≤ ({ layer with sliceW := 1 } : State).sliceW.toNat ∧ ({ layer with sliceW := 1 } : State).sliceW.toNat ≤ 16 ∧
      15 < (16 + ({ layer with sliceW := 1 } : State).sliceW.toNat - 1) / ({ layer with sliceW := 1 } : State).sliceW.toNat ∧
      (16 + ({ layer with sliceW := 1 } : State).sliceW.toNat - 1) / ({ layer with sliceW := 1 } : State).sliceW.toNat ≤ 16) := by
  decide

theorem witness_SlicesRecombine : (1 ≤ 1 ∧ 1 ≤ 16) ∧ (1 ≤ 16 ∧ 16 ≤ 16) := by decide

theorem witness_BuildWritesEveryCell : layer.state ≠ .fault ∧ LayerValid layer ∧ layer.tstore.wf :=
  ⟨by decide, layer_valid, by decide⟩

theorem witness_BuildEqualsItsLoopNest : layer.state ≠ .fault ∧ LayerValid layer ∧ layer.tstore.wf :=
  witness_BuildWritesEveryCell

/-- The failing registers of 95_test_vectors.md 2.3, and the layer that passes. -/
theorem witness_BuildChecksInOrder : State.reset.state ≠ .fault ∧
    Reference.layerError State.reset = some (0x10, 0x08) ∧
    Reference.layerError { layer with inCh := 4, outCh := 4, groups := 3 } = some (0x11, 3) ∧
    Reference.layerError { layer with inCh := 4, outCh := 4, groups := 2 } = some (0x12, 2) ∧
    Reference.layerError { layer with sliceW := 0 } = some (0x13, 0) ∧
    Reference.layerError { layer with sliceW := 17 } = some (0x13, 0x11) ∧
    Reference.layerError { layer with inCh := 65535, outCh := 65535, kRows := 255, kCols := 255 } = some (0x14, 1) ∧
    Reference.layerError layer = none ∧ layer.state ≠ .fault := by decide

theorem witness_InvalForgetsTheGrid : tile.state ≠ .fault ∧
    (layer.state ≠ .fault ∧ RegistersOk layer ∧ layer.state = .unbuilt) :=
  ⟨by decide, by decide, layer_inv.registers, rfl⟩

/-- UNBUILT; BUILT with each index just outside; BUILT with both inside. -/
theorem witness_TmvmFollowsItsRule : layer.state = .unbuilt ∧
    (tile.state = .built ∧ tile.rowTiles.toNat ≤ ({ tile with tileI := 1 } : State).tileI.toNat ∧
      tile.colTiles.toNat ≤ ({ tile with tileJ := 1 } : State).tileJ.toNat) ∧
    (RegistersOk tile ∧ MemoriesOk tile ∧ tile.tileI.toNat < tile.rowTiles.toNat ∧
      tile.tileJ.toNat < tile.colTiles.toNat) :=
  ⟨rfl, by decide, tile_registers, tile_memories, by decide, by decide⟩

theorem witness_GridCommandsNeedTheGrid : layer.state = .unbuilt := by decide

theorem witness_WeightIsTheStoredWord : 1 ≤ tile.sliceW.toNat ∧ tile.sliceW.toNat ≤ 16 ∧
    tile.nSlices.toNat = (16 + tile.sliceW.toNat - 1) / tile.sliceW.toNat ∧ tile.HoldsWord 0 0 0 0 0x1000 := by
  refine ⟨by decide, by decide, by decide, fun k hk => ?_⟩
  obtain rfl : k = 0 := by simpa [tile] using hk
  decide

theorem witness_TileOutputIsBounded : Inv tile ∧ tile.state = .built ∧ 0 < tile.rowTiles.toNat ∧ 0 < tile.colTiles.toNat ∧
    127 < 128 := ⟨tile_inv, rfl, by decide, by decide, by decide⟩

theorem witness_SmvmRunsTheSchedulerLoop : layer.state = .unbuilt ∧
    RegistersOk tile ∧ MemoriesOk tile ∧ tile.state = .built :=
  ⟨rfl, tile_registers, tile_memories, rfl⟩

/-- The last channel, and the first and last padding channel. -/
theorem witness_SchedulerIsTheMatrixProduct : Inv tile ∧ tile.state = .built ∧ 0 < tile.outCh.toNat ∧
    (tile.outCh.toNat ≤ 1 ∧ 1 < tile.colTiles.toNat * 128) ∧ (tile.outCh.toNat ≤ 127 ∧ 127 < tile.colTiles.toNat * 128) :=
  ⟨tile_inv, rfl, by decide, by decide, by decide⟩

theorem witness_SumsNeverWrap : Inv tile ∧ tile.state = .built ∧ 127 < tile.colTiles.toNat * 128 := ⟨tile_inv, rfl, by decide⟩

theorem witness_SingleTileEqualsScheduler : Inv tile ∧ tile.state = .built ∧ tile.inFeatures ≤ 128 ∧
    tile.outCh.toNat ≤ 128 ∧ tile.tileI = 0 ∧ tile.tileJ = 0 :=
  ⟨tile_inv, rfl, by decide, by decide, rfl, rfl⟩

theorem witness_EncpEncodesThePatch : RegistersOk tile ∧ MemoriesOk tile ∧ tile.state = .built ∧ CallValid tile ∧
    tile.posR.toNat < Reference.outRows tile ∧ tile.posC.toNat < Reference.outCols tile :=
  ⟨tile_registers, tile_memories, rfl, tile_call, by decide, by decide⟩

theorem witness_EncpChecksInOrder : tile.state = .built ∧
    Reference.encpError { tile with inRows := 0 } = some (0x10, 0x14) ∧
    Reference.encpError { tile with inCols := 0 } = some (0x10, 0x15) ∧
    Reference.encpError { tile with kRows := 2 } = some (0x15, 0x14) ∧
    Reference.encpError { tile with kCols := 2 } = some (0x15, 0x15) ∧
    Reference.encpError { tile with posR := 1 } = some (0x22, 0x0000000100000000) := by decide

theorem witness_ConvComputesTheConvolution : Inv tile ∧ tile.state = .built ∧ CallValid tile ∧
    tile.outCh.toNat * Reference.outRows tile * Reference.outCols tile ≤ tile.caps.capO :=
  ⟨tile_inv, rfl, tile_call, by decide⟩

theorem witness_ConvLeavesTheLastPosition : Inv tile ∧ tile.state = .built ∧ CallValid tile ∧
    tile.outCh.toNat * Reference.outRows tile * Reference.outCols tile ≤ tile.caps.capO :=
  witness_ConvComputesTheConvolution

theorem witness_ConvOverflowIsLogged : Inv tile ∧ tile.state = .built ∧ CallValid tile ∧
    tile.outCh.toNat * Reference.outRows tile * Reference.outCols tile ≤ tile.caps.capO :=
  witness_ConvComputesTheConvolution

theorem witness_UnclampedOutputIsTheExactConvolution : Inv layer ∧ layer.state ≠ .fault ∧ LayerValid layer ∧
    CallValid layer ∧ layer.outCh.toNat * Reference.outRows layer * Reference.outCols layer ≤ layer.caps.capO ∧
    layer.qovf = false :=
  ⟨layer_inv, by decide, layer_valid, by constructor <;> decide, by decide, rfl⟩

/-- The inner premise of that statement: BUILD then CONV of `layer` leave QOVF clear. -/
theorem witness_UnclampedOutputIsTheExactConvolution_unclamped : (after .conv (after .build layer)).qovf = false := by
  decide +kernel

/-- The built block with a bias of 1.0. -/
def tileBiased : State := { tile with biasEn := 1, bmem := ⟨1, [(0, 0x3F800000)]⟩ }

/-- Without and with bias. -/
theorem witness_EncpThenSmvmIsOnePositionOfConv :
    (Inv tile ∧ tile.state = .built ∧ CallValid tile ∧ tile.biasEn ≠ 1 ∧
      tile.outCh.toNat * Reference.outRows tile * Reference.outCols tile ≤ tile.caps.capO ∧
      tile.posR.toNat < Reference.outRows tile ∧ tile.posC.toNat < Reference.outCols tile) ∧
    (Inv tileBiased ∧ tileBiased.state = .built ∧ CallValid tileBiased ∧ tileBiased.biasEn = 1 ∧
      tileBiased.outCh.toNat * Reference.outRows tileBiased * Reference.outCols tileBiased ≤ tileBiased.caps.capO ∧
      tileBiased.posR.toNat < Reference.outRows tileBiased ∧ tileBiased.posC.toNat < Reference.outCols tileBiased) := by
  refine ⟨⟨tile_inv, rfl, tile_call, by decide⟩, ⟨?_, ?_, tile_grid⟩, rfl, ?_, by decide⟩ <;> constructor <;> decide

theorem witness_ConvChecksInOrder : tile.state = .built ∧
    Reference.convError { tile with inRows := 0 } = some (0x10, 0x14) ∧
    Reference.convError { tile with kRows := 2 } = some (0x15, 0x14) ∧
    Reference.convError { tile with inRows := 65535, inCols := 65535 } = some (0x14, 3) ∧
    Reference.convError { tile with pad := 255, inRows := 65024, inCols := 4097 } = some (0x14, 4) := by decide

/-- `tile` with another patch, position and weight memory. -/
def tileElsewhere : State := { tile with
  pbuf := ⟨2, [(0, 0x0800), (1, 0x7FFF)]⟩, posR := 7, wmem := ⟨0, []⟩, bmem := ⟨0, [(3, 0x3F800000)]⟩, arg0 := 1, result := 2
  tileI := 3, tileJ := 4, errCode := 0x22, errInfo := 5, port := [.reset], readLog := [6] }

theorem witness_ConvDependsOnlyOnItsOperands : Inv tile ∧ Inv tileElsewhere ∧ tile.state = .built ∧ CallValid tile ∧
    tile.outCh.toNat * Reference.outRows tile * Reference.outCols tile ≤ tile.caps.capO ∧
    (tile.biasEn = 1 → tileElsewhere.bmem = tile.bmem) ∧
    tileElsewhere = { tile with
      pbuf := tileElsewhere.pbuf, acc := tileElsewhere.acc, omem := tileElsewhere.omem, tout := tileElsewhere.tout
      posR := tileElsewhere.posR, posC := tileElsewhere.posC, wmem := tileElsewhere.wmem, bmem := tileElsewhere.bmem
      outRows := tileElsewhere.outRows, outCols := tileElsewhere.outCols, arg0 := tileElsewhere.arg0
      result := tileElsewhere.result, tileI := tileElsewhere.tileI, tileJ := tileElsewhere.tileJ
      errCode := tileElsewhere.errCode, errInfo := tileElsewhere.errInfo, port := tileElsewhere.port
      readLog := tileElsewhere.readLog } := by
  refine ⟨tile_inv, ⟨?_, ?_, tile_grid⟩, rfl, tile_call, by decide, by decide, rfl⟩
  · constructor <;> decide
  · constructor <;> decide

theorem witness_ClrerrClearsTheRecord : tile.state ≠ .fault := by decide

/-- A non-fatal error over an earlier record, and the fatal one. -/
theorem witness_ErrorsArePrecise :
    (layer.state ≠ .fault ∧ Instr.smvm ≠ .sreset ∧ { layer with errCode := 0x13, errInfo := 17 } ≠ layer ∧
      exec .smvm layer = .next (after .smvm layer) ∧ (after .smvm layer).errCode ≠ 0) ∧
    (({ tile with tileJ := 1 } : State).state ≠ .fault ∧
      exec .tmvm { tile with tileJ := 1 } = .next (after .tmvm { tile with tileJ := 1 }) ∧
      (after .tmvm { tile with tileJ := 1 }).errCode ≠ 0 ∧
      (after .tmvm { tile with tileJ := 1 }).state ≠ tile.state) :=
  ⟨⟨by decide, by decide, by decide, exec_after (by decide), by decide⟩, by decide, exec_after (by decide), by decide, by decide⟩

/-- The fatal error, and CLRERR. -/
theorem witness_FirstErrorWins :
    (let s := pending (issueOf .tmvm) { tile with errCode := 0x22, tileJ := 1 }
     s.port = issueOf .tmvm :: [] ∧ step s = .next (stepped s) ∧ s.errCode ≠ 0 ∧ (stepped s).errCode ≠ s.errCode) ∧
    (let s := pending (issueOf .clrerr) { tile with errCode := 0x22 }
     s.port = issueOf .clrerr :: [] ∧ step s = .next (stepped s) ∧ s.errCode ≠ 0 ∧ (stepped s).errCode ≠ s.errCode) :=
  ⟨⟨rfl, step_stepped (by decide), by decide, by decide⟩, rfl, step_stepped (by decide), by decide, by decide⟩

theorem witness_OverflowFlagIsSticky :
    let s := pending (issueOf .clrerr) { tile with qovf := true }
    s.port = issueOf .clrerr :: [] ∧ step s = .next (stepped s) ∧ s.qovf = true ∧ (stepped s).qovf = false :=
  ⟨rfl, step_stepped (by decide), by decide, by decide⟩

/-- One change of each kind. -/
theorem witness_StateChangesOnlyAsListed :
    (let s := pending .reset broken
     s.port = [.reset] ∧ step s = .next (stepped s) ∧ (stepped s).state ≠ s.state) ∧
    (let s := pending (issueOf .sreset) broken
     s.busy = false ∧ s.port = [issueOf .sreset] ∧ step s = .next (stepped s) ∧ (stepped s).state ≠ s.state) ∧
    (let s := pending (issueOf .inval) tile
     s.port = [issueOf .inval] ∧ step s = .next (stepped s) ∧ (stepped s).state ≠ s.state) ∧
    (let s := pending (issueOf .build) layer
     s.port = [issueOf .build] ∧ step s = .next (stepped s) ∧ (stepped s).state ≠ s.state) ∧
    (let s := pending (issueOf .tmvm) { tile with tileI := 1 }
     s.port = [issueOf .tmvm] ∧ step s = .next (stepped s) ∧ (stepped s).state ≠ s.state) :=
  ⟨⟨rfl, step_stepped (by decide), by decide⟩, ⟨rfl, rfl, step_stepped (by decide), by decide⟩,
    ⟨rfl, step_stepped (by decide), by decide⟩, ⟨rfl, step_stepped (by decide +kernel), by decide +kernel⟩,
    rfl, step_stepped (by decide), by decide⟩

/-- The first and the last layer register in the states that do not perform the write, and each of them where it is performed. -/
theorem witness_LayerRegistersAreLocked :
    0x08 ≤ 0x08 ∧ 0x12 ≤ 0x12 ∧ tile.busy = false ∧ layer.busy = false ∧ broken.busy = false ∧
    (pending (.write 0x08#32 5) tile).port = .write (BitVec.ofNat 32 0x08) 5 :: [] ∧ tile.state = .built ∧
    layer.state = .unbuilt ∧
    (∀ idx < 11, (pending (.write (BitVec.ofNat 32 (0x08 + idx)) 0xFFF) layer).port =
      .write (BitVec.ofNat 32 (0x08 + idx)) 0xFFF :: []) ∧
    (pending (.write 0x12#32 5) broken).port = .write (BitVec.ofNat 32 0x12) 5 :: [] ∧ broken.state = .fault := by decide

/-- Its second part: a write that the lock discards. -/
theorem witness_LayerRegistersAreLocked_built :
    let s := pending (.write 0x08#32 5) tile
    step s = .next (stepped s) ∧ s.state = .built ∧ (stepped s).state = .built :=
  ⟨step_stepped (by decide), rfl, by decide⟩

theorem witness_OnlyBuildWritesTheGrid :
    let s := pending (issueOf .build) layer
    s.port = [issueOf .build] ∧ step s = .next (stepped s) ∧ (stepped s).tstore ≠ s.tstore :=
  ⟨rfl, step_stepped (by decide +kernel), by decide +kernel⟩

theorem witness_CommandsLeaveHostDataAlone : exec .clrerr tile = .next (after .clrerr tile) :=
  exec_after (by decide)

theorem witness_GridIsACacheOfWmem : exec .encp tile = .next (after .encp tile) ∧ exec .conv layer = .next (after .conv layer) :=
  ⟨exec_after (by decide +kernel), exec_after (by decide)⟩

/-- The last word of WMEM and of PBUF. -/
theorem witness_HostWriteThenReadReturnsIt :
    (MemoriesOk (pending (.write 0x1FFFFFFF#32 7) tile) ∧ tile.caps.Legal ∧ tile.busy = false ∧ tile.state ≠ .fault ∧
      2 ^ 28 - 1 < tile.spaceWords .wmem ∧
      (pending (.write 0x1FFFFFFF#32 7) tile).port = .write (Script.wordAddr .wmem (2 ^ 28 - 1)) 7 :: []) ∧
    (MemoriesOk (pending (.write 0x6FFFFFFF#32 7) tile) ∧ 2 ^ 28 - 1 < tile.spaceWords .pbuf ∧
      (pending (.write 0x6FFFFFFF#32 7) tile).port = .write (Script.wordAddr .pbuf (2 ^ 28 - 1)) 7 :: []) := by
  refine ⟨⟨?_, by decide⟩, ?_, by decide⟩ <;> constructor <;> decide

theorem witness_HostWritesRegistersAtTheirWidth : tile.busy = false ∧ tile.state ≠ .fault ∧
    (pending (.write 0x04#32 9) tile).port = .write 0x04#32 9 :: [] ∧ (pending (.write 0x06#32 9) tile).port = .write 0x06#32 9 :: [] ∧
    (pending (.write 0x07#32 9) tile).port = .write 0x07#32 9 :: [] ∧ (pending (.write 0x14#32 9) tile).port = .write 0x14#32 9 :: [] ∧
    (pending (.write 0x15#32 9) tile).port = .write 0x15#32 9 :: [] ∧ (pending (.write 0x16#32 9) tile).port = .write 0x16#32 9 :: [] ∧
    (pending (.write 0x17#32 9) tile).port = .write 0x17#32 9 :: [] := by decide

/-- The lowest unmapped address, the reserved index, the first index past each end; the first and last read-only register. -/
theorem witness_UnmappedAndReadOnlyDiscardWrites :
    9 ≤ (0x90000000#32).toNat / 2 ^ 28 ∧ (0x13#32).toNat = 0x13 ∧
    (0x1F ≤ (0x1F#32).toNat ∧ (0x1F#32).toNat < 2 ^ 28) ∧ 0x1F ≤ (0x0FFFFFFF#32).toNat ∧
    ((0x80000080#32).toNat / 2 ^ 28 = Script.spaceNumber .tout ∧ tile.spaceWords .tout ≤ (0x80000080#32).toNat % 2 ^ 28) ∧
    ((0x2000FFFF#32).toNat / 2 ^ 28 = Script.spaceNumber .bmem ∧ tile.spaceWords .bmem ≤ (0x2000FFFF#32).toNat % 2 ^ 28) ∧
    (0#32).toNat ∈ [0x00, 0x01, 0x02, 0x05, 0x18, 0x19, 0x1A, 0x1B, 0x1C, 0x1D, 0x1E] ∧
    (0x1E#32).toNat ∈ [0x00, 0x01, 0x02, 0x05, 0x18, 0x19, 0x1A, 0x1B, 0x1C, 0x1D, 0x1E] ∧
    (0x40000000#32).toNat / 2 ^ 28 ∈ [4, 5, 7, 8] ∧ (0x8FFFFFFF#32).toNat / 2 ^ 28 ∈ [4, 5, 7, 8] ∧
    (pending (.write 0x1E#32 9) tile).port = .write 0x1E#32 9 :: [] := by decide

theorem witness_StepKeepsTheRegisterInvariant :
    let s := pending (.write 0x14#32 9) tile
    RegistersOk s ∧ step s = .next (stepped s) := by
  refine ⟨?_, step_stepped (by decide)⟩
  constructor <;> decide

theorem witness_StepKeepsTheMemoryInvariant :
    let s := pending (.write 0x60000000#32 9) tile
    RegistersOk s ∧ MemoriesOk s ∧ step s = .next (stepped s) := by
  refine ⟨?_, ?_, step_stepped (by decide)⟩ <;> constructor <;> decide

theorem witness_StepKeepsTheGrid :
    let s := pending (issueOf .build) layer
    Inv s ∧ step s = .next (stepped s) ∧ (stepped s).state = .built := by
  refine ⟨⟨?_, ?_, fun h => by cases h⟩, step_stepped (by decide +kernel), by decide +kernel⟩ <;> constructor <;> decide

theorem witness_StepAlwaysCompletes : RegistersOk tile := tile_registers

theorem witness_RegistersReadAsTheMapSays : tile.busy = false := rfl

/-- The last word of each memory. -/
theorem witness_MemoriesReadAsTheMapSays : tile.caps.Legal ∧ tile.busy = false ∧ 2 ^ 28 - 1 < tile.caps.capW ∧
    65534 < tile.caps.capB ∧ 2 ^ 28 - 1 < tile.caps.capI ∧ 2 ^ 28 - 1 < tile.caps.capO ∧
    2 ^ 28 - 1 < tile.caps.capX * 16384 ∧ 2 ^ 28 - 1 < tile.caps.capP ∧ 65535 < tile.caps.capA ∧ 127 < 128 := by decide

end Sys2Proof.Tests
end

section
/-! Progress: from every state that meets the register invariant a step completes (00_scope.md R12, 20_memory.md R81). -/

namespace Sys2Proof.Machine

/-- The commands that use the engine are the four that check for STATE = BUILT. -/
theorem gridCommand_of_usesEngine {s : State} {i : Instr} (h : usesEngine s i = true) :
    i = .encp ∨ i = .tmvm ∨ i = .smvm ∨ i = .conv := by
  cases i with
  | encp => exact .inl rfl
  | tmvm => exact .inr (.inl rfl)
  | smvm => exact .inr (.inr (.inl rfl))
  | conv => exact .inr (.inr (.inr rfl))
  | _ => cases h

/-- No command ends in the fault of the engine: one that uses the engine has passed its check for BUILT, and while BUILT the
engine stays inside its spaces. -/
theorem exec_completes {s : State} (h : RegistersOk s) (i : Instr) : ∃ t, exec i s = .next t := by
  by_cases hi : i = .sreset
  · exact ⟨resetRegisters s, hi ▸ rfl⟩
  by_cases hs : s.state = .fault
  · exact ⟨s, exec_of_fault hi hs⟩
  cases hc : firstFailing (checksOf s i) with
  | some c => exact ⟨_, exec_of_failing hi hs hc⟩
  | none =>
    exact ⟨_, exec_of_passing hi hs hc fun hu => engineFits_of_built h (built_of_checks (gridCommand_of_usesEngine hu) hc)⟩

theorem issue_completes {s : State} (h : RegistersOk s) (w : CmdWord) : ∃ t, issue w s = .next t := by
  unfold issue
  cases decode w with
  | ok i => exact exec_completes h i
  | error r => exact ⟨illegalCommand w s, rfl⟩

theorem hostWrite_completes {s : State} (h : RegistersOk s) (a : HostAddr) (d : HostData) : ∃ t, hostWrite a d s = .next t := by
  by_cases ha : a = cmdAddr
  · obtain ⟨t, ht⟩ := issue_completes h (d.setWidth 32)
    exact ⟨t, by simp [hostWrite, ha, h.notBusy, ht]⟩
  · exact ⟨hostStore a d s, if_neg ha⟩

theorem portEvent_completes {s : State} (h : RegistersOk s) (e : PortEvent) : ∃ t, portEvent e s = .next t := by
  cases e with
  | read a => exact ⟨_, rfl⟩
  | write a d => exact hostWrite_completes h a d
  | reset => exact ⟨hardwareReset s, rfl⟩

/-- Settles O56: an idle step keeps the state, and the pending event completes because its command, if it issues one, does. -/
theorem stepAlwaysCompletes : Obligations.StepAlwaysCompletes := by
  intro s h
  unfold step nextEvent
  cases s.port with
  | nil => exact ⟨s, rfl⟩
  | cons e rest => exact portEvent_completes (h.withPort rest) e

end Sys2Proof.Machine
end

section
/-! What a command leaves unchanged: its frame as one equation, and the buffers that only some commands write
(10_state.md R46 to R53). -/

namespace Sys2Proof.Machine

/-- `t` differs from `s` at most in what the commands other than SRESET write. -/
def CommandFrame (s t : State) : Prop :=
  t = { s with
    state := t.state, busy := t.busy, qovf := t.qovf, errCode := t.errCode, errInfo := t.errInfo, result := t.result
    posR := t.posR, posC := t.posC, inFeat := t.inFeat, rowTiles := t.rowTiles, colTiles := t.colTiles
    nSlices := t.nSlices, outRows := t.outRows, outCols := t.outCols
    omem := t.omem, tstore := t.tstore, pbuf := t.pbuf, acc := t.acc, tout := t.tout }

theorem ConvFrame.commandFrame {s t : State} (h : ConvFrame (publishOutDims s) t) : CommandFrame s t := by
  unfold CommandFrame
  rw [h]
  rfl

theorem commandFrame_effectOf (s : State) (i : Instr) : CommandFrame s (effectOf s i) := by
  cases i with
  | conv => exact (convFrame_convolve s).commandFrame
  | tmvm => rw [effectOf]; split <;> rfl
  | _ => rfl

theorem CommandFrame.sameLayer {s t : State} (h : CommandFrame s t) : SameLayer s t := by
  rw [h]
  exact ⟨rfl, rfl, rfl, rfl, rfl, rfl, rfl, rfl, rfl, rfl, rfl⟩

/-- BUSY at the start and at the end of a command are in the frame. -/
theorem CommandFrame.ended {s t : State} (h : CommandFrame (started s) t) : CommandFrame s (ended t) := by
  unfold CommandFrame
  rw [h]

theorem commandFrame_exec {i : Instr} {s t : State} (hi : i ≠ .sreset) (h : exec i s = .next t) : CommandFrame s t := by
  rcases exec_next h with ⟨e, -⟩ | ⟨-, -, rfl⟩ | ⟨-, -, c, -, rfl⟩ | ⟨-, -, -, -, rfl⟩
  · exact absurd e hi
  · rfl
  · rfl
  · exact (commandFrame_effectOf (started s) i).ended

/-- The position counters, the grid and the four buffers of the engine, each with the commands that write it. -/
structure WritersOnly (i : Instr) (s t : State) : Prop where
  position : i ≠ .conv → t.posR = s.posR ∧ t.posC = s.posC
  omem : i ≠ .conv → t.omem = s.omem
  tstore : i ≠ .build → t.tstore = s.tstore
  tout : i ≠ .tmvm → t.tout = s.tout
  pbuf : i ≠ .conv → i ≠ .encp → t.pbuf = s.pbuf
  acc : i ≠ .conv → i ≠ .smvm → t.acc = s.acc

/-- What CONV leaves of the grid and of TOUT. -/
theorem convolve_keeps (s : State) : (convolve s).tstore = s.tstore ∧ (convolve s).tout = s.tout := by
  rw [convFrame_convolve s]
  exact ⟨rfl, rfl⟩

theorem writersOnly_effectOf (s : State) (i : Instr) : WritersOnly i s (effectOf s i) := by
  cases i with
  | conv =>
    obtain ⟨hx, ht⟩ := convolve_keeps s
    constructor <;> simp [effectOf, hx, ht]
  | tmvm =>
    rw [effectOf]
    split <;> constructor <;> simp
  | _ => constructor <;> simp [effectOf, buildEffect, invalEffect]

theorem writersOnly_exec {i : Instr} {s t : State} (hi : i ≠ .sreset) (h : exec i s = .next t) : WritersOnly i s t := by
  rcases exec_next h with ⟨e, -⟩ | ⟨-, -, rfl⟩ | ⟨-, -, c, -, rfl⟩ | ⟨-, -, -, -, rfl⟩
  · exact absurd e hi
  · constructor <;> simp
  · constructor <;> simp
  · obtain ⟨hpos, hom, hts, hto, hpb, hac⟩ := writersOnly_effectOf (started s) i
    exact ⟨hpos, hom, hts, hto, hpb, hac⟩

/-- Settles O46: SRESET keeps every memory; any other command keeps what is outside the frame of the commands, and each buffer
it is no writer of. -/
theorem commandsLeaveHostDataAlone : Obligations.CommandsLeaveHostDataAlone := by
  intro i s t h
  by_cases hi : i = .sreset
  · subst hi
    injection h with h
    subst h
    simp
  · have hf := commandFrame_exec hi h
    obtain ⟨hpos, hom, -, hto, hpb, hac⟩ := writersOnly_exec hi h
    refine ⟨?_, fun _ => ?_, fun _ => hpos, hom, hto, hpb, hac⟩
    · rw [hf]
      simp
    · refine ⟨?_, ?_, ?_, ?_, ?_, hf.sameLayer⟩ <;> rw [hf]

end Sys2Proof.Machine
end

section
/-! What an event of the host port leaves unchanged when it runs no command and is no reset (20_memory.md R78, R82;
10_state.md R42). -/

namespace Sys2Proof.Machine

/-- `t` differs from `s` at most in what a host access that runs no command can change. -/
def AccessFrame (s t : State) : Prop :=
  t = { s with
    errCode := t.errCode, errInfo := t.errInfo, arg0 := t.arg0, tileI := t.tileI, tileJ := t.tileJ
    inCh := t.inCh, outCh := t.outCh, kRows := t.kRows, kCols := t.kCols, stride := t.stride, pad := t.pad, dil := t.dil
    groups := t.groups, biasEn := t.biasEn, sliceW := t.sliceW, fmt := t.fmt
    inRows := t.inRows, inCols := t.inCols, posR := t.posR, posC := t.posC
    wmem := t.wmem, bmem := t.bmem, imem := t.imem, pbuf := t.pbuf, port := t.port, readLog := t.readLog }

theorem AccessFrame.state {s t : State} (h : AccessFrame s t) : t.state = s.state := by rw [h]

theorem AccessFrame.qovf {s t : State} (h : AccessFrame s t) : t.qovf = s.qovf := by rw [h]

theorem AccessFrame.tstore {s t : State} (h : AccessFrame s t) : t.tstore = s.tstore := by rw [h]

theorem SameLayer.refl (s : State) : SameLayer s s := ⟨rfl, rfl, rfl, rfl, rfl, rfl, rfl, rfl, rfl, rfl, rfl⟩

theorem accessFrame_store (c : Csr) (d : HostData) (s : State) : AccessFrame s (c.store d s) := by cases c <;> rfl

theorem accessFrame_illegalCommand (w : CmdWord) (s : State) : AccessFrame s (illegalCommand w s) := by
  unfold illegalCommand
  split <;> rfl

theorem sameLayer_illegalCommand (w : CmdWord) (s : State) : SameLayer s (illegalCommand w s) := by
  unfold illegalCommand
  split <;> exact .refl s

/-- A register outside the layer indices takes its write without a change of the layer. -/
theorem sameLayer_store {n : Nat} {c : Csr} (hl : isLayerIndex n ≠ true) (hc : Csr.ofIndex n = some c) (d : HostData)
    (s : State) : SameLayer s (c.store d s) := by
  have hn := ofIndex_not_layer hl hc
  cases c with
  | inCh | outCh | kRows | kCols | stride | pad | dil | groups | biasEn | sliceW | fmt => exact absurd hn (by decide)
  | _ => exact .refl s

theorem accessFrame_hostStore (a : HostAddr) (d : HostData) (s : State) : AccessFrame s (hostStore a d s) := by
  rcases hostStore_cases a d s with e | ⟨-, -, ⟨-, e⟩ | ⟨-, e⟩ | ⟨-, e⟩ | ⟨-, e⟩ | ⟨-, -, e⟩ | ⟨c, -, -, e⟩⟩ <;> rw [e]
  iterate 6 · rfl
  · exact accessFrame_store c d s

/-- While BUILT a host write leaves the layer registers alone (10_state.md R42). -/
theorem sameLayer_hostStore {s : State} (hb : s.state = .built) (a : HostAddr) (d : HostData) :
    SameLayer s (hostStore a d s) := by
  rcases hostStore_cases a d s with e | ⟨-, -, ⟨-, e⟩ | ⟨-, e⟩ | ⟨-, e⟩ | ⟨-, e⟩ | ⟨-, -, e⟩ | ⟨c, hc, hu, e⟩⟩ <;> rw [e]
  iterate 6 · exact .refl s
  · refine sameLayer_store (fun hl => ?_) hc d s
    rw [hu hl] at hb
    cases hb

theorem AccessFrame.of_withPort {s t : State} {rest : List PortEvent} (h : AccessFrame { s with port := rest } t) :
    AccessFrame s t := by
  unfold AccessFrame
  rw [h]

/-! ### A step, by its event -/

/-- Everything a step with a pending event can have done: hardware reset, the whole command the event issues, or an access
that stays in the frame of accesses and respects the layer lock. -/
theorem step_by_event {s t : State} {e : PortEvent} (he : s.nextIs e) (h : step s = .next t) :
    (e = .reset ∧ ∃ rest, t = hardwareReset { s with port := rest }) ∨
    (∃ i rest, e.Issues i ∧ exec i { s with port := rest } = .next t) ∨
    (AccessFrame s t ∧ (s.state = .built → SameLayer s t)) := by
  obtain ⟨rest, hp⟩ := he
  rcases step_next h with ⟨hp', -⟩ | ⟨e', rest', hp', hcase⟩
  · rw [hp] at hp'
    cases hp'
  rw [hp] at hp'
  cases hp'
  rcases hcase with ⟨a, -, rfl⟩ | ⟨rfl, rfl⟩ | ⟨d, -, -, rfl⟩ | ⟨d, i, rfl, -, hi, hx⟩ | ⟨d, r, -, -, -, rfl⟩ |
    ⟨a, d, -, -, rfl⟩
  · exact .inr (.inr ⟨rfl, fun _ => .refl s⟩)
  · exact .inl ⟨rfl, rest, rfl⟩
  · exact .inr (.inr ⟨rfl, fun _ => .refl s⟩)
  · exact .inr (.inl ⟨i, rest, ⟨d, rfl, hi⟩, hx⟩)
  · have hl := sameLayer_illegalCommand (d.setWidth 32) { s with port := rest }
    exact .inr (.inr ⟨(accessFrame_illegalCommand _ _).of_withPort, fun _ => hl⟩)
  · have hl := sameLayer_hostStore (s := { s with port := rest }) (a := a) (d := d)
    exact .inr (.inr ⟨(accessFrame_hostStore a d _).of_withPort, hl⟩)

/-- The step of a hardware reset. -/
theorem step_of_reset {s : State} (he : s.nextIs .reset) :
    ∃ rest, step s = .next (hardwareReset { s with port := rest }) := by
  obtain ⟨rest, hp⟩ := he
  exact ⟨rest, by simp only [step, nextEvent, hp, portEvent]⟩

/-- The step of a write of a command word to CMD, BUSY = 0. -/
theorem step_of_issues {s : State} {e : PortEvent} {i : Instr} (he : s.nextIs e) (hi : e.Issues i) (hb : s.busy = false) :
    ∃ rest, step s = exec i { s with port := rest } := by
  obtain ⟨rest, hp⟩ := he
  obtain ⟨d, rfl, hd⟩ := hi
  exact ⟨rest, by simp [step, nextEvent, hp, portEvent, hostWrite, issue, hd, hb]⟩

end Sys2Proof.Machine
end

section
/-! The register invariant is kept by every step: by host accesses, by an error entry, by reset, by the commands that only
move data, and by those that change STATE (10_state.md R42, R45; 41_build.md R155). -/

namespace Sys2Proof.Machine

/-! ### Host accesses -/

theorem layerGeometry_congr {s t : State} (h : SameLayer s t) : t.inFeatures = s.inFeatures ∧
    t.layerRowTiles = s.layerRowTiles ∧ t.layerColTiles = s.layerColTiles ∧ t.layerSlices = s.layerSlices := by
  obtain ⟨hi, ho, hr, hc, -, -, -, -, -, hs, -⟩ := h
  simp [State.inFeatures, State.layerRowTiles, State.layerColTiles, State.layerSlices, hi, ho, hr, hc, hs]

/-- `ValidateLayer` reads the layer registers and the capacities only. -/
theorem layerChecks_congr {s t : State} (h : SameLayer s t) (hc : t.caps = s.caps) : t.layerChecks = s.layerChecks := by
  obtain ⟨ef, er, ec, en⟩ := layerGeometry_congr h
  obtain ⟨h1, h2, h3, h4, h5, -, h6, h7, h8, h9, -⟩ := h
  simp only [State.layerChecks, hc, ef, er, ec, en, h1, h2, h3, h4, h5, h6, h7, h8, h9]

/-- An access keeps the invariant when it records nothing and respects the layer lock. -/
theorem RegistersOk.of_accessFrame {s t : State} (h : RegistersOk s) (hf : AccessFrame s t)
    (hr : t.errCode = s.errCode ∧ t.errInfo = s.errInfo) (hl : s.state = .built → SameLayer s t) : RegistersOk t := by
  obtain ⟨hcode, hinfo⟩ := hr
  have hlisted := h.codeListed
  have hno := h.noInfo
  have hfault := h.faultCode
  rw [← hcode] at hlisted hno hfault
  rw [← hinfo] at hno
  rw [hf] at hl ⊢
  refine ⟨h.capsLegal, h.notBusy, hlisted, hno, hfault, h.unbuiltGeometry, fun hb => ?_, fun hb => ?_⟩
  · rw [layerChecks_congr (hl hb) rfl]
    exact h.builtLayer hb
  · obtain ⟨ef, er, ec, en⟩ := layerGeometry_congr (hl hb)
    rw [ef, er, ec, en]
    exact h.builtGeometry hb

theorem record_store (c : Csr) (d : HostData) (s : State) :
    (c.store d s).errCode = s.errCode ∧ (c.store d s).errInfo = s.errInfo := by
  cases c <;> exact ⟨rfl, rfl⟩

/-- A host write that is no command either meets the layer lock or leaves the record alone. -/
theorem hostStore_record (a : HostAddr) (d : HostData) (s : State) :
    (s.state = .built ∧ ∃ info, hostStore a d s = Machine.raiseError .protoLocked info s) ∨
    ((hostStore a d s).errCode = s.errCode ∧ (hostStore a d s).errInfo = s.errInfo) := by
  rcases hostStore_cases a d s with e | ⟨-, -, ⟨-, e⟩ | ⟨-, e⟩ | ⟨-, e⟩ | ⟨-, e⟩ | ⟨hb, -, e⟩ | ⟨c, -, -, e⟩⟩ <;> rw [e]
  iterate 5 · exact .inr ⟨rfl, rfl⟩
  · exact .inl ⟨hb, _, rfl⟩
  · exact .inr (record_store c d s)

theorem RegistersOk.hostStore {s : State} (h : RegistersOk s) (a : HostAddr) (d : HostData) :
    RegistersOk (hostStore a d s) := by
  rcases hostStore_record a d s with ⟨hb, info, e⟩ | hr
  · rw [e]
    exact h.raiseError (by decide) info (by rw [hb]; decide)
  · exact h.of_accessFrame (accessFrame_hostStore a d s) hr fun hb => sameLayer_hostStore hb a d

theorem RegistersOk.illegalCommand {s : State} (h : RegistersOk s) (w : CmdWord) : RegistersOk (illegalCommand w s) := by
  unfold Machine.illegalCommand
  split
  · exact h
  · next hs => exact h.raiseError (by decide) _ hs

theorem registersOk_hardwareReset {s : State} (h : s.caps.Legal) : RegistersOk (hardwareReset s) := by
  constructor <;> simp [hardwareReset, State.reset]
  exact h

/-! ### Commands -/

/-- The commands that only move data leave everything the invariant reads alone. -/
theorem RegistersOk.withData {s : State} (h : RegistersOk s) (q : Bool) (r : BitVec 16) (p : Memory 16) (a t : Memory 64) :
    RegistersOk { s with busy := false, qovf := q, result := r, pbuf := p, acc := a, tout := t } :=
  ⟨h.capsLegal, rfl, h.codeListed, h.noInfo, h.faultCode, h.unbuiltGeometry, h.builtLayer, h.builtGeometry⟩

/-- ENCP and CONV also publish the output size, which the invariant reads while UNBUILT only. -/
theorem RegistersOk.of_convFrame {s t : State} (h : RegistersOk s) (hb : s.state = .built)
    (hf : ConvFrame (publishOutDims (started s)) t) : RegistersOk (ended t) := by
  rw [hf]
  refine ⟨h.capsLegal, rfl, h.codeListed, h.noInfo, h.faultCode, fun hu => ?_, h.builtLayer, h.builtGeometry⟩
  rw [show s.state = .unbuilt from hu] at hb
  cases hb

/-- Outside FAULT the code is not the fatal one. -/
theorem RegistersOk.code_ne_fatal {s : State} (h : RegistersOk s) (hs : s.state ≠ .fault) : s.errCode ≠ 0x80 :=
  fun he => hs (h.faultCode.mpr he)

/-- BUILD publishes the geometry of the layer it has validated. -/
theorem RegistersOk.buildEffect {s : State} (h : RegistersOk s) (hs : s.state ≠ .fault)
    (hc : firstFailing s.layerChecks = none) : RegistersOk (ended (buildEffect (started s))) := by
  obtain ⟨lf, lr, lc, ln⟩ := geometry_lt h.capsLegal ((layerChecks_pass_iff s).mp hc)
  have hgeom := And.intro (Nat.mod_eq_of_lt lf) (And.intro (Nat.mod_eq_of_lt lr)
    (And.intro (Nat.mod_eq_of_lt lc) (Nat.mod_eq_of_lt ln)))
  exact ⟨h.capsLegal, rfl, h.codeListed, h.noInfo, ⟨nofun, fun he => absurd he (h.code_ne_fatal hs)⟩, nofun, fun _ => hc,
    fun _ => hgeom⟩

theorem RegistersOk.invalEffect {s : State} (h : RegistersOk s) (hs : s.state ≠ .fault) :
    RegistersOk (ended (invalEffect (started s))) :=
  ⟨h.capsLegal, rfl, h.codeListed, h.noInfo, ⟨nofun, fun he => absurd he (h.code_ne_fatal hs)⟩,
    fun _ => ⟨rfl, rfl, rfl, rfl, rfl, rfl⟩, nofun, nofun⟩

theorem RegistersOk.raiseFatal {s : State} (h : RegistersOk s) (info : BitVec 64) :
    RegistersOk (ended (raiseFatal info (started s))) :=
  ⟨h.capsLegal, rfl, by simp [ErrorCode.code], nofun, ⟨fun _ => rfl, fun _ => rfl⟩, nofun, nofun, nofun⟩

theorem RegistersOk.clearRecord {s : State} (h : RegistersOk s) (hs : s.state ≠ .fault) :
    RegistersOk (ended (clearRecord (started s))) :=
  ⟨h.capsLegal, rfl, by simp, fun _ => rfl, ⟨fun hf => absurd hf hs, nofun⟩, h.unbuiltGeometry, h.builtLayer,
    h.builtGeometry⟩

/-- The effect of a command whose checks have passed keeps the invariant. -/
theorem RegistersOk.effectOf {s : State} {i : Instr} (h : RegistersOk s) (hs : s.state ≠ .fault)
    (hc : firstFailing (checksOf s i) = none) : RegistersOk (ended (effectOf (started s) i)) := by
  cases i with
  | build => exact h.buildEffect hs hc
  | inval => exact h.invalEffect hs
  | clrerr => exact h.clearRecord hs
  | conv => exact h.of_convFrame (built_of_checks (by simp) hc) (convFrame_convolve _)
  | encp => exact h.of_convFrame (built_of_checks (by simp) hc) rfl
  | tmvm =>
    rw [Machine.effectOf]
    split
    · exact h.raiseFatal _
    · exact h.withData _ _ _ _ _
  | _ => exact h.withData _ _ _ _ _

theorem RegistersOk.exec {i : Instr} {s t : State} (h : RegistersOk s) (hx : exec i s = .next t) : RegistersOk t := by
  rcases exec_next hx with ⟨-, rfl⟩ | ⟨-, -, rfl⟩ | ⟨-, hs, c, hc, rfl⟩ | ⟨-, hs, hc, -, rfl⟩
  · exact registersOk_resetRegisters h.capsLegal
  · exact h
  · have he := h.raiseError (checksOf_error (firstFailing_mem hc).1) c.info hs
    exact he.withData _ _ _ _ _
  · exact h.effectOf hs hc

/-- Settles O53: an idle step keeps the state; the pending event is an access, a reset, a command or an illegal word, each of
which keeps the invariant. -/
theorem stepKeepsTheRegisterInvariant : Obligations.StepKeepsTheRegisterInvariant := by
  intro s t h hstep
  rcases step_next hstep with ⟨-, rfl⟩ | ⟨e, rest, -, hcase⟩
  · exact h
  have h' := h.withPort rest
  rcases hcase with ⟨a, -, rfl⟩ | ⟨-, rfl⟩ | ⟨d, -, -, rfl⟩ | ⟨d, i, -, -, -, hx⟩ | ⟨d, r, -, -, -, rfl⟩ | ⟨a, d, -, -, rfl⟩
  · exact h'.of_accessFrame rfl ⟨rfl, rfl⟩ fun _ => .refl _
  · exact registersOk_hardwareReset h'.capsLegal
  · exact h'
  · exact h'.exec hx
  · exact h'.illegalCommand _
  · exact h'.hostStore a d

end Sys2Proof.Machine
end

section
/-! What changes QOVF, STATE and TSTORE over every event of the host port (10_state.md R43, R45, R50). -/

namespace Sys2Proof.Machine

/-! ### QOVF -/

theorem qovf_convPosition_of_qovf {s : State} (h : s.qovf = true) (rows cols : Nat) (p : Nat × Nat) :
    (convPosition rows cols s p).qovf = true := by
  simp [qovf_convPosition, h]

theorem qovf_biasChannel_of_qovf {s : State} (h : s.qovf = true) (rows cols o : Nat) :
    (biasChannel rows cols s o).qovf = true := by
  rw [biasChannel_eq]
  refine List.foldlRecOn _ _ (motive := fun t : State => t.qovf = true) ?_ fun t ht p _ => ?_
  · simp [h]
  · simp [addBias, ht]

theorem qovf_convolve_of_qovf {s : State} (h : s.qovf = true) : (convolve s).qovf = true := by
  have hp := List.foldlRecOn (positions s.callOutRows s.callOutCols) (convPosition s.callOutRows s.callOutCols)
    (motive := fun t : State => t.qovf = true) (b := publishOutDims s) h
    fun t ht p _ => qovf_convPosition_of_qovf ht _ _ p
  unfold convolve biasPass
  dsimp only
  split
  · exact List.foldlRecOn _ _ (motive := fun t : State => t.qovf = true) hp fun t ht o _ => qovf_biasChannel_of_qovf ht _ _ o
  · exact hp

/-- Only CLRERR among the effects clears QOVF. -/
theorem qovf_effectOf {s : State} {i : Instr} (hi : i ≠ .clrerr) (h : s.qovf = true) : (effectOf s i).qovf = true := by
  cases i with
  | clrerr => exact absurd rfl hi
  | conv => exact qovf_convolve_of_qovf h
  | tmvm => rw [effectOf]; split <;> exact h
  | _ => simp [effectOf, buildEffect, invalEffect, h]

theorem qovf_exec {i : Instr} {s t : State} (hx : exec i s = .next t) (hc : i ≠ .clrerr) (hr : i ≠ .sreset)
    (h : s.qovf = true) : t.qovf = true := by
  rcases exec_next hx with ⟨e, -⟩ | ⟨-, -, rfl⟩ | ⟨-, -, c, -, rfl⟩ | ⟨-, -, -, -, rfl⟩
  · exact absurd e hr
  · exact h
  · exact h
  · exact qovf_effectOf (s := started s) hc h

/-- Settles O42: an access keeps QOVF, and so does every command but CLRERR and SRESET. -/
theorem overflowFlagIsSticky : Obligations.OverflowFlagIsSticky := by
  intro s t e he hstep hs ht
  rcases step_by_event he hstep with ⟨rfl, -⟩ | ⟨i, rest, hi, hx⟩ | ⟨hf, -⟩
  · exact .inr (.inr rfl)
  · by_cases hc : i = .clrerr
    · exact .inl (hc ▸ hi)
    by_cases hr : i = .sreset
    · exact .inr (.inl (hr ▸ hi))
    · exact absurd (qovf_exec hx hc hr hs) (by simp [ht])
  · rw [hf.qovf, hs] at ht
    cases ht

/-! ### TSTORE -/

/-- Settles O45: an access keeps TSTORE, SRESET keeps every memory, and no command but BUILD writes TSTORE. -/
theorem onlyBuildWritesTheGrid : Obligations.OnlyBuildWritesTheGrid := by
  intro s t e he hstep hne
  rcases step_by_event he hstep with ⟨rfl, -⟩ | ⟨i, rest, hi, hx⟩ | ⟨hf, -⟩
  · exact .inr rfl
  · by_cases hb : i = .build
    · exact .inl (hb ▸ hi)
    refine absurd ?_ hne
    by_cases hr : i = .sreset
    · subst hr
      injection hx with hx
      rw [← hx, resetRegisters_tstore]
    · exact (writersOnly_exec hr hx).tstore hb
  · exact absurd hf.tstore hne

/-! ### STATE -/

/-- The rows of the table of 10_state.md R45 that a command makes happen: from `s.state` by `i` to `t`. -/
def ListedChange (i : Instr) (s t : State) : Prop :=
  (i = .sreset ∧ t.state = .unbuilt) ∨
  (i = .inval ∧ s.state = .built ∧ t.state = .unbuilt) ∨
  (i = .build ∧ s.state = .unbuilt ∧ t.state = .built) ∨
  (i = .tmvm ∧ s.state = .built ∧ t.state = .fault ∧ t.errCode = 0x80)

/-- Outside FAULT the effect of a command leaves STATE as it was, or makes a listed change. -/
theorem effectOf_listedChange {s : State} {i : Instr} (hs : s.state ≠ .fault) (hc : firstFailing (checksOf s i) = none)
    (hne : (effectOf s i).state ≠ s.state) : ListedChange i s (effectOf s i) := by
  cases i with
  | build =>
    refine .inr (.inr (.inl ⟨rfl, ?_, rfl⟩))
    cases h : s.state
    · rfl
    · exact absurd h.symm hne
    · exact absurd h hs
  | inval =>
    refine .inr (.inl ⟨rfl, ?_, rfl⟩)
    cases h : s.state
    · exact absurd h.symm hne
    · rfl
    · exact absurd h hs
  | tmvm =>
    have hb := built_of_checks (by simp) hc
    rw [effectOf] at hne ⊢
    split at hne
    · next ho => exact .inr (.inr (.inr ⟨rfl, hb, by rw [if_pos ho]; rfl, by rw [if_pos ho]; rfl⟩))
    · exact absurd rfl hne
  | conv =>
    refine absurd ?_ hne
    rw [effectOf, convFrame_convolve s]
    rfl
  | _ => exact absurd rfl hne

theorem exec_listedChange {i : Instr} {s t : State} (hx : exec i s = .next t) (hne : t.state ≠ s.state) :
    ListedChange i s t := by
  rcases exec_next hx with ⟨rfl, rfl⟩ | ⟨-, -, rfl⟩ | ⟨-, -, c, -, rfl⟩ | ⟨-, hs, hc, -, rfl⟩
  · exact .inl ⟨rfl, rfl⟩
  · exact absurd rfl hne
  · exact absurd rfl hne
  · rw [← checksOf_started] at hc
    exact effectOf_listedChange (s := started s) hs hc hne

theorem ite_some_eq_none {α : Type} {p : Prop} [Decidable p] {a : α} {o : Option α} :
    (if p then some a else o) = none ↔ ¬ p ∧ o = none := by
  by_cases hp : p <;> simp [hp]

/-- A layer with no error in the order of 41_build.md R151 is valid. -/
theorem layerValid_of_layerError {s : State} (h : Reference.layerError s = none) : LayerValid s := by
  simp only [Reference.layerError, ite_some_eq_none, not_or, not_and, not_lt] at h
  obtain ⟨h1, h2, h3, h4, h5, h6, ⟨g0, -⟩, g1, ⟨s0, s1⟩, w, b, x, p, a, -⟩ := h
  exact ⟨by omega, by omega, by omega, by omega, by omega, by omega, by omega, ⟨by omega, s1⟩, w, b, x, p, a⟩

theorem exec_build_state {s t : State} (hx : exec .build s = .next t) (hs : s.state ≠ .fault) (hv : LayerValid s) :
    t.state = .built := by
  rw [exec_of_passing (i := .build) (by simp) hs ((layerChecks_pass_iff s).mpr hv) nofun] at hx
  injection hx with hx
  exact hx ▸ rfl

theorem exec_inval_state {s t : State} (hx : exec .inval s = .next t) (hs : s.state ≠ .fault) : t.state = .unbuilt := by
  rw [exec_of_passing (i := .inval) (by simp) hs rfl nofun] at hx
  injection hx with hx
  exact hx ▸ rfl

theorem exec_tmvm_state {s t : State} (hx : exec .tmvm s = .next t) (hs : s.state = .built)
    (ho : s.rowTiles.toNat ≤ s.tileI.toNat ∨ s.colTiles.toNat ≤ s.tileJ.toNat) : t.state = .fault := by
  have hout : tileOutside s = true := decide_eq_true ho
  have hpass : firstFailing (checksOf s .tmvm) = none := by simp [checksOf, firstFailing, notBuiltCheck, hs]
  rw [exec_of_passing (by simp) (by simp [hs]) hpass (by simp [usesEngine, hout])] at hx
  injection hx with hx
  rw [← hx, effectOf, if_pos (show tileOutside (started s) = true from hout)]
  rfl

/-- Settles O43: reset and the commands of the table are the only events that change STATE, and each of them does. -/
theorem stateChangesOnlyAsListed : Obligations.StateChangesOnlyAsListed := by
  intro s t e he hstep
  refine ⟨fun hne => ?_, ?_, fun hb => ?_⟩
  · rcases step_by_event he hstep with ⟨rfl, rest, rfl⟩ | ⟨i, rest, hi, hx⟩ | ⟨hf, -⟩
    · exact .inl ⟨.inl rfl, rfl⟩
    · rcases exec_listedChange hx hne with ⟨rfl, ht⟩ | ⟨rfl, hst⟩ | ⟨rfl, hst⟩ | ⟨rfl, hst⟩
      · exact .inl ⟨.inr hi, ht⟩
      · exact .inr (.inl ⟨hi, hst⟩)
      · exact .inr (.inr (.inl ⟨hi, hst⟩))
      · exact .inr (.inr (.inr ⟨hi, hst⟩))
    · exact absurd hf.state hne
  · rintro rfl
    obtain ⟨rest, hr⟩ := step_of_reset he
    rw [hr] at hstep
    injection hstep with hstep
    exact hstep ▸ rfl
  · have hx : ∀ {i}, e.Issues i → ∃ rest, exec i { s with port := rest } = .next t := fun hi => by
      obtain ⟨rest, hr⟩ := step_of_issues he hi hb
      exact ⟨rest, hr ▸ hstep⟩
    refine ⟨fun hi => ?_, fun hi hs => ?_, fun hi hs hv => ?_, fun hi hs ho => ?_⟩ <;> obtain ⟨rest, hx⟩ := hx hi
    · injection hx with hx
      exact hx ▸ rfl
    · exact exec_inval_state hx hs
    · exact exec_build_state hx hs (layerValid_of_layerError (s := { s with port := rest }) hv)
    · exact exec_tmvm_state hx hs ho

end Sys2Proof.Machine
end

section
/-! The register map at the host port: what a read of each register returns and what a write stores (10_state.md R21 to R42). -/

namespace Sys2Proof.Machine

/-! ### Reads -/

theorem registerIndex_lt (c : Csr) : Script.registerIndex c < 31 := by cases c <;> decide

/-- A read of a register's address that BUSY does not block is the read of the register. -/
theorem hostRead_registerAddr {s : State} {c : Csr} (h : (s.busy && decide (Script.registerAddr c ≠ 0)) = false) :
    hostRead s (Script.registerAddr c) = c.read s := by
  have hi := registerIndex_lt c
  have hlt : Script.registerIndex c < 2 ^ 28 := by omega
  rw [hostRead, h, Script.registerAddr, spaceField_wordAddr _ hlt, indexField_wordAddr _ hlt, ofNumber_spaceNumber]
  simp [State.spaceWords, hi, State.peek, ofIndex_registerIndex]

/-- BUSY blocks no read of STATUS, which is at address 0. -/
theorem hostRead_status (s : State) : hostRead s 0 = s.statusWord.setWidth 64 :=
  hostRead_registerAddr (c := .status) (Bool.and_false s.busy)

theorem fmtReadback_eq_or (s : State) : s.fmtReadback = s.fmt ∨ s.fmtReadback = s.fmt &&& 0xF0F#12 := by
  unfold State.fmtReadback
  dsimp only
  split
  · exact .inl rfl
  · split
    · exact .inl rfl
    · exact .inr rfl

/-- Settles O57: each address is the address of its register. -/
theorem registersReadAsTheMapSays : Obligations.RegistersReadAsTheMapSays := by
  intro s hb
  have hr : ∀ c, hostRead s (Script.registerAddr c) = c.read s := fun c => hostRead_registerAddr (by simp [hb])
  have hfmt : hostRead s 0x12#32 = s.fmt.setWidth 64 ∨ hostRead s 0x12#32 = (s.fmt &&& 0xF0F#12).setWidth 64 := by
    rw [show hostRead s 0x12#32 = s.fmtReadback.setWidth 64 from hr .fmt]
    exact (fmtReadback_eq_or s).imp (congrArg _) (congrArg _)
  exact ⟨hr .errCode, hr .errInfo, hr .cmd, hr .arg0, hr .result, hr .tileI, hr .tileJ, hr .inCh, hr .outCh, hr .kRows,
    hr .kCols, hr .stride, hr .pad, hr .dil, hr .groups, hr .biasEn, hr .sliceW, hfmt, hr .inRows, hr .inCols, hr .posR,
    hr .posC, hr .inFeat, hr .rowTiles, hr .colTiles, hr .nSlices, hr .outRows, hr .outCols, hr .tileDim⟩

theorem toNat_statusWord (s : State) : s.statusWord.toNat =
    s.state.code + 4 * s.busy.toNat + 16 * s.qovf.toNat + 32 * s.err.toNat := by
  have hs : s.state.code ≤ 3 := by cases s.state <;> decide
  have h1 := s.busy.toNat_le
  have h2 := s.qovf.toNat_le
  have h3 := s.err.toNat_le
  rw [State.statusWord, BitVec.toNat_ofNat, Nat.mod_eq_of_lt (by omega)]

/-- Settles O51: the status word is the sum of its fields, and ERR is 1 exactly when a code is recorded. -/
theorem statusReadsItsFields : Obligations.StatusReadsItsFields := by
  intro s
  have hbusy : 4 * s.busy.toNat = if s.busy then 4 else 0 := by cases s.busy <;> rfl
  have hqovf : 16 * s.qovf.toNat = if s.qovf then 16 else 0 := by cases s.qovf <;> rfl
  have herr : 32 * s.err.toNat = if s.errCode = 0 then 0 else 32 := by
    by_cases he : s.errCode = 0#8 <;> simp [State.err, he]
  have hlt := s.statusWord.isLt
  rw [hostRead_status, BitVec.toNat_setWidth, Nat.mod_eq_of_lt (by omega), toNat_statusWord, hbusy, hqovf, herr]
  cases s.state <;> rfl

/-! ### Writes -/

theorem wordAddr_csr (n : Nat) : Script.wordAddr .csr n = BitVec.ofNat 32 n := by simp [Script.wordAddr, Script.spaceNumber]

/-- The step of a host write to an address other than that of CMD. -/
theorem step_of_write {s t : State} {a : HostAddr} {d : HostData} {rest : List PortEvent} (hp : s.port = .write a d :: rest)
    (ha : a ≠ cmdAddr) (ht : hostStore a d { s with port := rest } = t) : step s = .next t := by
  simp only [step, nextEvent, hp, portEvent, hostWrite, if_neg ha, ht]

theorem hostStore_of_fault {s : State} (hs : s.state = .fault) (a : HostAddr) (d : HostData) : hostStore a d s = s := by
  simp [hostStore, hs]

/-- A host write to a register index, BUSY = 0 and outside FAULT, is the write of the register file. -/
theorem hostStore_csr {s : State} (hb : s.busy = false) (hs : s.state ≠ .fault) {n : Nat} (hn : n < 31) (d : HostData) :
    hostStore (Script.wordAddr .csr n) d s = writeRegister n d s := by
  have hlt : n < 2 ^ 28 := by omega
  simp [hostStore, hb, hs, spaceField_wordAddr _ hlt, indexField_wordAddr _ hlt, ofNumber_spaceNumber, State.spaceWords, hn,
    State.poke]

/-- A layer register is locked while BUILT. -/
theorem writeRegister_locked {s : State} {n : Nat} (hl : isLayerIndex n = true) (hb : s.state = .built) (d : HostData) :
    writeRegister n d s = raiseError .protoLocked (BitVec.ofNat 64 n) s := by
  simp [writeRegister, hl, hb]

/-- A register that is not locked takes its write. -/
theorem writeRegister_registerIndex {s : State} {c : Csr}
    (h : isLayerIndex (Script.registerIndex c) = true → s.state ≠ .built) (d : HostData) : writeRegister (Script.registerIndex c) d s = c.store d s := by
  rw [writeRegister, if_neg (by simpa using h), ofIndex_registerIndex]

theorem registerAddr_ne_cmdAddr {c : Csr} (hc : c ≠ .cmd) : Script.registerAddr c ≠ cmdAddr := by
  cases c with
  | cmd => exact absurd rfl hc
  | _ => decide

/-- The step of a write to a register other than CMD that the lock lets through. -/
theorem step_of_write_register {s : State} {c : Csr} {d : HostData} {rest : List PortEvent}
    (hp : s.port = .write (Script.registerAddr c) d :: rest) (hc : c ≠ .cmd) (hb : s.busy = false) (hs : s.state ≠ .fault)
    (hl : isLayerIndex (Script.registerIndex c) = true → s.state ≠ .built) :
    step s = .next (c.store d { s with port := rest }) := by
  refine step_of_write hp (registerAddr_ne_cmdAddr hc) ?_
  rw [Script.registerAddr, hostStore_csr (s := { s with port := rest }) hb hs (registerIndex_lt c)]
  exact writeRegister_registerIndex (s := { s with port := rest }) hl d

/-- Settles O49: none of the seven registers is a layer register. -/
theorem hostWritesRegistersAtTheirWidth : Obligations.HostWritesRegistersAtTheirWidth := by
  intro s d rest hb hs
  have hw : ∀ c : Csr, c ≠ .cmd → isLayerIndex (Script.registerIndex c) = false →
      s.port = .write (Script.registerAddr c) d :: rest → step s = .next (c.store d { s with port := rest }) :=
    fun c hc hl hp => step_of_write_register hp hc hb hs (by simp [hl])
  exact ⟨hw .arg0 (by decide) rfl, hw .tileI (by decide) rfl, hw .tileJ (by decide) rfl, hw .inRows (by decide) rfl,
    hw .inCols (by decide) rfl, hw .posR (by decide) rfl, hw .posC (by decide) rfl⟩

/-! ### The layer lock -/

/-- A host write to a layer index: the lock while BUILT, nothing in FAULT. -/
theorem layerWrite_refused {s : State} {n : Nat} {d : HostData} {rest : List PortEvent} (hn : 0x08 ≤ n ∧ n ≤ 0x12)
    (hb : s.busy = false) (hp : s.port = .write (BitVec.ofNat 32 n) d :: rest) :
    (s.state = .built → step s = .next (raiseError .protoLocked (BitVec.ofNat 64 n) { s with port := rest })) ∧
    (s.state = .fault → step s = .next { s with port := rest }) := by
  have ha : BitVec.ofNat 32 n ≠ cmdAddr := by
    intro h
    have := congrArg BitVec.toNat h
    simp [cmdAddr] at this
    omega
  refine ⟨fun hs => step_of_write hp ha ?_, fun hs => step_of_write hp ha ?_⟩
  · rw [← wordAddr_csr, hostStore_csr (s := { s with port := rest }) hb (by simp [hs]) (by omega)]
    exact writeRegister_locked (s := { s with port := rest }) (decide_eq_true hn) hs d
  · exact hostStore_of_fault (s := { s with port := rest }) hs _ d

/-- The two fields of FMT after a write of `d`: F_IN from bits 3:0, F_W from bits 11:8 (10_state.md R35). -/
theorem fmt_fields (d : HostData) :
    (d.setWidth 12).toNat % 16 = d.toNat % 16 ∧ (d.setWidth 12).toNat / 256 = d.toNat / 256 % 16 := by
  rw [BitVec.toNat_setWidth]
  omega

/-- A step from BUILT to BUILT keeps the layer: the lock holds against the host, no command but SRESET writes a layer register,
and both resets leave UNBUILT. -/
theorem sameLayer_step {s t : State} (h : step s = .next t) (hs : s.state = .built) (ht : t.state = .built) :
    SameLayer s t := by
  cases hp : s.port with
  | nil =>
    rw [step, nextEvent, hp] at h
    injection h with h
    exact h ▸ .refl s
  | cons e rest =>
    rcases step_by_event ⟨rest, hp⟩ h with ⟨-, rest, rfl⟩ | ⟨i, rest, -, hx⟩ | ⟨-, hl⟩
    · cases ht
    · by_cases hr : i = .sreset
      · subst hr
        injection hx with hx
        subst hx
        cases ht
      · exact (commandFrame_exec hr hx).sameLayer
    · exact hl hs

/-- Settles O44: the lock, the writes while UNBUILT register by register, and the steps from BUILT to BUILT. -/
theorem layerRegistersAreLocked : Obligations.LayerRegistersAreLocked := by
  refine ⟨fun s idx d rest hlo hhi hb hp => layerWrite_refused ⟨hlo, hhi⟩ hb hp, fun s d rest hb hs => ?_,
    fun s t h hs ht => sameLayer_step h hs ht⟩
  have hw : ∀ c : Csr, c ≠ .cmd → s.port = .write (Script.registerAddr c) d :: rest →
      step s = .next (c.store d { s with port := rest }) := fun c hc hp =>
    step_of_write_register hp hc hb (by simp [hs]) (by simp [hs])
  exact ⟨hw .inCh (by decide), hw .outCh (by decide), hw .kRows (by decide), hw .kCols (by decide), hw .stride (by decide),
    hw .pad (by decide), hw .dil (by decide), hw .groups (by decide), hw .biasEn (by decide), hw .sliceW (by decide),
    fun hp => ⟨_, hw .fmt (by decide) hp, rfl, fmt_fields d⟩⟩

end Sys2Proof.Machine
end

section
/-! The memory invariant is kept by every step: each write of a command or of the host stays inside its space, and every write
keeps the canonical form (20_memory.md R72, R81). -/

namespace Sys2Proof.Machine

/-! ### One memory -/

/-- A write inside a memory's capacity keeps it canonical and inside its capacity. -/
theorem Memory.ok_write {w cap i : Nat} {m : Memory w} (hm : m.wf ∧ m.within cap) (hi : i < cap) (v : BitVec w) :
    (m.write i v).wf ∧ (m.write i v).within cap :=
  ⟨Memory.wf_write hm.1 i v, Memory.within_write hm.2 hi v⟩

/-- So does the store of a vector that fits. -/
theorem Memory.ok_store {w cap : Nat} {m : Memory w} (hm : m.wf ∧ m.within cap) {ws : List (BitVec w)}
    (hc : ws.length ≤ cap) : (m.store ws).wf ∧ (m.store ws).within cap :=
  ⟨Memory.wf_store hm.1 ws, Memory.within_store hm.1 hm.2 hc⟩

theorem Memory.ok_empty (w cap : Nat) : (Memory.empty w).wf ∧ (Memory.empty w).within cap :=
  ⟨Memory.wf_empty w, Memory.within_empty w cap⟩

/-! ### Host accesses and reset -/

theorem MemoriesOk.raiseError {s : State} (h : MemoriesOk s) (e : ErrorCode) (info : BitVec 64) :
    MemoriesOk (raiseError e info s) := { h with }

theorem MemoriesOk.store {s : State} (h : MemoriesOk s) (c : Csr) (d : HostData) : MemoriesOk (c.store d s) := by
  cases c <;> exact { h with }

theorem MemoriesOk.hostStore {s : State} (h : MemoriesOk s) (a : HostAddr) (d : HostData) : MemoriesOk (hostStore a d s) := by
  rcases hostStore_cases a d s with e | ⟨-, -, ⟨hi, e⟩ | ⟨hi, e⟩ | ⟨hi, e⟩ | ⟨hi, e⟩ | ⟨-, -, e⟩ | ⟨c, -, -, e⟩⟩ <;> rw [e]
  · exact h
  · exact { h with wmem := Memory.ok_write h.wmem hi _ }
  · exact { h with bmem := Memory.ok_write h.bmem hi _ }
  · exact { h with imem := Memory.ok_write h.imem hi _ }
  · exact { h with pbuf := Memory.ok_write h.pbuf hi _ }
  · exact h.raiseError _ _
  · exact h.store c d

theorem MemoriesOk.illegalCommand {s : State} (h : MemoriesOk s) (w : CmdWord) : MemoriesOk (illegalCommand w s) := by
  unfold Machine.illegalCommand
  split
  · exact h
  · exact h.raiseError _ _

theorem memoriesOk_hardwareReset (s : State) : MemoriesOk (hardwareReset s) := by
  constructor <;> exact Memory.ok_empty _ _

/-! ### CONV -/

/-- The words that the loops of CONV write, for an output of `rows` by `cols` positions, are inside their spaces. -/
structure ConvRoom (rows cols : Nat) (s : State) : Prop where
  omem : s.outCh.toNat * rows * cols ≤ s.caps.capO
  pbuf : s.inFeatures ≤ s.caps.capP
  acc : s.colTiles.toNat * tileDim ≤ s.caps.capA

theorem ConvRoom.of_frame {rows cols : Nat} {s t : State} (h : ConvRoom rows cols s) (hf : ConvFrame s t) :
    ConvRoom rows cols t := by
  rw [hf]
  exact { h with }

/-- The output word of a channel of the layer at a position of the output is inside OMEM. -/
theorem ConvRoom.omemIndex_lt {rows cols o : Nat} {s : State} (h : ConvRoom rows cols s) (ho : o < s.outCh.toNat)
    {p : Nat × Nat} (hp : p ∈ positions rows cols) : omemIndex rows cols o p.1 p.2 < s.caps.capO := by
  obtain ⟨hr, hc⟩ := mem_positions.mp hp
  exact lt_of_lt_of_le (Machine.omemIndex_lt ho hr hc) h.omem

/-- A loop of passes that each stay in CONV's frame and keep the memories wherever there is room keeps the memories. -/
theorem MemoriesOk.foldl {α : Type} {rows cols : Nat} {f : State → α → State} {l : List α} {s : State} (h : MemoriesOk s)
    (hr : ConvRoom rows cols s) (hf : ∀ t a, ConvFrame t (f t a))
    (hm : ∀ t, MemoriesOk t → ConvRoom rows cols t → t.outCh = s.outCh → ∀ a ∈ l, MemoriesOk (f t a)) :
    MemoriesOk (l.foldl f s) := by
  refine (List.foldlRecOn l f (motive := fun t => ConvFrame s t ∧ MemoriesOk t) ⟨.refl s, h⟩ ?_).2
  rintro t ⟨hst, ht⟩ a ha
  exact ⟨hst.trans (hf t a), hm t ht (hr.of_frame hst) (by rw [hst]) a ha⟩

theorem MemoriesOk.encodePatch {s : State} (h : MemoriesOk s) (hf : s.inFeatures ≤ s.caps.capP) (r c : Nat) :
    MemoriesOk (encodePatch r c s) :=
  { h with pbuf := Memory.ok_store h.pbuf (by simpa using hf) }

theorem MemoriesOk.accumulate {s : State} (h : MemoriesOk s) (hc : s.colTiles.toNat * tileDim ≤ s.caps.capA) :
    MemoriesOk (accumulate s) :=
  { h with acc := Memory.ok_store h.acc (by simpa [schedOutputs] using hc) }

theorem MemoriesOk.convPosition {rows cols : Nat} {s : State} (h : MemoriesOk s) (hr : ConvRoom rows cols s)
    {p : Nat × Nat} (hp : p ∈ positions rows cols) : MemoriesOk (convPosition rows cols s p) := by
  have hpos : MemoriesOk { s with posR := BitVec.ofNat 32 p.1, posC := BitVec.ofNat 32 p.2 } := { h with }
  have hsum : MemoriesOk (summed p s) := (hpos.encodePatch hr.pbuf p.1 p.2).accumulate hr.acc
  have hroom : ConvRoom rows cols (summed p s) := { hr with }
  rw [convPosition_eq]
  refine hsum.foldl hroom (convFrame_writeOutput rows cols p.1 p.2) fun t ht hrt hot o ho => ?_
  have ho : o < t.outCh.toNat := by
    rw [hot]
    exact List.mem_range.mp ho
  exact { ht with omem := Memory.ok_write ht.omem (hrt.omemIndex_lt ho hp) _ }

theorem MemoriesOk.biasChannel {rows cols o : Nat} {s : State} (h : MemoriesOk s) (hr : ConvRoom rows cols s)
    (ho : o < s.outCh.toNat) : MemoriesOk (biasChannel rows cols s o) := by
  have hnoted : MemoriesOk (noteOverflow (s.biasOf o).2 s) := { h with }
  have hroom : ConvRoom rows cols (noteOverflow (s.biasOf o).2 s) := { hr with }
  rw [biasChannel_eq]
  refine hnoted.foldl hroom (convFrame_addBias rows cols o _) fun t ht hrt hot p hp => ?_
  have ho : o < t.outCh.toNat := by rwa [hot]
  exact { ht with omem := Memory.ok_write ht.omem (hrt.omemIndex_lt ho hp) _ }

theorem MemoriesOk.biasPass {rows cols : Nat} {s : State} (h : MemoriesOk s) (hr : ConvRoom rows cols s) :
    MemoriesOk (biasPass rows cols s) := by
  unfold Machine.biasPass
  split
  · exact h.foldl hr (convFrame_biasChannel rows cols) fun t ht hrt hot o ho =>
      ht.biasChannel hrt (by rw [hot]; exact List.mem_range.mp ho)
  · exact h

theorem MemoriesOk.convolve {s : State} (h : MemoriesOk s) (hr : ConvRoom s.callOutRows s.callOutCols s) :
    MemoriesOk (convolve s) := by
  have hdims : MemoriesOk (publishOutDims s) := { h with }
  have hroom : ConvRoom s.callOutRows s.callOutCols (publishOutDims s) := { hr with }
  have hpositions := hdims.foldl hroom (convFrame_convPosition _ _) (l := positions s.callOutRows s.callOutCols)
    fun t ht hrt _ p hp => ht.convPosition hrt hp
  exact hpositions.biasPass (hroom.of_frame (.foldl (convFrame_convPosition _ _) _ _))

/-- The last check of CONV and the guard of the engine give its loops their room (44_conv.md R200). -/
theorem convRoom_of_checks {s : State} (hc : firstFailing (checksOf s .conv) = none) (he : s.engineFits = true) :
    ConvRoom s.callOutRows s.callOutCols s := by
  obtain ⟨-, -, hp, ha, -, -⟩ := (engineFits_iff s).mp he
  exact ⟨(capacityCheck_passes _ _ 4).mp (firstFailing_eq_none.mp hc _ (by simp [checksOf])), hp, ha⟩

/-! ### Commands -/

theorem MemoriesOk.buildEffect {s : State} (h : MemoriesOk s) (hc : firstFailing s.layerChecks = none) :
    MemoriesOk (buildEffect s) :=
  { h with
    tstore := ⟨Memory.wf_overwrite h.tstore.1 (rising_gridEntries s) (gridEntries_lt s),
      Memory.within_overwrite h.tstore.1 h.tstore.2 (gridEntries_lt s) (gridCells_le ((layerChecks_pass_iff s).mp hc))⟩ }

/-- The effect of a command whose checks have passed, the engine inside its spaces, keeps the invariant. -/
theorem MemoriesOk.effectOf {s : State} {i : Instr} (h : MemoriesOk s) (hc : firstFailing (checksOf s i) = none)
    (he : usesEngine s i = true → s.engineFits = true) : MemoriesOk (effectOf s i) := by
  cases i with
  | build => exact h.buildEffect hc
  | encp =>
    obtain ⟨-, -, hp, -⟩ := (engineFits_iff s).mp (he rfl)
    have hdims : MemoriesOk (publishOutDims s) := { h with }
    exact hdims.encodePatch hp _ _
  | tmvm =>
    rw [Machine.effectOf]
    split
    · exact { h with }
    · exact { h with tout := Memory.ok_store h.tout (by simp [tileOutputs]) }
  | smvm =>
    obtain ⟨-, -, -, ha, -⟩ := (engineFits_iff s).mp (he rfl)
    exact h.accumulate ha
  | conv => exact h.convolve (convRoom_of_checks hc (he rfl))
  | _ => exact { h with }

theorem MemoriesOk.exec {i : Instr} {s t : State} (h : MemoriesOk s) (hx : exec i s = .next t) : MemoriesOk t := by
  rcases exec_next hx with ⟨-, rfl⟩ | ⟨-, -, rfl⟩ | ⟨-, -, c, -, rfl⟩ | ⟨-, -, hc, he, rfl⟩
  · exact { h with }
  · exact h
  · exact { h with }
  · have hstarted : MemoriesOk (started s) := { h with }
    rw [← checksOf_started] at hc
    exact { hstarted.effectOf hc he with }

/-- Settles O54: an idle step keeps the state; the pending event is an access, a reset, a command or an illegal word, each of
which keeps the invariant. -/
theorem stepKeepsTheMemoryInvariant : Obligations.StepKeepsTheMemoryInvariant := by
  intro s t _ h hstep
  rcases step_next hstep with ⟨-, rfl⟩ | ⟨e, rest, -, hcase⟩
  · exact h
  have h' := h.withPort rest
  rcases hcase with ⟨a, -, rfl⟩ | ⟨-, rfl⟩ | ⟨d, -, -, rfl⟩ | ⟨d, i, -, -, -, hx⟩ | ⟨d, r, -, -, -, rfl⟩ | ⟨a, d, -, -, rfl⟩
  · exact { h with }
  · exact memoriesOk_hardwareReset _
  · exact h'
  · exact h'.exec hx
  · exact h'.illegalCommand _
  · exact h'.hostStore a d

end Sys2Proof.Machine
end

section
/-! ENCP, TMVM, SMVM and CONV do not see WMEM: each commutes with the replacement of WMEM by another (20_memory.md R84). -/

namespace Sys2Proof.Machine

/-- The state with another WMEM. -/
abbrev withWmem (m : Memory 32) (s : State) : State := { s with wmem := m }

/-! ### The loops of CONV -/

theorem convPosition_withWmem (m : Memory 32) (rows cols : Nat) (s : State) (p : Nat × Nat) :
    convPosition rows cols (withWmem m s) p = withWmem m (convPosition rows cols s p) := by
  rw [convPosition_eq, convPosition_eq]
  exact List.foldl_hom (init := summed p s) (withWmem m) fun _ _ => rfl

theorem biasChannel_withWmem (m : Memory 32) (rows cols : Nat) (s : State) (o : Nat) :
    biasChannel rows cols (withWmem m s) o = withWmem m (biasChannel rows cols s o) := by
  rw [biasChannel_eq, biasChannel_eq]
  exact List.foldl_hom (init := noteOverflow (s.biasOf o).2 s) (withWmem m) fun _ _ => rfl

theorem biasPass_withWmem (m : Memory 32) (rows cols : Nat) (s : State) :
    biasPass rows cols (withWmem m s) = withWmem m (biasPass rows cols s) := by
  unfold biasPass
  split
  · exact List.foldl_hom (withWmem m) (biasChannel_withWmem m rows cols)
  · rfl

theorem convolve_withWmem (m : Memory 32) (s : State) : convolve (withWmem m s) = withWmem m (convolve s) := by
  have hpositions := List.foldl_hom (init := publishOutDims s) (l := positions s.callOutRows s.callOutCols) (withWmem m)
    (convPosition_withWmem m s.callOutRows s.callOutCols)
  exact (congrArg (biasPass s.callOutRows s.callOutCols) hpositions).trans (biasPass_withWmem m _ _ _)

/-! ### The commands -/

/-- The commands that read weights from the grid, where BUILD has put them. -/
theorem effectOf_withWmem {i : Instr} (hi : i = .encp ∨ i = .tmvm ∨ i = .smvm ∨ i = .conv) (m : Memory 32) (s : State) :
    effectOf (withWmem m s) i = withWmem m (effectOf s i) := by
  rcases hi with rfl | rfl | rfl | rfl
  · rfl
  · rw [effectOf, effectOf, apply_ite (withWmem m)]
    rfl
  · rfl
  · exact convolve_withWmem m s

/-- No check and no guard reads WMEM. -/
theorem checksOf_withWmem (i : Instr) (m : Memory 32) (s : State) : checksOf (withWmem m s) i = checksOf s i := by
  cases i <;> rfl

theorem usesEngine_withWmem (i : Instr) (m : Memory 32) (s : State) : usesEngine (withWmem m s) i = usesEngine s i := by
  cases i <;> rfl

/-- Settles O47: the command ends the same way with another WMEM, discarded in FAULT, with its error, or with its effect. -/
theorem gridIsACacheOfWmem : Obligations.GridIsACacheOfWmem := by
  intro i hi s t m hx
  rcases exec_next hx with ⟨rfl, -⟩ | ⟨hr, hs, rfl⟩ | ⟨hr, hs, c, hc, rfl⟩ | ⟨hr, hs, hc, he, rfl⟩
  · simp at hi
  · exact exec_of_fault (s := withWmem m _) hr hs
  · rw [← checksOf_withWmem i m] at hc
    exact exec_of_failing (s := withWmem m s) hr hs hc
  · rw [← checksOf_withWmem i m] at hc
    rw [← usesEngine_withWmem i m] at he
    rw [exec_of_passing (s := withWmem m s) hr hs hc he]
    exact congrArg (fun u => Host.Outcome.next (ended u)) (effectOf_withWmem hi m (started s))

end Sys2Proof.Machine
end

section
/-! What BUSY and FAULT discard at the host port, and what a read changes (20_memory.md R78, R86; 45_system.md R222). -/

namespace Sys2Proof.Machine

/-- The step of a host write is the write, the event taken. -/
theorem step_eq_hostWrite {s : State} {a : HostAddr} {d : HostData} {rest : List PortEvent}
    (hp : s.port = .write a d :: rest) : step s = hostWrite a d { s with port := rest } := by
  simp only [step, nextEvent, hp, portEvent]

/-- Settles O7: the pending accesses are no operand of the read. -/
theorem hostReadOnlyReturnsData : Obligations.HostReadOnlyReturnsData := by
  intro s a rest hp
  simp only [step, nextEvent, hp, portEvent, hostRead_port]

/-- The SRESET word is the only one that decodes to SRESET (30_encoding.md R104). -/
theorem eq_of_decode_sreset {w : CmdWord} (h : decode w = .ok .sreset) : w = 0x7F000000#32 := by
  obtain ⟨r, hm, hw, hb⟩ := decode_ok_row h
  simp only [opcodeTable, List.mem_cons, List.not_mem_nil, or_false] at hm
  rcases hm with rfl | rfl | rfl | rfl | rfl | rfl | rfl | rfl | rfl | rfl
  iterate 9 · cases hb
  · rwa [show (0xFFFFFFFF#32) = BitVec.allOnes 32 from rfl, BitVec.and_allOnes] at hw

theorem decode_sresetWord : decode 0x7F000000#32 = .ok .sreset := rfl

/-- In FAULT every word but that of SRESET is discarded, a command or not (45_system.md R222). -/
theorem issue_of_fault {s : State} (hs : s.state = .fault) {w : CmdWord} (hw : w ≠ 0x7F000000#32) : issue w s = .next s := by
  unfold issue
  cases hd : decode w with
  | ok i => exact exec_of_fault (fun hi => hw (eq_of_decode_sreset (hi ▸ hd))) hs
  | error r => simp only [illegalCommand, if_pos hs]

theorem hostWrite_of_busy {s : State} (hb : s.busy = true) (a : HostAddr) (d : HostData) : hostWrite a d s = .next s := by
  simp [hostWrite, hostStore, hb]

theorem hostWrite_of_fault {s : State} (hs : s.state = .fault) {a : HostAddr} {d : HostData}
    (hn : ¬ (a = cmdAddr ∧ d.setWidth 32 = 0x7F000000#32)) : hostWrite a d s = .next s := by
  unfold hostWrite
  split
  · next ha =>
    split
    · rfl
    · exact issue_of_fault hs fun hw => hn ⟨ha, hw⟩
  · rw [hostStore_of_fault hs]

theorem registersReset_resetRegisters (s : State) : RegistersReset (resetRegisters s) := by
  constructor <;> simp [State.reset]

/-- Settles O9: the write clauses are those of the write itself; the SRESET word decodes to SRESET, which runs in FAULT too. -/
theorem faultDiscardsEveryWriteButSreset : Obligations.FaultDiscardsEveryWriteButSreset := by
  refine ⟨fun s a d rest hs hp hn => ?_, fun s d rest _ hb hp hd => ?_, fun s a d rest hb hp => ?_, fun s a hb ha => ?_⟩
  · rw [step_eq_hostWrite hp]
    exact hostWrite_of_fault (s := { s with port := rest }) hs hn
  · obtain ⟨rest', hx⟩ := step_of_issues (i := .sreset) ⟨rest, hp⟩ ⟨d, rfl, hd ▸ decode_sresetWord⟩ hb
    exact ⟨_, hx, registersReset_resetRegisters _⟩
  · rw [step_eq_hostWrite hp]
    exact hostWrite_of_busy (s := { s with port := rest }) hb a d
  · exact if_pos (by rw [hb, decide_eq_true ha]; rfl)

end Sys2Proof.Machine
end

section
/-! The words of the memories at the host port: what an address reaches, what a read of it returns and what a write leaves
(20_memory.md R71 to R75, R82). -/

namespace Sys2Proof.Machine

/-! ### Addresses -/

theorem ofNumber_eq_some_iff {n : Nat} {sp : Space} : Space.ofNumber n = some sp ↔ n = Script.spaceNumber sp := by
  refine ⟨fun h => ?_, fun h => h ▸ ofNumber_spaceNumber sp⟩
  have hn : n < 9 := by
    by_contra hge
    rw [ofNumber_unmapped (not_lt.mp hge)] at h
    cases h
  interval_cases n <;> cases h <;> rfl

/-- An address in a mapped space is the address of the word at its index. -/
theorem eq_wordAddr {a : HostAddr} {sp : Space} (h : Space.ofNumber (spaceField a) = some sp) :
    a = Script.wordAddr sp (indexField a) := by
  apply BitVec.eq_of_toNat_eq
  rw [toNat_wordAddr sp (by rw [indexField_eq]; exact Nat.mod_lt _ (by decide)), ← ofNumber_eq_some_iff.mp h, spaceField_eq,
    indexField_eq]
  omega

/-- Every index inside a space fits its field of the address (20_memory.md R72; 00_scope.md R6). -/
theorem spaceWords_le {s : State} (hc : s.caps.Legal) (sp : Space) : s.spaceWords sp ≤ 2 ^ 28 := by
  obtain ⟨hw, hb, hi, ho, hx, hp, ha⟩ := hc
  cases sp <;> simp only [State.spaceWords, planeCells, tileDim] <;> omega

theorem spaceWords_congr {s t : State} (hc : t.caps = s.caps) (sp : Space) : t.spaceWords sp = s.spaceWords sp := by
  cases sp <;> simp only [State.spaceWords, hc]

/-! ### Accesses inside a space -/

/-- A read inside a space, BUSY = 0, is the word there. -/
theorem hostRead_wordAddr {s : State} (hc : s.caps.Legal) (hb : s.busy = false) {sp : Space} {i : Nat}
    (hi : i < s.spaceWords sp) : hostRead s (Script.wordAddr sp i) = s.peek i sp := by
  have hlt := lt_of_lt_of_le hi (spaceWords_le hc sp)
  simp [hostRead, hb, spaceField_wordAddr _ hlt, indexField_wordAddr _ hlt, ofNumber_spaceNumber, hi]

/-- A write inside a space, BUSY = 0 and outside FAULT, is the write of the word there. -/
theorem hostStore_wordAddr {s : State} (hc : s.caps.Legal) (hb : s.busy = false) (hs : s.state ≠ .fault) {sp : Space}
    {i : Nat} (hi : i < s.spaceWords sp) (d : HostData) : hostStore (Script.wordAddr sp i) d s = s.poke i d sp := by
  have hlt := lt_of_lt_of_le hi (spaceWords_le hc sp)
  simp [hostStore, hb, hs, spaceField_wordAddr _ hlt, indexField_wordAddr _ hlt, ofNumber_spaceNumber, hi]

/-- Settles O58: each address is that of a word inside its space. -/
theorem memoriesReadAsTheMapSays : Obligations.MemoriesReadAsTheMapSays := by
  intro s i hc hb
  have hr : ∀ sp, i < s.spaceWords sp → hostRead s (Script.wordAddr sp i) = s.peek i sp :=
    fun _ hi => hostRead_wordAddr hc hb hi
  exact ⟨hr .wmem, hr .bmem, hr .imem, hr .omem, hr .tstore, hr .pbuf, hr .acc, hr .tout⟩

/-! ### Accesses that reach no word or no writable one -/

/-- A read that reaches no word, or only words that read 0, returns 0. -/
theorem hostRead_eq_zero {s : State} {a : HostAddr}
    (h : ∀ sp, Space.ofNumber (spaceField a) = some sp → indexField a < s.spaceWords sp → s.peek (indexField a) sp = 0) :
    hostRead s a = 0 := by
  unfold hostRead
  split
  · rfl
  · split
    · next sp hsp =>
      split
      · next hi => exact h sp hsp hi
      · rfl
    · rfl

/-- A write that reaches no word, or only words that keep their value, is discarded. -/
theorem hostStore_eq_self {s : State} {a : HostAddr} {d : HostData}
    (h : ∀ sp, Space.ofNumber (spaceField a) = some sp → indexField a < s.spaceWords sp → s.poke (indexField a) d sp = s) :
    hostStore a d s = s := by
  unfold hostStore
  split
  · rfl
  · split
    · next sp hsp =>
      split
      · next hi => exact h sp hsp hi
      · rfl
    · rfl

/-- The addresses that 20_memory.md R73 and 10_state.md R41 leave without a word: unmapped, reserved, or past the end of
their space. -/
def Unreached (s : State) (a : HostAddr) : Prop :=
  9 ≤ a.toNat / 2 ^ 28 ∨ a.toNat = 0x13 ∨ (0x1F ≤ a.toNat ∧ a.toNat < 2 ^ 28) ∨
    ∃ sp, sp ≠ .csr ∧ a.toNat / 2 ^ 28 = Script.spaceNumber sp ∧ s.spaceWords sp ≤ a.toNat % 2 ^ 28

/-- The addresses of the read-only registers (10_state.md R21) and of the read-only spaces (20_memory.md R74). -/
def ReadOnly (a : HostAddr) : Prop :=
  a.toNat ∈ [0x00, 0x01, 0x02, 0x05, 0x18, 0x19, 0x1A, 0x1B, 0x1C, 0x1D, 0x1E] ∨ a.toNat / 2 ^ 28 ∈ [4, 5, 7, 8]

theorem spaceNumber_inj {sp sp' : Space} (h : Script.spaceNumber sp = Script.spaceNumber sp') : sp = sp' :=
  Option.some.inj ((ofNumber_spaceNumber sp).symm.trans (h ▸ ofNumber_spaceNumber sp'))

/-- Of those addresses only the reserved register index lies inside a space. -/
theorem Unreached.reserved {s : State} {a : HostAddr} (h : Unreached s a) {sp : Space}
    (hsp : Space.ofNumber (spaceField a) = some sp) (hi : indexField a < s.spaceWords sp) :
    sp = .csr ∧ indexField a = 0x13 := by
  have hnum := ofNumber_eq_some_iff.mp hsp
  rw [spaceField_eq] at hnum
  rw [indexField_eq] at hi ⊢
  have hcsr : ∀ {n}, a.toNat = n → n < 2 ^ 28 → sp = .csr := fun ha hn =>
    spaceNumber_inj (sp' := .csr) (by rw [← hnum, ha]; exact Nat.div_eq_of_lt hn)
  rcases h with h | h | ⟨hlo, hhi⟩ | ⟨sp', -, hnum', hend⟩
  · have : Script.spaceNumber sp ≤ 8 := by cases sp <;> decide
    omega
  · exact ⟨hcsr h (by decide), by omega⟩
  · obtain rfl := hcsr rfl hhi
    simp only [State.spaceWords] at hi
    omega
  · obtain rfl := spaceNumber_inj (hnum.symm.trans hnum')
    omega

theorem Unreached.hostStore {s : State} {a : HostAddr} (h : Unreached s a) (d : HostData) : hostStore a d s = s :=
  hostStore_eq_self fun sp hsp hi => by
    obtain ⟨rfl, he⟩ := h.reserved hsp hi
    rw [he]
    rfl

theorem Unreached.hostRead {s : State} {a : HostAddr} (h : Unreached s a) : hostRead s a = 0 :=
  hostRead_eq_zero fun sp hsp hi => by
    obtain ⟨rfl, he⟩ := h.reserved hsp hi
    rw [he]
    rfl

/-- No read-only register is a layer register, and each keeps its value. -/
theorem writeRegister_readOnly {n : Nat} (h : n ∈ [0x00, 0x01, 0x02, 0x05, 0x18, 0x19, 0x1A, 0x1B, 0x1C, 0x1D, 0x1E])
    (d : HostData) (s : State) : writeRegister n d s = s := by
  simp only [List.mem_cons, List.not_mem_nil, or_false] at h
  rcases h with rfl | rfl | rfl | rfl | rfl | rfl | rfl | rfl | rfl | rfl | rfl <;> rfl

theorem ReadOnly.hostStore {a : HostAddr} (h : ReadOnly a) (d : HostData) (s : State) : hostStore a d s = s :=
  hostStore_eq_self fun sp hsp _ => by
    have hnum := ofNumber_eq_some_iff.mp hsp
    rw [spaceField_eq] at hnum
    rcases h with h | h
    · have hlt : a.toNat < 2 ^ 28 := by
        simp only [List.mem_cons, List.not_mem_nil, or_false] at h
        omega
      obtain rfl : sp = .csr := spaceNumber_inj (by rw [← hnum]; exact Nat.div_eq_of_lt hlt)
      rw [indexField_eq, Nat.mod_eq_of_lt hlt]
      exact writeRegister_readOnly h d s
    · rw [hnum] at h
      cases sp with
      | omem | tstore | acc | tout => rfl
      | _ => exact absurd h (by decide)

/-- CMD, at index 3, is reached by a write and is not read-only. -/
theorem not_unreached_cmdAddr (s : State) : ¬ Unreached s cmdAddr := by
  rintro (h | h | ⟨h, -⟩ | ⟨sp, hsp, hnum, -⟩)
  · exact absurd h (by decide)
  · exact absurd h (by decide)
  · exact absurd h (by decide)
  · exact hsp (spaceNumber_inj (sp' := .csr) hnum.symm)

theorem not_readOnly_cmdAddr : ¬ ReadOnly cmdAddr := by
  unfold ReadOnly
  decide

/-- Settles O50: no such address is that of CMD, and the write leaves the state as it was. -/
theorem unmappedAndReadOnlyDiscardWrites : Obligations.UnmappedAndReadOnlyDiscardWrites := by
  refine fun s a => ⟨fun (h : Unreached s a) => ⟨h.hostRead, fun d rest hp => ?_⟩, fun (h : ReadOnly a) d rest hp => ?_⟩
  · have h' : Unreached { s with port := rest } a := h
    exact step_of_write hp (fun ha => not_unreached_cmdAddr s (ha ▸ h)) (h'.hostStore d)
  · exact step_of_write hp (fun ha => not_readOnly_cmdAddr (ha ▸ h)) (h.hostStore d _)

/-! ### Read after write -/

/-- The spaces the host writes words of (20_memory.md R74). -/
def HostWritable (sp : Space) : Prop := sp = .wmem ∨ sp = .bmem ∨ sp = .imem ∨ sp = .pbuf

/-- The bits of a write that a word of a writable space takes (20_memory.md R75). -/
def takenBits (sp : Space) (d : HostData) : HostData := if sp = .pbuf then d &&& 0xFFFF#64 else d &&& 0xFFFFFFFF#64

/-- The low bits of an access, zero-extended, as a mask (20_memory.md R75). -/
theorem setWidth_setWidth_eq_and {w : Nat} (hw : w ≤ 64) (d : HostData) :
    (d.setWidth w).setWidth 64 = d &&& BitVec.ofNat 64 (2 ^ w - 1) := by
  have hlt : 2 ^ w - 1 < 2 ^ 64 := by
    have := Nat.pow_le_pow_right (n := 2) (by decide) hw
    omega
  have hd : d.toNat % 2 ^ w < 2 ^ 64 := lt_of_le_of_lt (Nat.mod_le _ _) d.isLt
  apply BitVec.eq_of_toNat_eq
  rw [BitVec.toNat_and, BitVec.toNat_setWidth, BitVec.toNat_setWidth, BitVec.toNat_ofNat, Nat.mod_eq_of_lt hlt,
    Nat.mod_eq_of_lt hd, Nat.and_two_pow_sub_one_eq_mod]

/-- What the host reads of a memory after it has written a word of it. -/
theorem Memory.hostWord_write {w : Nat} {m : Memory w} (hm : m.wf) (hw : w ≤ 64) (i j : Nat) (d : HostData) (x : BitVec w) :
    (((m.write i (d.setWidth w)).get? j).getD x).setWidth 64 =
      if j = i then d &&& BitVec.ofNat 64 (2 ^ w - 1) else ((m.get? j).getD x).setWidth 64 := by
  rw [Memory.get?_write hm]
  split
  · exact setWidth_setWidth_eq_and hw d
  · rfl

/-- Read after write in the space written. -/
theorem peek_poke {s : State} (hm : MemoriesOk s) {sp : Space} (hsp : HostWritable sp) (i j : Nat) (d : HostData) :
    (s.poke i d sp).peek j sp = if j = i then takenBits sp d else s.peek j sp := by
  rcases hsp with rfl | rfl | rfl | rfl
  · exact Memory.hostWord_write hm.wmem.1 (by decide) i j d _
  · exact Memory.hostWord_write hm.bmem.1 (by decide) i j d _
  · exact Memory.hostWord_write hm.imem.1 (by decide) i j d _
  · exact Memory.hostWord_write hm.pbuf.1 (by decide) i j d _

/-- The other spaces, the registers among them, read as before. -/
theorem peek_poke_of_ne {sp sp' : Space} (hsp : HostWritable sp) (h : sp' ≠ sp) (s : State) (i j : Nat) (d : HostData) :
    (s.poke i d sp).peek j sp' = s.peek j sp' := by
  rcases hsp with rfl | rfl | rfl | rfl
  · cases sp' with
    | wmem => exact absurd rfl h
    | _ => rfl
  · cases sp' with
    | bmem => exact absurd rfl h
    | _ => rfl
  · cases sp' with
    | imem => exact absurd rfl h
    | _ => rfl
  · cases sp' with
    | pbuf => exact absurd rfl h
    | _ => rfl

/-- A write of a word changes one of the four memories only. -/
theorem poke_frame {sp : Space} (hsp : HostWritable sp) (s : State) (i : Nat) (d : HostData) :
    s.poke i d sp = { s with
      wmem := (s.poke i d sp).wmem, bmem := (s.poke i d sp).bmem, imem := (s.poke i d sp).imem
      pbuf := (s.poke i d sp).pbuf } := by
  rcases hsp with rfl | rfl | rfl | rfl <;> rfl

/-- What a host read looks at. -/
theorem hostRead_congr {s t : State} {a : HostAddr} (hb : t.busy = s.busy) (hc : t.caps = s.caps)
    (hp : ∀ sp, Space.ofNumber (spaceField a) = some sp → t.peek (indexField a) sp = s.peek (indexField a) sp) :
    hostRead t a = hostRead s a := by
  unfold hostRead
  rw [hb]
  cases hsp : Space.ofNumber (spaceField a) with
  | none => rfl
  | some sp => simp only [spaceWords_congr hc, hp sp hsp]

/-- After a write of a word its address reads the bits taken. -/
theorem hostRead_poke {s : State} (hm : MemoriesOk s) (hc : s.caps.Legal) (hb : s.busy = false) {sp : Space}
    (hsp : HostWritable sp) {i : Nat} (hi : i < s.spaceWords sp) (d : HostData) :
    hostRead (s.poke i d sp) (Script.wordAddr sp i) = takenBits sp d := by
  have hf := poke_frame hsp s i d
  have hcaps : (s.poke i d sp).caps = s.caps := by rw [hf]
  have hbusy : (s.poke i d sp).busy = s.busy := by rw [hf]
  rw [hostRead_wordAddr (hcaps ▸ hc) (hbusy.trans hb) (by rwa [spaceWords_congr hcaps]), peek_poke hm hsp, if_pos rfl]

/-- After a write of a word every other address reads as before. -/
theorem hostRead_poke_of_ne {s : State} (hm : MemoriesOk s) {sp : Space} (hsp : HostWritable sp) {i : Nat} {a : HostAddr}
    (ha : a ≠ Script.wordAddr sp i) (d : HostData) : hostRead (s.poke i d sp) a = hostRead s a := by
  have hf := poke_frame hsp s i d
  refine hostRead_congr (by rw [hf]) (by rw [hf]) fun sp' hsp' => ?_
  by_cases he : sp' = sp
  · subst he
    have hne : indexField a ≠ i := fun hi => ha (hi ▸ eq_wordAddr hsp')
    rw [peek_poke hm hsp, if_neg hne]
  · exact peek_poke_of_ne hsp he s i _ d

theorem wordAddr_ne_cmdAddr {sp : Space} (hsp : HostWritable sp) {i : Nat} (hi : i < 2 ^ 28) :
    Script.wordAddr sp i ≠ cmdAddr := by
  intro h
  have hnum := congrArg spaceField h
  rw [spaceField_wordAddr sp hi] at hnum
  rcases hsp with rfl | rfl | rfl | rfl <;> exact absurd hnum (by decide)

/-- Settles O48: the step is the write of the word, which changes what its own address reads and nothing else. -/
theorem hostWriteThenReadReturnsIt : Obligations.HostWriteThenReadReturnsIt := by
  intro s sp i d rest hm hc hb hs (hsp : HostWritable sp) hi hp
  have hlt := lt_of_lt_of_le hi (spaceWords_le hc sp)
  have hm' := hm.withPort rest
  have hi' := hi.trans_eq (spaceWords_congr (s := { s with port := rest }) (t := s) rfl sp)
  have hwrite := hostStore_wordAddr (s := { s with port := rest }) hc hb hs hi' d
  refine ⟨_, step_of_write hp (wordAddr_ne_cmdAddr hsp hlt) hwrite, hostRead_poke hm' hc hb hsp hi' d, fun a ha => ?_,
    poke_frame hsp { s with port := rest } i d⟩
  rw [hostRead_poke_of_ne hm' hsp ha, hostRead_port]

end Sys2Proof.Machine
end

section
/-! The decoder in the commands' own terms: a word decodes to a command exactly when it carries the command's row and the
row's immediates, and the word of a command is its row with those bits put back (30_encoding.md R101 to R105, R112). -/

namespace Sys2Proof

open Laws.EncodesItsRow (row)

/-- The command of the same row whose immediates are the fields of `w` (30_encoding.md R112). -/
def Instr.withFields (w : CmdWord) : Instr → Instr
  | .qenc _ => .qenc (fmtField w)
  | .bslice _ => .bslice (kField w)
  | i => i

/-- The row of the opcode table a command belongs to. -/
def Instr.opRow (i : Instr) : OpRow := ⟨(row i).2, (row i).1, i.withFields⟩

/-- The opcode table lists the rows of the ten commands. -/
theorem opcodeTable_eq_map : opcodeTable =
    [.qenc .input, .bslice 0, .build, .inval, .encp, .tmvm, .smvm, .conv, .clrerr, .sreset].map Instr.opRow := rfl

theorem opRow_mem_opcodeTable (i : Instr) : i.opRow ∈ opcodeTable := by
  cases i <;> simp [Instr.opRow, row, Instr.withFields, opcodeTable]

@[simp] theorem row_withFields (w : CmdWord) (i : Instr) : row (i.withFields w) = row i := by cases i <;> rfl

@[simp] theorem withFields_withFields (w : CmdWord) (i : Instr) : (i.withFields w).withFields w = i.withFields w := by
  cases i <;> rfl

/-- A word decodes to a command exactly when it carries the command's row and its immediates. -/
theorem decode_eq_ok_iff (w : CmdWord) (i : Instr) :
    decode w = .ok i ↔ w &&& (row i).1 = (row i).2 ∧ i.withFields w = i := by
  refine ⟨fun h => ?_, fun ⟨hw, hf⟩ => hf ▸ decode_of_row (opRow_mem_opcodeTable i) hw⟩
  obtain ⟨r, hm, hw, rfl⟩ := decode_ok_row h
  rw [opcodeTable_eq_map] at hm
  obtain ⟨j, -, rfl⟩ := List.mem_map.mp hm
  exact ⟨(row_withFields w j).symm ▸ hw, withFields_withFields w j⟩

/-- A word carries the row of a command exactly when it decodes to a command of that row (30_encoding.md R104). -/
theorem matches_row_iff (w : CmdWord) (i : Instr) :
    w &&& (row i).1 = (row i).2 ↔ decode w = .ok (i.withFields w) := by
  simp [decode_eq_ok_iff]

/-! ### The fields -/

theorem fmtField_eq (w : CmdWord) : fmtField w = if w.toNat % 2 = 1 then .weight else .input := by
  simp [fmtField, BitVec.getLsbD]

theorem kField_eq (w : CmdWord) : kField w = w.toNat % 32 := by
  simp [kField]

theorem kField_lt (w : CmdWord) : kField w < 32 := (w.extractLsb' 0 5).isLt

theorem wellFormed_withFields (w : CmdWord) (i : Instr) : (i.withFields w).WellFormed := by
  cases i with
  | bslice k => exact decide_eq_true (kField_lt w)
  | _ => rfl

/-! ### The word of a command -/

theorem encode_matches_row : ∀ i : Instr, encode i &&& (row i).1 = (row i).2
  | .qenc fmt => Laws.EncodesItsRow.qenc fmt
  | .bslice k => Laws.EncodesItsRow.bslice k
  | .build | .inval | .encp | .tmvm | .smvm | .conv | .clrerr | .sreset => rfl

theorem kField_encode_bslice {k : Nat} (hk : k < 32) : kField (encode (.bslice k)) = k := by
  have h : ∀ b : BitVec 5, kField (0x02000000#32 ||| b.setWidth 32) = b.toNat := by decide
  rw [encode, h, BitVec.toNat_ofNat, Nat.mod_eq_of_lt hk]

/-- The fields of the word of a command are its immediates, where they fit. -/
theorem withFields_encode {i : Instr} (hi : i.WellFormed) : i.withFields (encode i) = i := by
  cases i with
  | qenc fmt => cases fmt <;> rfl
  | bslice k => exact congrArg Instr.bslice (kField_encode_bslice (of_decide_eq_true hi))
  | _ => rfl

theorem encode_qenc_fmtField (w : CmdWord) : encode (.qenc (fmtField w)) = 0x01000000#32 ||| w &&& 1#32 := by
  rw [BitVec.and_one_eq_setWidth_ofBool_getLsbD, fmtField]
  cases w.getLsbD 0 <;> rfl

theorem encode_bslice_kField (w : CmdWord) : encode (.bslice (kField w)) = 0x02000000#32 ||| w &&& 31#32 := by
  have h : (BitVec.ofNat 5 (kField w)).setWidth 32 = w &&& 31#32 := by
    apply BitVec.eq_of_toNat_eq
    have hk : kField w < 2 ^ 5 := kField_lt w
    rw [BitVec.toNat_setWidth_of_le (by decide), BitVec.toNat_ofNat, Nat.mod_eq_of_lt hk, kField_eq]
    exact (Nat.and_two_pow_sub_one_eq_mod w.toNat 5).symm
  rw [encode, h]

/-- The word of a command is its row's pattern, with the bits outside the mask where its immediates come from. -/
theorem encode_withFields (w : CmdWord) (i : Instr) :
    encode (i.withFields w) = (row i).2 ||| w &&& ~~~(row i).1 := by
  cases i with
  | qenc fmt => simpa [Instr.withFields, row] using encode_qenc_fmtField w
  | bslice k => simpa [Instr.withFields, row] using encode_bslice_kField w
  | _ => simp [Instr.withFields, row, encode]

theorem and_or_and_not (w m : CmdWord) : w &&& m ||| w &&& ~~~m = w := by
  rw [← BitVec.and_or_distrib_left, BitVec.or_not_self, BitVec.and_allOnes]

/-- Settles O1: the word of a command carries its row and its immediates. -/
theorem decodeEncodeRoundTrip : Obligations.DecodeEncodeRoundTrip := fun i hi =>
  (decode_eq_ok_iff _ i).mpr ⟨encode_matches_row i, withFields_encode hi⟩

/-- Settles O2: the pattern is what the mask keeps of the word, the immediates are the rest. -/
theorem encodeInvertsDecode : Obligations.EncodeInvertsDecode := by
  intro w i h
  obtain ⟨hw, hf⟩ := (decode_eq_ok_iff w i).mp h
  refine ⟨hf ▸ wellFormed_withFields w i, ?_⟩
  calc encode i = encode (i.withFields w) := by rw [hf]
    _ = w &&& (row i).1 ||| w &&& ~~~(row i).1 := by rw [encode_withFields, hw]
    _ = w := and_or_and_not w _

/-- Settles O3: each row is that of a command; the immediates are its fields. -/
theorem wordsDecodeByMaskAndMatch : Obligations.WordsDecodeByMaskAndMatch := by
  intro w
  refine ⟨⟨fun h => ⟨_, (matches_row_iff w (.qenc .input)).mp h⟩, fun ⟨f, h⟩ => ((decode_eq_ok_iff w _).mp h).1⟩,
    ⟨fun h => ⟨_, (matches_row_iff w (.bslice 0)).mp h⟩, fun ⟨k, h⟩ => ((decode_eq_ok_iff w _).mp h).1⟩,
    matches_row_iff w .build, matches_row_iff w .inval, matches_row_iff w .encp, matches_row_iff w .tmvm,
    matches_row_iff w .smvm, matches_row_iff w .conv, matches_row_iff w .clrerr, matches_row_iff w .sreset,
    fun f h => ?_, fun k h => ?_⟩
  · have hf : fmtField w = f := Instr.qenc.inj ((decode_eq_ok_iff w _).mp h).2
    rw [← hf, fmtField_eq]
  · have hk : kField w = k := Instr.bslice.inj ((decode_eq_ok_iff w _).mp h).2
    rw [← hk, kField_eq]

/-- Settles O4: six closed words, evaluated. -/
theorem specWordsDecode : Obligations.SpecWordsDecode := by
  unfold Obligations.SpecWordsDecode
  decide

end Sys2Proof
end

section
/-! The value of a binary32 pattern: the machine's dyadic rational is the extended real of 30_encoding.md R108. -/

namespace Sys2Proof.Machine

theorem signBit_eq (b : Real32) : b.getLsbD 31 = decide (b.toNat / 2 ^ 31 % 2 = 1) :=
  Nat.testBit_eq_decide_div_mod_eq

theorem exponentField_eq (b : Real32) : (b.extractLsb' 23 8).toNat = b.toNat / 2 ^ 23 % 256 := by
  rw [BitVec.extractLsb'_toNat, Nat.shiftRight_eq_div_pow]

theorem fractionField_eq (b : Real32) : (b.extractLsb' 0 23).toNat = b.toNat % 2 ^ 23 := by
  rw [BitVec.extractLsb'_toNat, Nat.shiftRight_zero]

/-- A signed significand over a power of two, in rationals. -/
theorem denote_signed (neg : Prop) [Decidable neg] (x k : ℕ) :
    Reference.denote (.dyadic (if neg then -(x : ℤ) else x) k) =
      .rational ((if neg then -1 else 1) * x * (2 : ℚ) ^ (-(k : ℤ))) := by
  split_ifs <;> simp [Reference.denote, div_eq_mul_inv]

/-- Settles O12: one case per range of the exponent field `e`; a negative `e - 150` is the denominator's power of two, any
other a factor of the significand. -/
theorem binaryThirtyTwoValues : Obligations.BinaryThirtyTwoValues := by
  intro b
  simp only [f32, Reference.f32, signBit_eq, exponentField_eq, fractionField_eq, decide_eq_true_eq]
  generalize b.toNat / 2 ^ 23 % 256 = e
  generalize b.toNat % 2 ^ 23 = m
  by_cases hspecial : e = 255
  · simp only [if_pos hspecial]
    split_ifs <;> rfl
  simp only [if_neg hspecial]
  by_cases hsubnormal : e = 0
  · simp only [if_pos hsubnormal]
    exact denote_signed _ m 149
  simp only [if_neg hsubnormal]
  have hsignificand : ((2 ^ 23 + m : ℕ) : ℚ) = 2 ^ 23 + m := by rw [Nat.cast_add, Nat.cast_pow, Nat.cast_ofNat]
  by_cases hsmall : e < 150
  · have hexp : (e : ℤ) - 150 = -((150 - e : ℕ) : ℤ) := by omega
    rw [if_pos hsmall, denote_signed, hexp, hsignificand]
  · have hexp : (e : ℤ) - 150 = (e - 150 : ℕ) := by omega
    rw [if_neg hsmall, denote_signed, hexp, Nat.cast_zero, neg_zero, zpow_zero, mul_one, zpow_natCast, Nat.cast_mul,
      hsignificand, Nat.cast_pow, Nat.cast_ofNat, mul_assoc]

end Sys2Proof.Machine
end

section
/-! A word that is no command: its error entry is all that its step does (30_encoding.md R105). -/

namespace Sys2Proof.Machine

theorem hostWrite_cmdAddr {s : State} (hb : s.busy = false) (d : HostData) :
    hostWrite cmdAddr d s = issue (d.setWidth 32) s := by
  simp [hostWrite, hb]

/-- A word that is no command leaves its error entry only. -/
theorem issue_of_illegal {w : CmdWord} (hw : ∀ i, decode w ≠ .ok i) (s : State) :
    issue w s = .next (illegalCommand w s) := by
  unfold issue
  cases hd : decode w with
  | ok i => exact absurd hd (hw i)
  | error r => rfl

/-- Settles O6: in UNBUILT and BUILT the entry of the error is the record of R105, in FAULT there is none. -/
theorem illegalWordIsRecorded : Obligations.IllegalWordIsRecorded := by
  intro s d rest hb hp hw
  have hstep : step s = .next (illegalCommand (d.setWidth 32) { s with port := rest }) := by
    rw [step_eq_hostWrite (a := cmdAddr) hp, hostWrite_cmdAddr (s := { s with port := rest }) hb]
    exact issue_of_illegal hw _
  rw [hstep]
  refine ⟨fun hs => ?_, fun hs => ?_⟩
  · rw [illegalCommand, if_neg hs]
    rfl
  · rw [illegalCommand, if_pos hs]

end Sys2Proof.Machine
end

section
/-! The quantizer: it is exact on the values of its format, off by at most half a unit where it does not overflow, and on a
binary32 pattern it is QENC (40_quantize_slice.md R130, R133, R134). -/

namespace Sys2Proof.Machine

/-! ### Rounding (00_scope.md R8) -/

/-- An integer is its own rounding. -/
theorem rne_mul_self (z : Int) {d : Nat} (hd : 0 < d) : rne (z * d) d = z := by
  have hquot : z * d / (d : Int) = z := Int.mul_ediv_cancel z (by omega)
  have hrem : z * d % (d : Int) = 0 := Int.mul_emod_left z d
  have hlt : 2 * (0 : Int) < d := by omega
  simp only [rne, hquot, hrem, if_neg hlt.not_gt, if_pos hlt]

/-- The two neighbours of `y` are `⌊y⌋` and `⌊y⌋ + 1`; rounding takes one that is no farther than the other. -/
theorem abs_rne_sub_le (y : ℚ) : |(Reference.rne y : ℚ) - y| ≤ 1 / 2 := by
  have hlow := Int.floor_le y
  have hhigh := Int.lt_floor_add_one y
  rw [abs_le]
  simp only [Reference.rne]
  split_ifs <;> push_cast <;> constructor <;> linarith

/-! ### The quantizer on a rational -/

/-- Settles O14: the value scaled by `2^F` is the integer of the word, which neither rounding nor saturation changes. -/
theorem quantizeRoundTrip : Obligations.QuantizeRoundTrip := by
  intro b F _
  have hrne : rne (b.toInt * (2 ^ F : Nat)) (2 ^ F) = b.toInt := rne_mul_self _ (by positivity)
  have hsat : sat 16 b.toInt = b.toInt := sat_of_mem b.le_toInt (by exact_mod_cast b.toInt_lt)
  simp only [quantize, hrne, hsat, pat, BitVec.ofInt_toInt, ne_eq, not_true_eq_false, decide_false]

/-- A quantization without overflow gives the word of the rounded value. -/
theorem toInt_of_quantize {N F k : Nat} {a : Int} {p : BitVec N} (hN : 0 < N)
    (h : quantize N F (.dyadic a k) = (p, false)) : p.toInt = Reference.rne ((a : ℚ) / 2 ^ k * 2 ^ F) := by
  rw [quantize_eq_reference] at h
  obtain ⟨hp, hn⟩ := Prod.mk.inj h
  have hsat := not_not.mp (of_decide_eq_false hn)
  obtain ⟨hl, hu⟩ := sat_mem N (Reference.rne ((a : ℚ) / 2 ^ k * 2 ^ F))
  rw [sat_eq_reference, ← hsat] at hl hu
  rw [← hp, ← hsat]
  exact toInt_pat hN hl hu

/-- Settles O15: the word is the rounding of the value scaled by `2^F`, half a unit off at most. -/
theorem quantizeErrorIsHalfUnit : Obligations.QuantizeErrorIsHalfUnit := by
  intro a k F p h
  have hF : (0 : ℚ) < 2 ^ F := by positivity
  rw [toInt_of_quantize (by decide) h]
  generalize (a : ℚ) / 2 ^ k = v
  calc |(Reference.rne (v * 2 ^ F) : ℚ) / 2 ^ F - v|
      = |((Reference.rne (v * 2 ^ F) : ℚ) - v * 2 ^ F) / 2 ^ F| := by rw [sub_div, mul_div_cancel_right₀ _ hF.ne']
    _ = |(Reference.rne (v * 2 ^ F) : ℚ) - v * 2 ^ F| / 2 ^ F := by rw [abs_div, abs_of_pos hF]
    _ ≤ 1 / 2 / 2 ^ F := div_le_div_of_nonneg_right (abs_rne_sub_le _) hF.le
    _ = 1 / 2 ^ (F + 1) := by rw [div_div, pow_succ']

/-! ### QENC -/

/-- The machine's quantizer on a binary32 pattern is the spec's on its value. -/
theorem quantize_f32_eq_reference (N F : Nat) (b : Real32) :
    quantize N F (f32 b) = Reference.quantize N F (Reference.f32 b) := by
  rw [quantize_eq_reference, binaryThirtyTwoValues]

/-- F_IN is bits 3:0 of FMT (10_state.md R35). -/
theorem fIn_eq (s : State) : s.fIn = s.fmt.toNat % 16 := by
  simp [State.fIn]

/-- F_W is bits 11:8 of FMT, its topmost (10_state.md R35). -/
theorem fW_eq (s : State) : s.fW = s.fmt.toNat / 256 := by
  have := s.fmt.isLt
  rw [State.fW, BitVec.extractLsb'_toNat, Nat.shiftRight_eq_div_pow]
  omega

/-- Settles O13: QENC has no check, and its effect is the quantization at the F that `fmt` selects. -/
theorem qencQuantizesExactly : Obligations.QencQuantizesExactly := by
  intro s fmt hs
  rw [exec_of_passing (i := .qenc fmt) nofun hs rfl nofun, effectOf, quantize_f32_eq_reference, noteOverflow]
  cases fmt with
  | input => rw [← fIn_eq]; rfl
  | weight => rw [← fW_eq]; rfl

end Sys2Proof.Machine
end

section
/-! The slicer: BSLICE by its checks, and a word from its slices (40_quantize_slice.md R135 to R137). -/

namespace Sys2Proof.Machine

/-! ### BSLICE -/

theorem firstFailing_bsliceChecks_of_width {s : State} (hw : s.sliceW.toNat = 0 ∨ 16 < s.sliceW.toNat) (k : Nat) :
    firstFailing (bsliceChecks k s) = some ⟨true, .cfgSliceW, s.sliceW.setWidth 64⟩ := by
  have hfail : s.sliceW = 0 ∨ s.sliceW.toNat > 16 := hw.imp_left fun h => BitVec.eq_of_toNat_eq h
  simp only [bsliceChecks, firstFailing, decide_eq_true hfail, if_true]

/-- A legal slice width leaves the check of the slice index. -/
theorem firstFailing_bsliceChecks {s : State} (h1 : 1 ≤ s.sliceW.toNat) (h16 : s.sliceW.toNat ≤ 16) (k : Nat) :
    firstFailing (bsliceChecks k s) =
      if s.layerSlices ≤ k then some ⟨true, .protoOperand, BitVec.ofNat 64 k⟩ else none := by
  have hne : s.sliceW ≠ 0#5 := fun h => by simp [h] at h1
  by_cases hk : s.layerSlices ≤ k <;> simp [bsliceChecks, firstFailing, hne, h16, hk]

/-- Settles O16: the first check that fails, or the slice. -/
theorem bsliceFollowsItsRule : Obligations.BsliceFollowsItsRule := by
  intro s k hs
  refine ⟨fun hw => ?_, fun h1 h16 hk => ?_, fun h1 h16 hk => ?_⟩
  · exact exec_of_failing (i := .bslice k) nofun hs (firstFailing_bsliceChecks_of_width hw k)
  · exact exec_of_failing (i := .bslice k) nofun hs ((firstFailing_bsliceChecks h1 h16 k).trans (if_pos hk))
  · have hpass := (firstFailing_bsliceChecks h1 h16 k).trans (if_neg (not_le.mpr hk))
    rw [exec_of_passing (i := .bslice k) nofun hs hpass nofun, effectOf, slice_eq_div_mod, BitVec.extractLsb'_toNat]
    rfl

/-! ### Recombination -/

/-- A slice below the top one weighs its bits where they stand (42_tile_mvm.md R165). -/
theorem sliceWeight_of_lt {n k : Nat} (h : k < n) (s c : Nat) : sliceWeight s (n + 1) k c = (c * 2 ^ (s * k) : Nat) :=
  if_pos h

/-- The top slice: its bit `15 - s * n`, which stands for bit 15 of the word, weighs `-2^15` instead of `2^15`
(42_tile_mvm.md R165). -/
theorem sliceWeight_top {s n : Nat} (h : s * n ≤ 15) (c : Nat) :
    sliceWeight s (n + 1) n c = (c * 2 ^ (s * n) : Nat) - 2 ^ 16 * (c / 2 ^ (15 - s * n) % 2 : Nat) := by
  have hpow : (2 : Int) ^ 16 = 2 ^ (15 - s * n + 1) * 2 ^ (s * n) := by
    rw [← pow_add]
    congr 1
    omega
  simp only [sliceWeight, Nat.add_sub_cancel, lt_irrefl, if_false]
  rw [hpow]
  push_cast
  ring

/-- A bit of a slice is a bit of the word. -/
theorem slice_bit (u : Fx16) {s i : Nat} (hi : i < s) (k : Nat) :
    slice u s k / 2 ^ i % 2 = u.toNat / 2 ^ (s * k + i) % 2 := by
  rw [slice_eq_div_mod, ← Nat.toNat_testBit, ← Nat.toNat_testBit, Nat.testBit_mod_two_pow, Nat.testBit_div_two_pow]
  simp [hi, Nat.add_comm]

/-- Two's complement: bit 15 weighs `-2^15` (00_scope.md R8). -/
theorem toInt_eq_toNat_sub_signBit (u : Fx16) : u.toInt = u.toNat - 2 ^ 16 * (u.toNat / 2 ^ 15 % 2 : Nat) := by
  have hlt := u.isLt
  rw [BitVec.toInt_eq_toNat_cond]
  split <;> omega

theorem sum_slices (u : Fx16) {s : Nat} (h1 : 1 ≤ s) (h16 : s ≤ 16) :
    ∑ k ∈ Finset.range (sliceCount s), slice u s k * 2 ^ (s * k) = u.toNat := by
  obtain ⟨htop, -⟩ := sliceCount_bounds h1 h16
  rw [sum_slices_mod, Nat.mod_eq_of_lt (u.isLt.trans_le (Nat.pow_le_pow_right (by decide) htop))]

/-- The signed sum is the unsigned one but for the sign bit, which the top slice holds. -/
theorem sum_sliceWeights (u : Fx16) {s : Nat} (h1 : 1 ≤ s) (h16 : s ≤ 16) :
    ∑ k ∈ Finset.range (sliceCount s), sliceWeight s (sliceCount s) k (slice u s k) = u.toInt := by
  have hsum := sum_slices u h1 h16
  obtain ⟨htop, hstart, hpos, -⟩ := sliceCount_bounds h1 h16
  obtain ⟨n, hn⟩ : ∃ n, sliceCount s = n + 1 := ⟨_, (Nat.sub_add_cancel hpos).symm⟩
  rw [hn, Nat.add_sub_cancel] at hstart
  rw [hn, Nat.mul_succ] at htop
  have hbit := slice_bit u (show 15 - s * n < s by omega) n
  rw [Nat.add_sub_cancel' (show s * n ≤ 15 by omega)] at hbit
  rw [hn, Finset.sum_range_succ] at hsum ⊢
  rw [sliceWeight_top (by omega), hbit, toInt_eq_toNat_sub_signBit, ← hsum, ← add_sub_assoc, Nat.cast_add, Nat.cast_sum,
    Finset.sum_congr rfl fun k hk => sliceWeight_of_lt (Finset.mem_range.mp hk) s (slice u s k)]

/-- Settles O17: the unsigned and the signed sum. -/
theorem slicesRecombine : Obligations.SlicesRecombine := fun u _ h1 h16 =>
  ⟨sum_slices u h1 h16, sum_sliceWeights u h1 h16⟩

end Sys2Proof.Machine
end

section
/-! BUILD and INVAL as commands: the first failing check, the geometry BUILD publishes and the grid it leaves, and that every step
keeps the grid (41_build.md R150 to R157). -/

namespace Sys2Proof.Machine

/-! ### INVAL and the checks of BUILD -/

/-- While UNBUILT the registers INVAL clears hold 0 already (41_build.md R155). -/
theorem invalEffect_of_unbuilt {s : State} (hr : RegistersOk s) (hu : s.state = .unbuilt) :
    ended (invalEffect (started s)) = s := by
  obtain ⟨hf, hrt, hct, hn, hor, hoc⟩ := hr.unbuiltGeometry hu
  have hb := hr.notBusy
  clear hr
  cases s
  simp_all only [invalEffect]

/-- Settles O21: INVAL has no check, so its effect is all it does. -/
theorem invalForgetsTheGrid : Obligations.InvalForgetsTheGrid := by
  intro s hs
  have hx : exec .inval s = .next (ended (invalEffect (started s))) :=
    exec_of_passing (i := .inval) nofun hs rfl nofun
  exact ⟨hx, fun hr hu => by rw [hx, invalEffect_of_unbuilt hr hu]⟩

/-- What a failing check records: the code and the information word. -/
def Check.record (c : Check) : BitVec 8 × BitVec 64 := (c.error.code, c.info)

/-- A list of checks as a chain of conditions, each with what it records. -/
theorem record_firstFailing_cons {p q : Prop} [Decidable p] [Decidable q] (h : p ↔ q) (e : ErrorCode) (info : BitVec 64)
    (cs : List Check) : (firstFailing (⟨decide p, e, info⟩ :: cs)).map Check.record =
      if q then some (e.code, info) else (firstFailing cs).map Check.record := by
  by_cases hp : p
  · simp [firstFailing, hp, h.mp hp, Check.record]
  · simp [firstFailing, hp, mt h.mpr hp]

/-- The checks of BUILD in their order record what 41_build.md R151 lists. -/
theorem record_layerChecks (s : State) : (firstFailing s.layerChecks).map Check.record = Reference.layerError s := by
  have hgroups : s.groups = 0 ∨ s.inCh.toNat % s.groups.toNat ≠ 0 ∨ s.outCh.toNat % s.groups.toNat ≠ 0 ↔
      s.groups.toNat = 0 ∨ ¬ s.groups.toNat ∣ s.inCh.toNat ∨ ¬ s.groups.toNat ∣ s.outCh.toNat := by
    simp only [bitVec_eq_zero_iff, Nat.dvd_iff_mod_eq_zero, ne_eq]
  have hslice : s.sliceW = 0 ∨ s.sliceW.toNat > 16 ↔ s.sliceW.toNat = 0 ∨ 16 < s.sliceW.toNat := by
    rw [bitVec_eq_zero_iff]
  simp only [State.layerChecks, zeroCheck, capacityCheck, record_firstFailing_cons (bitVec_eq_zero_iff _),
    record_firstFailing_cons hgroups, record_firstFailing_cons hslice, record_firstFailing_cons Iff.rfl]
  rfl

/-- A valid layer passes the checks of BUILD. -/
theorem exec_build {s : State} (hs : s.state ≠ .fault) (hv : LayerValid s) :
    exec .build s = .next (ended (buildEffect s)) :=
  exec_of_passing (i := .build) nofun hs ((layerChecks_pass_iff s).mpr hv) nofun

/-- Settles O20: the first failing check, by its record; and a layer with no error passes them all. -/
theorem buildChecksInOrder : Obligations.BuildChecksInOrder := by
  intro s hs
  refine ⟨fun code info he => ?_, fun hn => ⟨_, exec_build hs (layerValid_of_layerError hn), rfl, rfl, rfl⟩⟩
  rw [← record_layerChecks, Option.map_eq_some_iff] at he
  obtain ⟨c, hc, hrec⟩ := he
  cases hrec
  exact exec_of_failing (i := .build) nofun hs hc

/-! ### The grid BUILD leaves -/

theorem inFeatures_lt (s : State) : s.inFeatures < 2 ^ 32 := by
  have hi := s.inCh.isLt
  have hr := s.kRows.isLt
  have hc := s.kCols.isLt
  calc s.inFeatures ≤ 65535 * 255 * 255 := Nat.mul_le_mul (Nat.mul_le_mul (by omega) (by omega)) (by omega)
    _ < 2 ^ 32 := by norm_num

/-- The geometry registers after BUILD hold the geometry of the layer (41_build.md R150). -/
theorem buildEffect_geometry {s : State} (h : LayerValid s) :
    (buildEffect s).inFeat.toNat = s.inFeatures ∧ (buildEffect s).rowTiles.toNat = s.layerRowTiles ∧
    (buildEffect s).colTiles.toNat = s.layerColTiles ∧ (buildEffect s).nSlices.toNat = s.layerSlices := by
  have hf := inFeatures_lt s
  have ho := s.outCh.isLt
  have hn := (layerSlices_le h).2
  refine ⟨Nat.mod_eq_of_lt hf, Nat.mod_eq_of_lt ?_, Nat.mod_eq_of_lt ?_, Nat.mod_eq_of_lt (by omega)⟩
  all_goals
    simp only [State.layerRowTiles, State.layerColTiles, ceilDiv, tileDim]
    omega

theorem gridOk_buildEffect {s : State} (hm : s.tstore.wf) (hv : LayerValid s) : GridOk (buildEffect s) := by
  obtain ⟨-, er, ec, en⟩ := buildEffect_geometry hv
  intro _ i hi j hj row hr col hc
  rw [er] at hi
  rw [ec] at hj
  refine ⟨coordinateWord s (i * 128 + row) (j * 128 + col), fun k hk => ?_, fun hpad => if_neg fun hin => ?_⟩
  · rw [en] at hk
    rw [ec, en]
    exact get?_built hm hi hj hk hr hc
  · exact hpad.elim (not_le.mpr hin.1) (not_le.mpr hin.2)

/-! ### Every step keeps the grid -/

theorem gridOk_of_not_built {s : State} (h : s.state ≠ .built) : GridOk s := fun hb => absurd hb h

theorem SameGrid.refl (s : State) : SameGrid s s := ⟨rfl, fun h => ⟨h, rfl, rfl, rfl, rfl, rfl, rfl⟩⟩

/-- An access that respects the layer lock does not touch the grid. -/
theorem AccessFrame.sameGrid {s t : State} (hf : AccessFrame s t) (hl : s.state = .built → SameLayer s t) :
    SameGrid s t := by
  refine ⟨hf.tstore, fun hb => ?_⟩
  rw [hf.state] at hb
  obtain ⟨-, ho, -, -, -, -, -, -, -, hw, -⟩ := hl hb
  refine ⟨hb, (layerGeometry_congr (hl hb)).1, ho, hw, ?_, ?_, ?_⟩ <;> rw [hf]

/-- The effect of a command other than BUILD does not touch the grid where it ends in BUILT. -/
theorem sameGrid_effectOf {s : State} {i : Instr} (hb : i ≠ .build) (hbuilt : (effectOf s i).state = .built) :
    SameGrid s (effectOf s i) := by
  cases i with
  | build => exact absurd rfl hb
  | inval => cases hbuilt
  | tmvm =>
    rw [effectOf] at hbuilt ⊢
    split at hbuilt
    · cases hbuilt
    · next ho =>
      rw [if_neg ho]
      exact .refl s
  | conv =>
    rw [effectOf, convFrame_convolve s]
    exact .refl s
  | _ => exact .refl s

/-- BUILD writes a whole grid, INVAL and TMVM's fatal error leave BUILT, every other effect leaves the grid alone. -/
theorem GridOk.effectOf {s : State} {i : Instr} (h : GridOk s) (hm : s.tstore.wf)
    (hc : firstFailing (checksOf s i) = none) : GridOk (effectOf s i) := by
  by_cases hi : i = .build
  · subst hi
    exact gridOk_buildEffect hm ((layerChecks_pass_iff s).mp hc)
  · by_cases hb : (Machine.effectOf s i).state = .built
    · exact gridOk_of_sameGrid h (sameGrid_effectOf hi hb)
    · exact gridOk_of_not_built hb

theorem GridOk.exec {i : Instr} {s t : State} (h : GridOk s) (hm : s.tstore.wf) (hx : exec i s = .next t) : GridOk t := by
  rcases exec_next hx with ⟨-, rfl⟩ | ⟨-, -, rfl⟩ | ⟨-, -, c, -, rfl⟩ | ⟨-, -, hc, -, rfl⟩
  · exact gridOk_of_not_built nofun
  · exact h
  · exact h
  · rw [← checksOf_started] at hc
    exact GridOk.effectOf (s := started s) h hm hc

/-- Settles O55: an idle step keeps the state, a hardware reset leaves UNBUILT, a command keeps the grid, and an access keeps it
by the layer lock. -/
theorem stepKeepsTheGrid : Obligations.StepKeepsTheGrid := by
  intro s t ⟨_, hm, hg⟩ hstep
  cases hp : s.port with
  | nil =>
    rw [step, nextEvent, hp] at hstep
    injection hstep with hstep
    exact hstep ▸ hg
  | cons e rest =>
    rcases step_by_event ⟨rest, hp⟩ hstep with ⟨-, rest, rfl⟩ | ⟨i, rest, -, hx⟩ | ⟨hf, hl⟩
    · exact gridOk_of_not_built nofun
    · exact GridOk.exec (s := { s with port := rest }) hg hm.tstore.1 hx
    · exact gridOk_of_sameGrid hg (hf.sameGrid hl)

end Sys2Proof.Machine
end

section
/-! BUILD's one overwrite of the grid against the spec: every cell it writes, and the loop nest of single writes that leaves the
same TSTORE and QOVF (41_build.md R152, R153). -/

namespace Sys2Proof.Machine

/-! ### One coordinate -/

/-- The word of a coordinate in the pseudocode is the machine's, with the overflow bit of its weight inside the layer. -/
theorem buildWord_eq (s : State) (gr gc : Nat) : Reference.buildWord s gr gc =
    if gr < s.inFeatures ∧ gc < s.outCh.toNat then quantizedWeight s gr gc else (0, false) := by
  rw [Reference.buildWord, quantizedWeight, quantize_f32_eq_reference]

theorem buildWord_fst (s : State) (gr gc : Nat) : (Reference.buildWord s gr gc).1 = coordinateWord s gr gc := by
  rw [buildWord_eq, apply_ite Prod.fst]
  rfl

theorem buildWord_snd {s : State} {gr gc : Nat} :
    (Reference.buildWord s gr gc).2 = true ↔ gr < s.inFeatures ∧ gc < s.outCh.toNat ∧ (quantizedWeight s gr gc).2 = true := by
  rw [buildWord_eq]
  split
  · next h => simp [h.1, h.2]
  · next h => simp [← and_assoc, h]

theorem buildOverflow_iff_buildWord (s : State) : buildOverflow s = true ↔
    ∃ gr < s.inFeatures, ∃ gc < s.outCh.toNat, (Reference.buildWord s gr gc).2 = true := by
  simp only [buildOverflow_iff, buildWord_snd]
  exact ⟨fun ⟨gr, hf, gc, ho, h⟩ => ⟨gr, hf, gc, ho, hf, ho, h⟩, fun ⟨gr, hf, gc, ho, _, _, h⟩ => ⟨gr, hf, gc, ho, h⟩⟩

/-- The cell of a coordinate after BUILD, in the pseudocode's terms. -/
theorem get?_built_buildWord {s : State} (hm : s.tstore.wf) {i j k row col : Nat} (hi : i < s.layerRowTiles)
    (hj : j < s.layerColTiles) (hk : k < s.layerSlices) (hr : row < 128) (hc : col < 128) :
    (s.tstore.overwrite s.gridCells (gridEntries s)).get? (cellIndex s.layerColTiles s.layerSlices i j k row col) =
      some (BitVec.ofNat 16 ((Reference.buildWord s (i * 128 + row) (j * 128 + col)).1.toNat
        / 2 ^ (s.sliceW.toNat * k) % 2 ^ s.sliceW.toNat)) := by
  rw [get?_built hm hi hj hk hr hc, buildWord_fst, slice_eq_div_mod]

/-- Settles O18: the geometry, the overflow bits, the cells of the grid and the words beyond it. -/
theorem buildWritesEveryCell : Obligations.BuildWritesEveryCell := by
  intro s hs hv hm
  obtain ⟨ef, er, ec, en⟩ := buildEffect_geometry hv
  refine ⟨_, exec_build hs hv, rfl, ef, er, ec, en, ?_, fun i hi j hj k hk row hr col hc => ?_, fun x hx => ?_⟩
  · simp [buildEffect, ← buildOverflow_iff_buildWord]
  · rw [er] at hi
    rw [ec] at hj
    rw [en] at hk
    rw [ec, en]
    exact congrArg (Option.getD · _) (get?_built_buildWord hm hi hj hk hr hc)
  · rw [er, ec, en] at hx
    exact congrArg (Option.getD · _) (get?_beyond hm hx)

/-! ### The loop nest -/

/-- Single writes one after another leave the canonical memory that holds every written word and elsewhere what was there. -/
theorem Memory.foldl_write_eq {w : Nat} {m m' : Memory w} {l : List (Nat × BitVec w)} (hm : m.wf) (hm' : m'.wf)
    (hl : ∀ c ∈ l, m'.get? c.1 = some c.2) (hrest : ∀ x, (∀ c ∈ l, c.1 ≠ x) → m'.get? x = m.get? x) :
    l.foldl (fun m c => m.write c.1 c.2) m = m' := by
  induction l generalizing m with
  | nil => exact Memory.ext_of_wf hm hm' fun x => (hrest x nofun).symm
  | cons c l ih =>
    obtain ⟨hc, hl⟩ := List.forall_mem_cons.mp hl
    refine ih (Memory.wf_write hm c.1 c.2) hl fun x hx => ?_
    rw [Memory.get?_write hm]
    split
    · next e => rw [e, hc]
    · next e => exact hrest x (List.forall_mem_cons.mpr ⟨Ne.symm e, hx⟩)

/-- A loop of disjunctions is one disjunction. -/
theorem foldl_or_eq {α : Type} (f : α → Bool) (l : List α) (b : Bool) : l.foldl (fun b a => b || f a) b = (b || l.any f) := by
  induction l generalizing b with
  | nil => simp
  | cons a l ih => rw [List.foldl_cons, ih, List.any_cons, Bool.or_assoc]

/-- A coordinate of the grid: tile row, tile column, row, column. -/
abbrev Coordinate := Nat × Nat × Nat × Nat

/-- The coordinates in the order of BUILD's four outer loops (41_build.md R152). -/
def gridCoordinates (s : State) : List Coordinate :=
  (List.range s.layerRowTiles).flatMap fun i => (List.range s.layerColTiles).flatMap fun j =>
    (List.range 128).flatMap fun row => (List.range 128).map fun col => (i, j, row, col)

theorem mem_gridCoordinates {s : State} {i j row col : Nat} : (i, j, row, col) ∈ gridCoordinates s ↔
    i < s.layerRowTiles ∧ j < s.layerColTiles ∧ row < 128 ∧ col < 128 := by
  simp only [gridCoordinates, List.mem_flatMap, List.mem_map, List.mem_range, Prod.mk.injEq]
  constructor
  · rintro ⟨i, hi, j, hj, row, hr, col, hc, rfl, rfl, rfl, rfl⟩
    exact ⟨hi, hj, hr, hc⟩
  · rintro ⟨hi, hj, hr, hc⟩
    exact ⟨i, hi, j, hj, row, hr, col, hc, rfl, rfl, rfl, rfl⟩

/-- The word of a coordinate and its overflow bit. -/
def wordAt (s : State) : Coordinate → Fx16 × Bool
  | (i, j, row, col) => Reference.buildWord s (i * 128 + row) (j * 128 + col)

/-- The writes of the innermost loop at a coordinate. -/
def writesAt (s : State) : Coordinate → List (Nat × BitVec 16)
  | (i, j, row, col) => (List.range s.layerSlices).map fun k =>
    (cellIndex s.layerColTiles s.layerSlices i j k row col,
      BitVec.ofNat 16 ((wordAt s (i, j, row, col)).1.toNat / 2 ^ (s.sliceW.toNat * k) % 2 ^ s.sliceW.toNat))

/-- The loop nest is one loop over the coordinates. -/
theorem buildLoop_eq (s : State) : Reference.buildLoop s =
    (gridCoordinates s).foldl (fun g p => ((writesAt s p).foldl (fun m c => m.write c.1 c.2) g.1, g.2 || (wordAt s p).2))
      (s.tstore, s.qovf) := by
  simp only [gridCoordinates, List.foldl_flatMap, List.foldl_map, writesAt]
  rfl

theorem buildLoop_fst (s : State) : (Reference.buildLoop s).1 =
    ((gridCoordinates s).flatMap (writesAt s)).foldl (fun m c => m.write c.1 c.2) s.tstore := by
  rw [buildLoop_eq, List.foldl_flatMap]
  exact (List.foldl_hom Prod.fst fun _ _ => rfl).symm

theorem buildLoop_snd (s : State) :
    (Reference.buildLoop s).2 = (s.qovf || (gridCoordinates s).any fun p => (wordAt s p).2) := by
  rw [buildLoop_eq, ← foldl_or_eq]
  exact (List.foldl_hom Prod.snd fun _ _ => rfl).symm

/-- Every weight of the layer has its coordinate in the grid. -/
theorem any_overflow_eq (s : State) : ((gridCoordinates s).any fun p => (wordAt s p).2) = buildOverflow s := by
  rw [Bool.eq_iff_iff, List.any_eq_true, buildOverflow_iff_buildWord]
  constructor
  · rintro ⟨⟨i, j, row, col⟩, -, h⟩
    obtain ⟨hf, ho, -⟩ := buildWord_snd.mp h
    exact ⟨_, hf, _, ho, h⟩
  · rintro ⟨gr, hf, gc, ho, h⟩
    have hgr : gr / 128 * 128 + gr % 128 = gr := by omega
    have hgc : gc / 128 * 128 + gc % 128 = gc := by omega
    have hr : gr % 128 < 128 := Nat.mod_lt _ (by norm_num)
    have hc : gc % 128 < 128 := Nat.mod_lt _ (by norm_num)
    refine ⟨(gr / 128, gc / 128, gr % 128, gc % 128), mem_gridCoordinates.mpr
      ⟨lt_ceilDiv_mul (by rwa [hgr]) hr, lt_ceilDiv_mul (by rwa [hgc]) hc, hr, hc⟩, ?_⟩
    rwa [wordAt, hgr, hgc]

/-- Every index below the number of cells of a grid is a cell of the grid. -/
theorem exists_cellIndex {R C N x : Nat} (hx : x < R * C * N * planeCells) :
    ∃ i < R, ∃ j < C, ∃ k < N, ∃ row < 128, ∃ col < 128, cellIndex C N i j k row col = x := by
  have hplane : x / 16384 < R * C * N := Nat.div_lt_of_lt_mul (by rwa [Nat.mul_comm])
  have hN : 0 < N := Nat.pos_of_mul_pos_left (Nat.zero_lt_of_lt hplane)
  have htile : x / 16384 / N < R * C := Nat.div_lt_of_lt_mul (by rwa [Nat.mul_comm])
  have hC : 0 < C := Nat.pos_of_mul_pos_left (Nat.zero_lt_of_lt htile)
  refine ⟨x / 16384 / N / C, Nat.div_lt_of_lt_mul (by rwa [Nat.mul_comm]), x / 16384 / N % C, Nat.mod_lt _ hC,
    x / 16384 % N, Nat.mod_lt _ hN, x / 128 % 128, Nat.mod_lt _ (by norm_num), x % 128, Nat.mod_lt _ (by norm_num), ?_⟩
  rw [cellIndex, Nat.div_add_mod', Nat.div_add_mod']
  simp only [tileDim]
  omega

/-- The cells the loop nest writes are those of the grid. -/
theorem exists_write_of_lt {s : State} {x : Nat} (hx : x < s.gridCells) :
    ∃ c ∈ (gridCoordinates s).flatMap (writesAt s), c.1 = x := by
  obtain ⟨i, hi, j, hj, k, hk, row, hr, col, hc, rfl⟩ := exists_cellIndex hx
  exact ⟨_, List.mem_flatMap.mpr ⟨_, mem_gridCoordinates.mpr ⟨hi, hj, hr, hc⟩,
    List.mem_map_of_mem (List.mem_range.mpr hk)⟩, rfl⟩

/-- Each single write is the word BUILD's overwrite leaves at its cell. -/
theorem get?_built_of_write {s : State} (hm : s.tstore.wf) {c : Nat × BitVec 16}
    (h : c ∈ (gridCoordinates s).flatMap (writesAt s)) :
    (s.tstore.overwrite s.gridCells (gridEntries s)).get? c.1 = some c.2 := by
  obtain ⟨⟨i, j, row, col⟩, hp, hw⟩ := List.mem_flatMap.mp h
  obtain ⟨hi, hj, hr, hc⟩ := mem_gridCoordinates.mp hp
  obtain ⟨k, hk, rfl⟩ := List.mem_map.mp hw
  exact get?_built_buildWord hm hi hj (List.mem_range.mp hk) hr hc

theorem overwrite_eq_buildLoop {s : State} (hm : s.tstore.wf) :
    s.tstore.overwrite s.gridCells (gridEntries s) = (Reference.buildLoop s).1 := by
  rw [buildLoop_fst]
  refine (Memory.foldl_write_eq hm (Memory.wf_overwrite hm (rising_gridEntries s) (gridEntries_lt s))
    (fun c hc => get?_built_of_write hm hc) fun x hx => get?_beyond hm ?_).symm
  by_contra hlt
  obtain ⟨c, hc, e⟩ := exists_write_of_lt (not_le.mp hlt)
  exact hx c hc e

/-- Settles O19: the memories hold the same words in the same form, and every weight's overflow bit is noted. -/
theorem buildEqualsItsLoopNest : Obligations.BuildEqualsItsLoopNest := by
  intro s hs hv hm
  refine ⟨_, exec_build hs hv, overwrite_eq_buildLoop hm, ?_⟩
  rw [buildLoop_snd, any_overflow_eq]
  rfl

end Sys2Proof.Machine
end

section
/-! The tile and TMVM: a weight from its cells, the bit-planes of an input, the bound of a tile output, and TMVM by its check and
its two ends (42_tile_mvm.md R165 to R172). -/

namespace Sys2Proof.Machine

/-! ### The weight of a coordinate -/

/-- A cell that holds a slice reads as that slice. -/
theorem State.HoldsWord.cell_eq {s : State} {i j row col k : Nat} {q : Fx16} (h : s.HoldsWord i j row col q)
    (h16 : s.sliceW.toNat ≤ 16) (hk : k < s.nSlices.toNat) : s.cell i j k row col = slice q s.sliceW.toNat k := by
  rw [State.cell, State.tstoreAt, h k hk, Option.getD_some, toNat_ofNat_slice h16]

/-- Settles O24: the cells are the slices of the word, and the weighted slices of a word sum to its signed value. -/
theorem weightIsTheStoredWord : Obligations.WeightIsTheStoredWord := by
  intro s i j row col q h1 h16 hn hq
  have hcount : s.nSlices.toNat = sliceCount s.sliceW.toNat := hn
  calc s.weight i j row col
      = sumTo (fun k => sliceWeight s.sliceW.toNat s.nSlices.toNat k (slice q s.sliceW.toNat k)) s.nSlices.toNat :=
        sumTo_congr fun k hk => by rw [hq.cell_eq h16 hk]
    _ = q.toInt := by rw [sumTo_eq_sum, hcount, sum_sliceWeights q h1 h16]

/-! ### The magnitude of a tile output -/

/-- A 16-bit word is at most `2^15` in magnitude. -/
theorem abs_toInt_le (u : Fx16) : |u.toInt| ≤ 2 ^ 15 :=
  abs_le.mpr ⟨u.le_toInt, u.toInt_lt.le⟩

/-- While BUILT the weight of every coordinate of the grid is the signed value of some word. -/
theorem exists_weight_eq_toInt {s : State} (h : Inv s) (hb : s.state = .built) {i j row col : Nat}
    (hi : i < s.rowTiles.toNat) (hj : j < s.colTiles.toNat) (hr : row < tileDim) (hc : col < tileDim) :
    ∃ q : Fx16, s.weight i j row col = q.toInt := by
  obtain ⟨q, hq, -⟩ := h.grid hb i hi j hj row hr col hc
  have hv := (layerChecks_pass_iff s).mp (h.registers.builtLayer hb)
  obtain ⟨-, -, -, hn⟩ := h.registers.builtGeometry hb
  exact ⟨q, weightIsTheStoredWord s i j row col q hv.sliceW.1 hv.sliceW.2 hn hq⟩

/-- Settles O25: each of the 128 products is that of two 16-bit words. -/
theorem tileOutputIsBounded : Obligations.TileOutputIsBounded := by
  intro s h hb i hi j hj x col hc
  have hterm : ∀ row ∈ Finset.range 128, |s.weight i j row col * (x row).toInt| ≤ 2 ^ 15 * 2 ^ 15 := by
    intro row hr
    obtain ⟨q, hq⟩ := exists_weight_eq_toInt h hb hi hj (Finset.mem_range.mp hr) hc
    rw [hq, abs_mul]
    exact mul_le_mul (abs_toInt_le q) (abs_toInt_le (x row)) (abs_nonneg _) (by norm_num)
  calc |s.tileMvm i j x col|
      ≤ ∑ row ∈ Finset.range 128, |s.weight i j row col * (x row).toInt| := by
        rw [tileMvm_eq_sum]
        exact Finset.abs_sum_le_sum_abs _ _
    _ ≤ ∑ row ∈ Finset.range 128, 2 ^ 15 * 2 ^ 15 := Finset.sum_le_sum hterm
    _ = 2 ^ 37 := by norm_num

/-! ### The bit-planes of an input -/

/-- Bit-plane `p` of a word is its slice `p` of width 1. -/
theorem slice_one (u : Fx16) (p : Nat) : slice u 1 p = (u.getLsbD p).toNat := by
  rw [slice_eq_div_mod, one_mul, pow_one, ← Nat.toNat_testBit]
  rfl

/-- The significance of a bit-plane is the weight of a slice of width 1 (42_tile_mvm.md R165, R166). -/
theorem sliceWeight_one {p : Nat} (hp : p < 16) (b : Bool) :
    sliceWeight 1 16 p b.toNat = Reference.planeWeight p * b.toNat := by
  rcases Nat.lt_succ_iff_lt_or_eq.mp hp with hlow | rfl
  · rw [sliceWeight_of_lt hlow, Reference.planeWeight, if_neg hlow.ne]
    push_cast
    ring
  · cases b <;> rfl

/-- A word is the sum of its bit-planes, the top one negative. -/
theorem sum_planes (u : Fx16) :
    ∑ p ∈ Finset.range 16, Reference.planeWeight p * (if u.getLsbD p then 1 else 0) = u.toInt := by
  rw [← sum_sliceWeights u (s := 1) (by norm_num) (by norm_num)]
  refine Finset.sum_congr rfl fun p hp => ?_
  rw [slice_one, show sliceCount 1 = 16 from rfl, sliceWeight_one (Finset.mem_range.mp hp)]
  cases u.getLsbD p <;> rfl

/-- Summing plane by plane is summing row by row (42_tile_mvm.md R167, R168). -/
theorem tileByPlanes_eq_tileMvm (s : State) (i j : Nat) (x : Nat → Fx16) (col : Nat) :
    Reference.tileByPlanes s i j x col = s.tileMvm i j x col := by
  simp only [Reference.tileByPlanes, Finset.mul_sum, tileMvm_eq_sum]
  rw [Finset.sum_comm]
  refine Finset.sum_congr rfl fun row _ => ?_
  rw [← sum_planes, Finset.mul_sum]
  exact Finset.sum_congr rfl fun p _ => mul_left_comm _ _ _

/-! ### TMVM -/

theorem firstFailing_notBuiltCheck {s : State} (hb : s.state = .built) (op : BitVec 8) :
    firstFailing [notBuiltCheck op s] = none := by
  simp [firstFailing, notBuiltCheck, hb]

theorem firstFailing_notBuiltCheck_of_not_built {s : State} (hb : s.state ≠ .built) (op : BitVec 8) (cs : List Check) :
    firstFailing (notBuiltCheck op s :: cs) = some (notBuiltCheck op s) :=
  if_pos (decide_eq_true hb)

theorem tileOutside_iff (s : State) :
    tileOutside s = true ↔ s.rowTiles.toNat ≤ s.tileI.toNat ∨ s.colTiles.toNat ≤ s.tileJ.toNat :=
  decide_eq_true_iff

/-- TMVM while BUILT, an index outside the grid: the fatal error. -/
theorem exec_tmvm_outside {s : State} (hb : s.state = .built)
    (ho : s.rowTiles.toNat ≤ s.tileI.toNat ∨ s.colTiles.toNat ≤ s.tileJ.toNat) :
    exec .tmvm s = .next (ended (raiseFatal (s.tileI ++ s.tileJ) s)) := by
  have hout := (tileOutside_iff s).mpr ho
  have heffect : effectOf (started s) .tmvm = raiseFatal (s.tileI ++ s.tileJ) (started s) := if_pos hout
  rw [exec_of_passing (i := .tmvm) nofun (by simp [hb]) (firstFailing_notBuiltCheck hb _) (by simp [usesEngine, hout]),
    heffect]
  rfl

/-- TMVM while BUILT, both indices inside the grid: the tile's outputs in TOUT. -/
theorem exec_tmvm_inside {s : State} (hr : RegistersOk s) (hb : s.state = .built) (hi : s.tileI.toNat < s.rowTiles.toNat)
    (hj : s.tileJ.toNat < s.colTiles.toNat) : exec .tmvm s = .next { s with tout := s.tout.store (tileOutputs s) } := by
  have hin : ¬ tileOutside s = true := by
    rw [tileOutside_iff]
    omega
  have heffect : effectOf (started s) .tmvm = { started s with tout := s.tout.store (tileOutputs s) } := if_neg hin
  rw [exec_of_passing (i := .tmvm) nofun (by simp [hb]) (firstFailing_notBuiltCheck hb _)
    fun _ => engineFits_of_built hr hb, heffect, ended, ← hr.notBusy]

/-- A word of TOUT after the outputs of a tile are stored. -/
theorem get?_store_tileOutputs {s : State} (h : s.tout.wf) {col : Nat} (hc : col < 128) :
    (s.tout.store (tileOutputs s)).get? col =
      some (pat 64 (s.tileMvm s.tileI.toNat s.tileJ.toNat (s.subVector s.tileI.toNat) col)) := by
  rw [Memory.get?_store h]
  simp [tileOutputs, hc]

/-- Settles O22: the check for BUILT fails, or an index is outside the grid, or the outputs are stored; each output is the sum
over the bit-planes. -/
theorem tmvmFollowsItsRule : Obligations.TmvmFollowsItsRule := by
  intro s
  refine ⟨fun hu => ?_, fun hb ho => ?_, fun hb hr hm hi hj => ?_⟩
  · exact exec_of_failing (i := .tmvm) nofun (by simp [hu]) (firstFailing_notBuiltCheck_of_not_built (by simp [hu]) _ [])
  · exact exec_tmvm_outside hb ho
  · refine ⟨_, exec_tmvm_inside hr hb hi hj, rfl, fun col hc => ?_⟩
    rw [State.toutAt, get?_store_tileOutputs hm.tout.1 hc, Option.getD_some, tileByPlanes_eq_tileMvm]
    rfl

end Sys2Proof.Machine
end

section
/-! The scheduler and SMVM: the three loops as one sum, the product of the grid's matrix with the patch, the range of its sums,
and SMVM by its check and its effect (43_scheduler.md R181 to R187). -/

namespace Sys2Proof.Machine

/-! ### The loops -/

/-- A loop each of whose passes adds something to every word of an accumulator adds their sum. -/
theorem foldl_add_eq_sum {pass : (Nat → Int) → Nat → Nat → Int} {g : Nat → Nat → Int}
    (hpass : ∀ acc k a, pass acc k a = acc a + g k a) (n : Nat) (acc : Nat → Int) (a : Nat) :
    (List.range n).foldl pass acc a = acc a + ∑ k ∈ Finset.range n, g k a := by
  induction n with
  | zero => simp
  | succ n ih =>
    rw [List.range_succ, List.foldl_append, List.foldl_cons, List.foldl_nil, hpass, ih, Finset.sum_range_succ, add_assoc]

/-- The innermost loop adds one output of the tile to each word of its segment, and nothing elsewhere. -/
theorem addSegment_apply (out : Nat → Int) (j : Nat) (acc : Nat → Int) (a : Nat) :
    Reference.addSegment out j acc a = acc a + if a / 128 = j then out (a % 128) else 0 := by
  have hpass : ∀ (acc : Nat → Int) (col a : Nat), Function.update acc (j * 128 + col) (acc (j * 128 + col) + out col) a =
      acc a + if a = j * 128 + col then out col else 0 := by
    intro acc col a
    rw [Function.update_apply]
    split
    · next h => rw [h]
    · rw [add_zero]
  rw [Reference.addSegment, foldl_add_eq_sum hpass]
  congr 1
  split
  · have hcol : a % 128 ∈ Finset.range 128 := Finset.mem_range.mpr (Nat.mod_lt _ (by norm_num))
    rw [Finset.sum_eq_single_of_mem _ hcol fun col _ hne => if_neg (by omega), if_pos (by omega)]
  · refine Finset.sum_eq_zero fun col hcol => if_neg ?_
    have hlt := Finset.mem_range.mp hcol
    omega

/-- In a channel slot of the grid the loops leave the scheduler's sum (43_scheduler.md R183). -/
theorem schedLoop_eq_schedMvm {s : State} {a : Nat} (ha : a < s.colTiles.toNat * 128) :
    Reference.schedLoop s a = s.schedMvm a := by
  have hcolumns := fun acc i => foldl_add_eq_sum
    (fun acc j => addSegment_apply (Reference.tileByPlanes s i j (s.subVector i)) j acc) s.colTiles.toNat acc
  have hj : a / 128 ∈ Finset.range s.colTiles.toNat := Finset.mem_range.mpr (by omega)
  rw [Reference.schedLoop, foldl_add_eq_sum hcolumns, zero_add, State.schedMvm, sumTo_eq_sum]
  refine Finset.sum_congr rfl fun i _ => ?_
  rw [Finset.sum_ite_eq, if_pos hj, tileByPlanes_eq_tileMvm]

/-! ### SMVM -/

/-- SMVM while BUILT: the sums in ACC. -/
theorem exec_smvm_built {s : State} (hr : RegistersOk s) (hb : s.state = .built) :
    exec .smvm s = .next (accumulate s) := by
  rw [exec_of_passing (i := .smvm) nofun (by simp [hb]) (firstFailing_notBuiltCheck hb _) fun _ => engineFits_of_built hr hb,
    effectOf, ended, ← hr.notBusy]
  rfl

/-- Settles O26: the check for BUILT fails, or the sums are stored; each is the word the loops leave. -/
theorem smvmRunsTheSchedulerLoop : Obligations.SmvmRunsTheSchedulerLoop := by
  intro s
  refine ⟨fun hu => ?_, fun hr hm hb => ⟨_, exec_smvm_built hr hb, rfl, fun a ha => ?_, fun a ha => ?_⟩⟩
  · exact exec_of_failing (i := .smvm) nofun (by simp [hu]) (firstFailing_notBuiltCheck_of_not_built (by simp [hu]) _ [])
  · rw [acc_accumulate hm.acc.1, if_pos ha, schedLoop_eq_schedMvm ha]
    rfl
  · rw [acc_accumulate hm.acc.1, if_neg (by omega)]

/-! ### The matrix product -/

/-- While BUILT the row-tiles hold every feature (41_build.md R150). -/
theorem inFeatures_le_rowTiles {s : State} (hr : RegistersOk s) (hb : s.state = .built) :
    s.inFeatures ≤ s.rowTiles.toNat * 128 := by
  obtain ⟨-, hrows, -⟩ := hr.builtGeometry hb
  rw [hrows]
  exact ceilDiv_mul_ge _ (by norm_num)

/-- While BUILT the sum of a channel is its row of the grid's matrix times the patch. -/
theorem schedMvm_eq_product {s : State} (hr : RegistersOk s) (hb : s.state = .built) (a : Nat) :
    s.schedMvm a = ∑ f ∈ Finset.range s.inFeatures, Reference.gridWeight s a f * (s.pbufAt f).toInt := by
  obtain ⟨hfeat, -⟩ := hr.builtGeometry hb
  rw [schedMvm_eq_sum s a (hfeat ▸ inFeatures_le_rowTiles hr hb), hfeat]
  rfl

/-- While BUILT an entry of the grid's matrix is the signed value of some word, 0 in the padding channels. -/
theorem exists_gridWeight_eq_toInt {s : State} (h : Inv s) (hb : s.state = .built) {a f : Nat}
    (ha : a < s.colTiles.toNat * 128) (hf : f < s.inFeatures) :
    ∃ q : Fx16, Reference.gridWeight s a f = q.toInt ∧ (s.outCh.toNat ≤ a → q = 0) := by
  have hrows := inFeatures_le_rowTiles h.registers hb
  have hv := (layerChecks_pass_iff s).mp (h.registers.builtLayer hb)
  obtain ⟨-, -, -, hn⟩ := h.registers.builtGeometry hb
  obtain ⟨q, hq, hpad⟩ := h.grid hb (f / 128) (by omega) (a / 128) (by omega) (f % 128) (Nat.mod_lt _ (by norm_num))
    (a % 128) (Nat.mod_lt _ (by norm_num))
  refine ⟨q, weightIsTheStoredWord s _ _ _ _ q hv.sliceW.1 hv.sliceW.2 hn hq, fun hout => hpad (.inr ?_)⟩
  rwa [tileDim, Nat.div_add_mod']

/-- Settles O27: the rows of the tiles are the features, and a padding channel has the weight 0 at each. -/
theorem schedulerIsTheMatrixProduct : Obligations.SchedulerIsTheMatrixProduct := by
  intro s h hb
  refine ⟨fun a _ => schedMvm_eq_product h.registers hb a, fun a hout ha => ?_⟩
  rw [schedMvm_eq_product h.registers hb]
  refine Finset.sum_eq_zero fun f hf => ?_
  obtain ⟨q, hq, hpad⟩ := exists_gridWeight_eq_toInt h hb ha (Finset.mem_range.mp hf)
  rw [hq, hpad hout]
  exact zero_mul _

/-! ### The range of the sums -/

/-- Each of the fewer than `2^32` products of a sum is that of two 16-bit words (43_scheduler.md R186). -/
theorem abs_schedMvm_lt {s : State} (h : Inv s) (hb : s.state = .built) {a : Nat} (ha : a < s.colTiles.toNat * 128) :
    |s.schedMvm a| < 2 ^ 62 := by
  have hterm : ∀ f ∈ Finset.range s.inFeatures, |Reference.gridWeight s a f * (s.pbufAt f).toInt| ≤ 2 ^ 15 * 2 ^ 15 := by
    intro f hf
    obtain ⟨q, hq, -⟩ := exists_gridWeight_eq_toInt h hb ha (Finset.mem_range.mp hf)
    rw [hq, abs_mul]
    exact mul_le_mul (abs_toInt_le q) (abs_toInt_le (s.pbufAt f)) (abs_nonneg _) (by norm_num)
  have hcount := inFeatures_lt s
  calc |s.schedMvm a|
      ≤ ∑ f ∈ Finset.range s.inFeatures, |Reference.gridWeight s a f * (s.pbufAt f).toInt| := by
        rw [schedMvm_eq_product h.registers hb]
        exact Finset.abs_sum_le_sum_abs _ _
    _ ≤ s.inFeatures * (2 ^ 15 * 2 ^ 15) := by
        simpa using Finset.sum_le_sum hterm
    _ < 2 ^ 62 := by omega

/-- Settles O28: a sum below `2^62` in magnitude is in the range of its 64-bit word. -/
theorem sumsNeverWrap : Obligations.SumsNeverWrap := by
  intro s h hb a ha
  have hlt := abs_schedMvm_lt h hb ha
  obtain ⟨hl, hu⟩ := abs_lt.mp hlt
  exact ⟨hlt, toInt_pat (by norm_num) (by omega) (by omega)⟩

/-! ### A single tile -/

theorem ceilDiv_tileDim_eq_one {n : Nat} (h1 : 1 ≤ n) (h128 : n ≤ 128) : ceilDiv n tileDim = 1 := by
  rw [ceilDiv, tileDim]
  omega

/-- A layer of at most 128 features and 128 channels has one tile (43_scheduler.md R184). -/
theorem singleTile_of_built {s : State} (hr : RegistersOk s) (hb : s.state = .built) (hf : s.inFeatures ≤ 128)
    (ho : s.outCh.toNat ≤ 128) : s.rowTiles.toNat = 1 ∧ s.colTiles.toNat = 1 := by
  have hv := (layerChecks_pass_iff s).mp (hr.builtLayer hb)
  obtain ⟨-, hrows, hcols, -⟩ := hr.builtGeometry hb
  have hpos : 1 ≤ s.inFeatures := Nat.mul_pos (Nat.mul_pos hv.inCh hv.kRows) hv.kCols
  exact ⟨hrows.trans (ceilDiv_tileDim_eq_one hpos hf), hcols.trans (ceilDiv_tileDim_eq_one hv.outCh ho)⟩

/-- With one row-tile the sum of a channel of the first column-tile is the tile's output. -/
theorem schedMvm_eq_tileMvm {s : State} (h1 : s.rowTiles.toNat = 1) {a : Nat} (ha : a < 128) :
    s.schedMvm a = s.tileMvm 0 0 (s.subVector 0) a := by
  rw [State.schedMvm, h1, sumTo_eq_sum, Finset.sum_range_one, tileDim, Nat.div_eq_of_lt ha, Nat.mod_eq_of_lt ha]

/-- Settles O29: both commands store the output of the one tile; SMVM changes nothing TMVM reads. -/
theorem singleTileEqualsScheduler : Obligations.SingleTileEqualsScheduler := by
  intro s h hb hf ho hi hj
  obtain ⟨hrows, hcols⟩ := singleTile_of_built h.registers hb hf ho
  have hsmvm := exec_smvm_built h.registers hb
  have hi0 : s.tileI.toNat = 0 := by simp [hi]
  have hj0 : s.tileJ.toNat = 0 := by simp [hj]
  have htmvm := exec_tmvm_inside (s := accumulate s) (h.registers.exec hsmvm) hb (by simp [hi0, hrows]) (by simp [hj0, hcols])
  refine ⟨_, _, hsmvm, htmvm, fun a ha => ?_⟩
  calc (accumulate s).accAt a
      = pat 64 (s.tileMvm 0 0 (s.subVector 0) a) := by
        rw [acc_accumulate h.memories.acc.1, if_pos (by omega), schedMvm_eq_tileMvm hrows ha]
    _ = pat 64 (s.tileMvm s.tileI.toNat s.tileJ.toNat (s.subVector s.tileI.toNat) a) := by rw [hi0, hj0]
    _ = (((accumulate s).tout.store (tileOutputs (accumulate s))).get? a).getD ((accumulate s).unwritten .tout 64 a) := by
        rw [get?_store_tileOutputs (s := accumulate s) h.memories.tout.1 ha]
        rfl

end Sys2Proof.Machine
end

section
/-! ENCP and CONV as commands: the check for BUILT, the first failing check of the call, and ENCP's patch tap by tap
(44_conv.md R195 to R199). -/

namespace Sys2Proof.Machine

/-! ### The checks -/

/-- A command whose first failing check is known by its record: the entry of that error and nothing else. -/
theorem exec_of_record {i : Instr} {s : State} {code : BitVec 8} {info : BitVec 64} (hi : i ≠ .sreset)
    (hs : s.state ≠ .fault) (h : (firstFailing (checksOf s i)).map Check.record = some (code, info)) :
    exec i s = .next { s with
      errCode := if s.errCode = 0 then code else s.errCode
      errInfo := if s.errCode = 0 then info else s.errInfo
      busy := false } := by
  obtain ⟨c, hc, hrec⟩ := Option.map_eq_some_iff.mp h
  cases hrec
  exact exec_of_failing hi hs hc

/-- Settles O23: the check for BUILT is the first of both commands, and it fails. -/
theorem gridCommandsNeedTheGrid : Obligations.GridCommandsNeedTheGrid := by
  intro s hu
  have hs : s.state ≠ .fault := by simp [hu]
  have hb : s.state ≠ .built := by simp [hu]
  constructor
  · exact exec_of_failing (i := .encp) nofun hs (firstFailing_notBuiltCheck_of_not_built hb _ _)
  · exact exec_of_failing (i := .conv) nofun hs (firstFailing_notBuiltCheck_of_not_built hb _ _)

/-- The checks of `ValidateCall` in their order record what 44_conv.md R196 lists. -/
theorem record_callChecks (s : State) : (firstFailing s.callChecks).map Check.record = Reference.callError s := by
  simp only [State.callChecks, zeroCheck, capacityCheck, record_firstFailing_cons (bitVec_eq_zero_iff _),
    record_firstFailing_cons Iff.rfl]
  rfl

/-- While BUILT a command that checks the call and then one thing more raises the call's error, else that of the last check. -/
theorem record_callChecks_then {s : State} (hb : s.state = .built) (op : BitVec 8) (p : Prop) [Decidable p] (e : ErrorCode)
    (info : BitVec 64) :
    (firstFailing (notBuiltCheck op s :: s.callChecks ++ [⟨decide p, e, info⟩])).map Check.record =
      (Reference.callError s).or (if p then some (e.code, info) else none) := by
  rw [List.cons_append, ← List.singleton_append, firstFailing_append, firstFailing_notBuiltCheck hb, Option.none_or,
    firstFailing_append, Option.map_or, record_callChecks, record_firstFailing_cons Iff.rfl]
  rfl

theorem record_checksOf_encp {s : State} (hb : s.state = .built) :
    (firstFailing (checksOf s .encp)).map Check.record = Reference.encpError s := by
  rw [checksOf, positionCheck, record_callChecks_then hb, Reference.encpError]
  cases Reference.callError s <;> rfl

theorem record_checksOf_conv {s : State} (hb : s.state = .built) :
    (firstFailing (checksOf s .conv)).map Check.record = Reference.convError s := by
  rw [checksOf, capacityCheck, record_callChecks_then hb, Reference.convError]
  cases Reference.callError s <;> rfl

/-- Settles O31: the first failing check, by its record. -/
theorem encpChecksInOrder : Obligations.EncpChecksInOrder := fun s hb code info he =>
  exec_of_record (i := .encp) nofun (by simp [hb]) ((record_checksOf_encp hb).trans he)

/-- Settles O37: the first failing check, by its record. -/
theorem convChecksInOrder : Obligations.ConvChecksInOrder := fun s hb code info he =>
  exec_of_record (i := .conv) nofun (by simp [hb]) ((record_checksOf_conv hb).trans he)

/-- A valid call has no error in the order of 44_conv.md R196. -/
theorem callError_of_callValid {s : State} (h : CallValid s) : Reference.callError s = none := by
  rw [← record_callChecks, (callChecks_pass_iff s).mpr h]
  rfl

theorem firstFailing_checksOf_encp {s : State} (hb : s.state = .built) (hv : CallValid s)
    (hr : s.posR.toNat < Reference.outRows s) (hc : s.posC.toNat < Reference.outCols s) :
    firstFailing (checksOf s .encp) = none := by
  rw [← Option.map_eq_none_iff, record_checksOf_encp hb, Reference.encpError, callError_of_callValid hv]
  exact if_neg (by omega)

theorem firstFailing_checksOf_conv {s : State} (hb : s.state = .built) (hv : CallValid s)
    (hcap : s.outCh.toNat * Reference.outRows s * Reference.outCols s ≤ s.caps.capO) :
    firstFailing (checksOf s .conv) = none := by
  rw [← Option.map_eq_none_iff, record_checksOf_conv hb, Reference.convError, callError_of_callValid hv]
  exact if_neg (by omega)

/-! ### The taps -/

/-- The encoded element of a tap's feature is the encoded input under the tap (44_conv.md R197, R198). -/
theorem encodedElem_tapIndex (s : State) (r c : Nat) {ch kr kc : Nat} (hr : kr < s.kRows.toNat) (hc : kc < s.kCols.toNat) :
    s.encodedElem r c (Reference.tapIndex s ch kr kc) = Reference.tapWord s r c ch kr kc := by
  rw [State.encodedElem, patchElem_tap s r c hr hc, quantize_eq_reference, apply_ite Reference.denote,
    binaryThirtyTwoValues, Reference.tapWord, Reference.tapValue]
  simp [Reference.denote]

/-- Some element of a patch overflows exactly if some tap does. -/
theorem any_encodedElem_iff (s : State) (r c : Nat) :
    ((List.range s.inFeatures).any fun f => (s.encodedElem r c f).2) = true ↔
      ∃ ch < s.inCh.toNat, ∃ kr < s.kRows.toNat, ∃ kc < s.kCols.toNat, (Reference.tapWord s r c ch kr kc).2 = true := by
  simp only [List.any_eq_true, List.mem_range]
  constructor
  · rintro ⟨f, hf, hovf⟩
    obtain ⟨ch, hch, kr, hkr, kc, hkc, rfl⟩ := exists_tap hf
    exact ⟨ch, hch, kr, hkr, kc, hkc, encodedElem_tapIndex s r c hkr hkc ▸ hovf⟩
  · rintro ⟨ch, hch, kr, hkr, kc, hkc, hovf⟩
    exact ⟨_, tapIndex_lt hch hkr hkc, (encodedElem_tapIndex s r c hkr hkc).symm ▸ hovf⟩

/-! ### ENCP -/

/-- The published output size is that of 44_conv.md R195. -/
theorem toNat_publishOutDims (s : State) : (publishOutDims s).outRows.toNat = Reference.outRows s ∧
    (publishOutDims s).outCols.toNat = Reference.outCols s := by
  obtain ⟨hr, hc⟩ := callOut_lt s
  exact ⟨Nat.mod_eq_of_lt hr, Nat.mod_eq_of_lt hc⟩

/-- ENCP while BUILT, with a valid call and a position inside the output: the patch of that position. -/
theorem exec_encp_built {s : State} (hreg : RegistersOk s) (hb : s.state = .built) (hv : CallValid s)
    (hr : s.posR.toNat < Reference.outRows s) (hc : s.posC.toNat < Reference.outCols s) :
    exec .encp s = .next (encodePatch s.posR.toNat s.posC.toNat (publishOutDims s)) := by
  rw [exec_of_passing (i := .encp) nofun (by simp [hb]) (firstFailing_checksOf_encp hb hv hr hc)
    fun _ => engineFits_of_built hreg hb, effectOf, ended, ← hreg.notBusy]
  rfl

/-- Settles O30: the patch of the position, its features taken as the taps. -/
theorem encpEncodesThePatch : Obligations.EncpEncodesThePatch := by
  intro s hreg hm hb hv hr hc
  obtain ⟨hrows, hcols⟩ := toNat_publishOutDims s
  have hpbuf : ∀ x, (encodePatch s.posR.toNat s.posC.toNat (publishOutDims s)).pbufAt x =
      if x < s.inFeatures then (s.encodedElem s.posR.toNat s.posC.toNat x).1 else s.pbufAt x :=
    pbuf_encodePatch (s := publishOutDims s) hm.pbuf.1 _ _
  refine ⟨_, exec_encp_built hreg hb hv hr hc, rfl, hrows, hcols, fun ch hch kr hkr kc hkc => ?_, fun x hx => ?_, ?_⟩
  · rw [hpbuf, if_pos (tapIndex_lt hch hkr hkc), encodedElem_tapIndex s _ _ hkr hkc]
  · rw [hpbuf, if_neg (by omega)]
  · rw [← any_encodedElem_iff, ← Bool.or_eq_true]
    rfl

end Sys2Proof.Machine
end

section
/-! What CONV leaves: the loop over the positions and the bias pass, word by word and bit by bit, in the spec's own sums; and the
last position (44_conv.md R200 to R204). -/

namespace Sys2Proof.Machine

/-! ### The sum of a position -/

/-- The features of a position's sum are its taps (20_memory.md R79). -/
theorem posSum_eq_tapSum (s : State) (o r c : Nat) : s.posSum o r c = Reference.tapSum s o r c := by
  rw [State.posSum, sum_features, Reference.tapSum]
  refine Finset.sum_congr rfl fun ch _ => Finset.sum_congr rfl fun kr hkr => Finset.sum_congr rfl fun kc hkc => ?_
  rw [encodedElem_tapIndex s r c (Finset.mem_range.mp hkr) (Finset.mem_range.mp hkc)]
  rfl

theorem ConvFrame.tapSum_eq {s t : State} (h : ConvFrame s t) (o r c : Nat) :
    Reference.tapSum t o r c = Reference.tapSum s o r c := by
  rw [h]
  rfl

/-- The scheduler's sum over the encoded patch of a position is the sum of the position. -/
theorem schedMvm_encodePatch_eq_tapSum {s : State} (h : ConvReady s) (r c a : Nat) :
    (encodePatch r c s).schedMvm a = Reference.tapSum s a r c := by
  rw [schedMvm_encodePatch h.pbuf h.inFeat h.rows, ← posSum_eq_tapSum]
  rfl

/-- Encoding a patch while BUILT keeps the invariant, so what holds of SMVM's sums holds of those of every position. -/
theorem Inv.encodePatch {s : State} (h : Inv s) (hb : s.state = .built) (r c : Nat) : Inv (encodePatch r c s) := by
  obtain ⟨-, -, hp, -⟩ := (engineFits_iff s).mp (engineFits_of_built h.registers hb)
  exact ⟨{ h.registers with }, h.memories.encodePatch hp r c, h.grid⟩

theorem Inv.convReady {s : State} (h : Inv s) (hb : s.state = .built) : ConvReady s :=
  convReady_of_built h.registers h.memories hb

/-- The word of a position's sum reads back as the sum (43_scheduler.md R186). -/
theorem toInt_pat_tapSum {s : State} (h : Inv s) (hb : s.state = .built) {o : Nat} (ho : o < s.outCh.toNat) (r c : Nat) :
    (pat 64 (Reference.tapSum s o r c)).toInt = Reference.tapSum s o r c := by
  have hready := h.convReady hb
  rw [← schedMvm_encodePatch_eq_tapSum hready]
  exact (sumsNeverWrap _ (h.encodePatch hb r c) hb o (lt_of_lt_of_le ho hready.cols)).2

/-- In the padding channels the sum of a position is 0 (43_scheduler.md R182). -/
theorem tapSum_padding {s : State} (h : Inv s) (hb : s.state = .built) {a : Nat} (ho : s.outCh.toNat ≤ a)
    (ha : a < s.colTiles.toNat * 128) (r c : Nat) : Reference.tapSum s a r c = 0 := by
  rw [← schedMvm_encodePatch_eq_tapSum (h.convReady hb)]
  exact (schedulerIsTheMatrixProduct _ (h.encodePatch hb r c) hb).2 a ho ha

/-- The machine's quantized bias is the spec's (30_encoding.md R111). -/
theorem biasOf_eq_biasWord (s : State) (o : Nat) : s.biasOf o = Reference.biasWord s o :=
  quantize_f32_eq_reference 64 s.fOut (s.bmemAt o)

/-- The sum of channel `o` at `(r, c)` with its bias, as the bias pass forms it from the output word (44_conv.md R202). -/
def State.biasedSum (s : State) (o r c : Nat) : Int :=
  biased (pat 64 (Reference.tapSum s o r c)) (Reference.biasWord s o).1

theorem biasedSum_eq {s : State} (h : Inv s) (hb : s.state = .built) {o : Nat} (ho : o < s.outCh.toNat) (r c : Nat) :
    s.biasedSum o r c = Reference.tapSum s o r c + (Reference.biasWord s o).1.toInt := by
  rw [State.biasedSum, biased, toInt_pat_tapSum h hb ho]

/-! ### The loop over the positions -/

/-- The state after CONV's loop over the positions, before the bias pass (44_conv.md R200). -/
def spatialLoop (s : State) : State :=
  (positions (Reference.outRows s) (Reference.outCols s)).foldl
    (convPosition (Reference.outRows s) (Reference.outCols s)) (publishOutDims s)

theorem convFrame_spatialLoop (s : State) : ConvFrame (publishOutDims s) (spatialLoop s) :=
  ConvFrame.foldl (convFrame_convPosition _ _) _ _

theorem ConvReady.publishOutDims {s : State} (h : ConvReady s) : ConvReady (publishOutDims s) := { h with }

theorem ConvReady.spatialLoop {s : State} (h : ConvReady s) : ConvReady (spatialLoop s) :=
  h.publishOutDims.foldPositions _ _ _

/-- After the loop every word of the output tensor is its sum (44_conv.md R201). -/
theorem get?_spatialLoop {s : State} (h : ConvReady s) {o r c : Nat} (ho : o < s.outCh.toNat) (hr : r < Reference.outRows s)
    (hc : c < Reference.outCols s) :
    (spatialLoop s).omem.get? (Reference.outIndex s o r c) = some (pat 64 (Reference.tapSum s o r c)) := by
  rw [← posSum_eq_tapSum]
  exact (get?_foldPositions h.publishOutDims (fun _ hp => mem_positions.mp hp) _).1 (r, c) (mem_positions.mpr ⟨hr, hc⟩) o ho rfl

/-- An index beyond the output tensor is that of none of its words. -/
theorem ne_outIndex_of_beyond {s : State} {x o : Nat} (hx : s.outCh.toNat * Reference.outRows s * Reference.outCols s ≤ x)
    (ho : o < s.outCh.toNat) {p : Nat × Nat} (hp : p ∈ positions (Reference.outRows s) (Reference.outCols s)) :
    x ≠ Reference.outIndex s o p.1 p.2 := by
  obtain ⟨hr, hc⟩ := mem_positions.mp hp
  exact (lt_of_lt_of_le (omemIndex_lt ho hr hc) hx).ne'

theorem get?_spatialLoop_beyond {s : State} (h : ConvReady s) {x : Nat}
    (hx : s.outCh.toNat * Reference.outRows s * Reference.outCols s ≤ x) :
    (spatialLoop s).omem.get? x = s.omem.get? x :=
  (get?_foldPositions h.publishOutDims (fun _ hp => mem_positions.mp hp) x).2 fun _ hp _ ho => ne_outIndex_of_beyond hx ho hp

/-- Some position of the output, by its row and its column. -/
theorem exists_mem_positions {rows cols : Nat} {P : Nat → Nat → Prop} :
    (∃ p ∈ positions rows cols, P p.1 p.2) ↔ ∃ r < rows, ∃ c < cols, P r c := by
  simp only [Prod.exists, mem_positions]
  exact ⟨fun ⟨r, c, ⟨hr, hc⟩, h⟩ => ⟨r, hr, c, hc, h⟩, fun ⟨r, hr, c, hc, h⟩ => ⟨r, c, ⟨hr, hc⟩, h⟩⟩

/-- QOVF after the loop: it was set, or some tap of some position overflows (44_conv.md R198). -/
theorem qovf_spatialLoop (s : State) : (spatialLoop s).qovf = true ↔ s.qovf = true ∨
    ∃ r < Reference.outRows s, ∃ c < Reference.outCols s, ∃ ch < s.inCh.toNat, ∃ kr < s.kRows.toNat, ∃ kc < s.kCols.toNat,
      (Reference.tapWord s r c ch kr kc).2 = true := by
  simp only [← any_encodedElem_iff]
  rw [spatialLoop, qovf_foldPositions, Bool.or_eq_true, List.any_eq_true]
  exact or_congr_right
    (exists_mem_positions (P := fun r c => ((List.range s.inFeatures).any fun f => (s.encodedElem r c f).2) = true))

/-! ### The bias pass -/

/-- `t` differs from `s` at most in what the bias pass writes. -/
def BiasFrame (s t : State) : Prop := t = { s with omem := t.omem, qovf := t.qovf }

theorem BiasFrame.foldl {α : Type} {f : State → α → State} (hf : ∀ s a, BiasFrame s (f s a)) (l : List α) (s : State) :
    BiasFrame s (l.foldl f s) := by
  refine List.foldlRecOn l f (motive := BiasFrame s) rfl fun t ht a _ => ?_
  unfold BiasFrame at ht hf ⊢
  rw [hf t a]
  rw [ht]

theorem biasFrame_biasPass (rows cols : Nat) (s : State) : BiasFrame s (biasPass rows cols s) := by
  unfold biasPass
  split
  · refine BiasFrame.foldl (fun s o => ?_) _ _
    have hadd := BiasFrame.foldl (f := addBias rows cols o (s.biasOf o).1) (fun _ _ => rfl) (positions rows cols)
      (noteOverflow (s.biasOf o).2 s)
    unfold BiasFrame at hadd ⊢
    rw [biasChannel_eq, hadd]
    rfl
  · rfl

/-- With a bias CONV is the loop over the positions, then the bias of each channel (44_conv.md R202). -/
theorem convolve_of_bias {s : State} (hen : s.biasEn = 1) : convolve s =
    (List.range s.outCh.toNat).foldl (biasChannel (Reference.outRows s) (Reference.outCols s)) (spatialLoop s) := by
  have hbias : (spatialLoop s).biasEn = 1 := by rwa [convFrame_spatialLoop s]
  have hch : (spatialLoop s).outCh = s.outCh := by rw [convFrame_spatialLoop s]; rfl
  rw [← hch]
  exact if_pos hbias

/-- Without a bias CONV is the loop over the positions. -/
theorem convolve_of_no_bias {s : State} (hen : s.biasEn ≠ 1) : convolve s = spatialLoop s := by
  have hbias : (spatialLoop s).biasEn ≠ 1 := by rwa [convFrame_spatialLoop s]
  exact if_neg hbias

theorem biasOf_spatialLoop (s : State) (o : Nat) : (spatialLoop s).biasOf o = Reference.biasWord s o :=
  ((convFrame_spatialLoop s).biasOf_eq o).trans (biasOf_eq_biasWord s o)

/-- The bias pass forms its sums from the words the loop over the positions leaves. -/
theorem biased_spatialLoop {s : State} (h : ConvReady s) {o r c : Nat} (ho : o < s.outCh.toNat)
    (hr : r < Reference.outRows s) (hc : c < Reference.outCols s) :
    biased ((spatialLoop s).omemAt (Reference.outIndex s o r c)) ((spatialLoop s).biasOf o).1 = s.biasedSum o r c := by
  rw [State.omemAt, get?_spatialLoop h ho hr hc, biasOf_spatialLoop]
  rfl

/-- A word of the output tensor as CONV leaves it (44_conv.md R201, R202). -/
def State.outputWord (s : State) (o r c : Nat) : FxAcc :=
  pat 64 (if s.biasEn = 1 then sat 64 (s.biasedSum o r c) else Reference.tapSum s o r c)

theorem get?_convolve {s : State} (h : ConvReady s) {o r c : Nat} (ho : o < s.outCh.toNat) (hr : r < Reference.outRows s)
    (hc : c < Reference.outCols s) : (convolve s).omem.get? (Reference.outIndex s o r c) = some (s.outputWord o r c) := by
  rw [State.outputWord]
  by_cases hen : s.biasEn = 1
  · rw [convolve_of_bias hen, if_pos hen, ← biased_spatialLoop h ho hr hc]
    exact (get?_foldBias h.spatialLoop.omem List.nodup_range _).1 o (List.mem_range.mpr ho) (r, c)
      (mem_positions.mpr ⟨hr, hc⟩) rfl
  · rw [convolve_of_no_bias hen, if_neg hen, get?_spatialLoop h ho hr hc]

theorem get?_convolve_beyond {s : State} (h : ConvReady s) {x : Nat}
    (hx : s.outCh.toNat * Reference.outRows s * Reference.outCols s ≤ x) : (convolve s).omem.get? x = s.omem.get? x := by
  rw [← get?_spatialLoop_beyond h hx]
  by_cases hen : s.biasEn = 1
  · rw [convolve_of_bias hen]
    exact (get?_foldBias h.spatialLoop.omem List.nodup_range _).2 fun o ho p hp =>
      ne_outIndex_of_beyond hx (List.mem_range.mp ho) hp
  · rw [convolve_of_no_bias hen]

/-- Something is clamped: some tap of some position overflows, or with a bias some bias overflows or some addition of it
saturates (44_conv.md R198, R202). -/
def ConvClamps (s : State) : Prop :=
  (∃ r < Reference.outRows s, ∃ c < Reference.outCols s,
    ∃ ch < s.inCh.toNat, ∃ kr < s.kRows.toNat, ∃ kc < s.kCols.toNat, (Reference.tapWord s r c ch kr kc).2 = true) ∨
  (s.biasEn = 1 ∧ ∃ o < s.outCh.toNat, (Reference.biasWord s o).2 = true ∨
    ∃ r < Reference.outRows s, ∃ c < Reference.outCols s, sat 64 (s.biasedSum o r c) ≠ s.biasedSum o r c)

/-- QOVF after CONV: it was set, or something is clamped (10_state.md R43). -/
theorem qovf_convolve {s : State} (h : ConvReady s) : (convolve s).qovf = true ↔ s.qovf = true ∨ ConvClamps s := by
  rw [ConvClamps, ← or_assoc, ← qovf_spatialLoop]
  by_cases hen : s.biasEn = 1
  · rw [convolve_of_bias hen, qovf_foldBias h.spatialLoop.omem List.nodup_range]
    simp only [Bool.or_eq_true, List.any_eq_true, List.mem_range, decide_eq_true_eq, hen, true_and]
    refine or_congr_right (exists_congr fun o => and_congr_right fun ho => or_congr (by rw [biasOf_spatialLoop]) ?_)
    rw [← exists_mem_positions (P := fun r c => sat 64 (s.biasedSum o r c) ≠ s.biasedSum o r c)]
    refine exists_congr fun p => and_congr_right fun hp => ?_
    obtain ⟨hr, hc⟩ := mem_positions.mp hp
    rw [← biased_spatialLoop h ho hr hc]
    rfl
  · rw [convolve_of_no_bias hen]
    simp only [hen, false_and, or_false]

/-! ### The last position -/

/-- PBUF after one position: its patch, every word beyond as before. -/
theorem pbufAt_convPosition {s : State} (h : ConvReady s) (rows cols : Nat) (p : Nat × Nat) (x : Nat) :
    (convPosition rows cols s p).pbufAt x = if x < s.inFeatures then (s.encodedElem p.1 p.2 x).1 else s.pbufAt x := by
  rw [convPosition_eq, writeOutputs_eq]
  exact pbuf_summed h p x

/-- ACC after one position: its sums, every word beyond as before. -/
theorem accAt_convPosition {s : State} (h : ConvReady s) (rows cols : Nat) (p : Nat × Nat) (a : Nat) :
    (convPosition rows cols s p).accAt a =
      if a < s.colTiles.toNat * 128 then pat 64 (Reference.tapSum s a p.1 p.2) else s.accAt a := by
  rw [convPosition_eq, writeOutputs_eq, ← posSum_eq_tapSum]
  exact acc_summed h p a

/-- What every position of the loop keeps: `t` is ready for the next one, and the words of PBUF and ACC beyond a patch and its
sums are those of `s`. -/
structure LoopKeeps (s t : State) : Prop where
  ready : ConvReady t
  frame : ConvFrame s t
  pbuf : ∀ x, s.inFeatures ≤ x → t.pbufAt x = s.pbufAt x
  acc : ∀ a, s.colTiles.toNat * 128 ≤ a → t.accAt a = s.accAt a

theorem LoopKeeps.convPosition {s t : State} (h : LoopKeeps s t) (rows cols : Nat) (p : Nat × Nat) :
    LoopKeeps s (convPosition rows cols t p) := by
  obtain ⟨hready, hf, hpbuf, hacc⟩ := h
  have hi : t.inFeatures = s.inFeatures := by rw [hf]; rfl
  have hct : t.colTiles = s.colTiles := by rw [hf]
  refine ⟨hready.convPosition rows cols p, hf.trans (convFrame_convPosition rows cols t p), fun x hx => ?_, fun a ha => ?_⟩
  · rw [pbufAt_convPosition hready, hi, if_neg (by omega), hpbuf x hx]
  · rw [accAt_convPosition hready, hct, if_neg (by omega), hacc a ha]

/-- The last position of an output is its last row and column (44_conv.md R204). -/
theorem positions_succ (m n : Nat) :
    positions (m + 1) (n + 1) = (positions m (n + 1) ++ (List.range n).map fun c => (m, c)) ++ [(m, n)] := by
  simp [positions, List.range_succ, List.flatMap_append]

/-- An output has at least one row and one column, so the loop ends with its last position, on a state that keeps what every
position keeps. -/
theorem exists_spatialLoop_eq {s : State} (h : ConvReady s) : ∃ u, LoopKeeps (publishOutDims s) u ∧
    spatialLoop s = convPosition (Reference.outRows s) (Reference.outCols s) u
      (Reference.outRows s - 1, Reference.outCols s - 1) := by
  refine ⟨_, ?_, (congrArg (List.foldl _ _) (positions_succ _ _)).trans (List.foldl_concat ..)⟩
  exact List.foldlRecOn _ _ (motive := LoopKeeps (publishOutDims s)) ⟨h.publishOutDims, .refl _, fun _ _ => rfl, fun _ _ => rfl⟩
    fun t ht p _ => ht.convPosition _ _ p

/-- The bias pass writes neither the position counters nor PBUF nor ACC. -/
theorem biasFrame_convolve (s : State) : BiasFrame (spatialLoop s) (convolve s) := biasFrame_biasPass _ _ _

/-- The position counters after CONV are at the last position. -/
theorem toNat_pos_convolve {s : State} (h : ConvReady s) :
    (convolve s).posR.toNat = Reference.outRows s - 1 ∧ (convolve s).posC.toNat = Reference.outCols s - 1 := by
  obtain ⟨u, -, hu⟩ := exists_spatialLoop_eq h
  obtain ⟨hr, hc⟩ := callOut_lt s
  rw [biasFrame_convolve s, hu, convPosition_eq, writeOutputs_eq]
  exact ⟨Nat.mod_eq_of_lt (lt_of_le_of_lt (Nat.sub_le _ _) hr), Nat.mod_eq_of_lt (lt_of_le_of_lt (Nat.sub_le _ _) hc)⟩

/-- PBUF after CONV: the patch of the last position, every word beyond as before. -/
theorem pbufAt_convolve {s : State} (h : ConvReady s) (x : Nat) : (convolve s).pbufAt x = if x < s.inFeatures then
    (s.encodedElem (Reference.outRows s - 1) (Reference.outCols s - 1) x).1 else s.pbufAt x := by
  obtain ⟨u, ⟨hready, hf, hpbuf, -⟩, hu⟩ := exists_spatialLoop_eq h
  have hi : u.inFeatures = s.inFeatures := by rw [hf]; rfl
  have hlast : (convolve s).pbufAt x = (spatialLoop s).pbufAt x := by rw [biasFrame_convolve s]; rfl
  rw [hlast, hu, pbufAt_convPosition hready, hi, hf.encodedElem_eq]
  split
  · rfl
  · next hx => exact hpbuf x (not_lt.mp hx)

/-- ACC after CONV: the sums of the last position, every word beyond as before. -/
theorem accAt_convolve {s : State} (h : ConvReady s) (a : Nat) : (convolve s).accAt a = if a < s.colTiles.toNat * 128 then
    pat 64 (Reference.tapSum s a (Reference.outRows s - 1) (Reference.outCols s - 1)) else s.accAt a := by
  obtain ⟨u, ⟨hready, hf, -, hacc⟩, hu⟩ := exists_spatialLoop_eq h
  have hct : u.colTiles = s.colTiles := by rw [hf]; rfl
  have hlast : (convolve s).accAt a = (spatialLoop s).accAt a := by rw [biasFrame_convolve s]; rfl
  rw [hlast, hu, accAt_convPosition hready, hct, hf.tapSum_eq]
  split
  · rfl
  · next ha => exact hacc a (not_lt.mp ha)

end Sys2Proof.Machine
end

section
/-! CONV as a command: the tensor, the last position, QOVF, the exact convolution after BUILD, one position by ENCP and SMVM, and
that nothing but the operands matters (44_conv.md R200 to R207). -/

namespace Sys2Proof.Machine

/-! ### The command -/

theorem ConvReady.started {s : State} (h : ConvReady s) : ConvReady (started s) := { h with }

/-- What CONV leaves when it runs. -/
abbrev afterConv (s : State) : State := ended (convolve (started s))

/-- CONV while BUILT, with a valid call that fits OMEM: its effect. -/
theorem exec_conv_built {s : State} (hreg : RegistersOk s) (hb : s.state = .built) (hv : CallValid s)
    (hcap : s.outCh.toNat * Reference.outRows s * Reference.outCols s ≤ s.caps.capO) :
    exec .conv s = .next (afterConv s) :=
  exec_of_passing (i := .conv) nofun (by simp [hb]) (firstFailing_checksOf_conv hb hv hcap)
    fun _ => engineFits_of_built hreg hb

theorem omemAt_afterConv {s : State} (h : ConvReady s) {o r c : Nat} (ho : o < s.outCh.toNat) (hr : r < Reference.outRows s)
    (hc : c < Reference.outCols s) : (afterConv s).omemAt (Reference.outIndex s o r c) = s.outputWord o r c :=
  congrArg (Option.getD · _) (get?_convolve h.started ho hr hc)

theorem qovf_afterConv {s : State} (h : ConvReady s) : (afterConv s).qovf = true ↔ s.qovf = true ∨ ConvClamps s :=
  qovf_convolve h.started

/-- While BUILT a word of the output tensor is the sum of its position, with the saturated bias where there is one. -/
theorem outputWord_eq {s : State} (h : Inv s) (hb : s.state = .built) {o : Nat} (ho : o < s.outCh.toNat) (r c : Nat) :
    s.outputWord o r c = BitVec.ofInt 64
      (if s.biasEn = 1 then Reference.sat 64 (Reference.tapSum s o r c + (Reference.biasWord s o).1.toInt)
        else Reference.tapSum s o r c) := by
  rw [State.outputWord, biasedSum_eq h hb ho, sat_eq_reference, pat]

/-- Settles O32: the frame of CONV, the words of the tensor and those beyond it. -/
theorem convComputesTheConvolution : Obligations.ConvComputesTheConvolution := by
  intro s h hb hv hcap
  have hready := h.convReady hb
  have hf := convFrame_convolve (started s)
  obtain ⟨hrows, hcols⟩ := toNat_publishOutDims s
  refine ⟨_, exec_conv_built h.registers hb hv hcap, ?_, ?_, ?_, fun o ho r hr c hc => ?_, fun x hx => ?_⟩
  · rw [afterConv, hf, ended, ← h.registers.notBusy]
    rfl
  · rw [← hrows, afterConv, hf]
    rfl
  · rw [← hcols, afterConv, hf]
    rfl
  · rw [omemAt_afterConv hready ho hr hc, outputWord_eq h hb ho]
  · exact omemAt_of_get? (t := afterConv s) (by rw [afterConv, hf]; rfl) (get?_convolve_beyond hready.started hx)

/-- Settles O33: what the last position leaves, which the bias pass does not touch. -/
theorem convLeavesTheLastPosition : Obligations.ConvLeavesTheLastPosition := by
  intro s h hb hv hcap
  have hready := (h.convReady hb).started
  have hcols := (h.convReady hb).cols
  obtain ⟨hposR, hposC⟩ := toNat_pos_convolve hready
  have hpbuf : ∀ x, (afterConv s).pbufAt x = if x < s.inFeatures then
      (s.encodedElem (Reference.outRows s - 1) (Reference.outCols s - 1) x).1 else s.pbufAt x := pbufAt_convolve hready
  have hacc : ∀ a, (afterConv s).accAt a = if a < s.colTiles.toNat * 128 then
      pat 64 (Reference.tapSum s a (Reference.outRows s - 1) (Reference.outCols s - 1)) else s.accAt a := accAt_convolve hready
  refine ⟨_, exec_conv_built h.registers hb hv hcap, hposR, hposC, fun ch hch kr hkr kc hkc => ?_, fun o ho => ?_,
    fun a ho ha => ?_, fun x hx => ?_, fun a ha => ?_⟩
  · rw [hpbuf, if_pos (tapIndex_lt hch hkr hkc), encodedElem_tapIndex s _ _ hkr hkc]
  · rw [hacc, if_pos (by omega), pat]
  · rw [hacc, if_pos ha, tapSum_padding h hb ho ha]
    rfl
  · rw [hpbuf, if_neg (by omega)]
  · rw [hacc, if_neg (by omega)]

/-- Settles O34: QOVF is set by what CONV clamps, and the bias pass adds to the exact sums. -/
theorem convOverflowIsLogged : Obligations.ConvOverflowIsLogged := by
  intro s h hb hv hcap
  refine ⟨_, exec_conv_built h.registers hb hv hcap, (qovf_afterConv (h.convReady hb)).trans ?_⟩
  refine or_congr_right (or_congr_right (and_congr_right fun _ => exists_congr fun o => and_congr_right fun ho => ?_))
  simp only [← biasedSum_eq h hb ho, ← sat_eq_reference]

/-! ### The exact convolution -/

/-- After BUILD the cells of a coordinate hold the slices of its weight's word (41_build.md R152, R153). -/
theorem holdsWord_buildEffect {s : State} (hm : s.tstore.wf) (hv : LayerValid s) {i j row col : Nat}
    (hi : i < s.layerRowTiles) (hj : j < s.layerColTiles) (hr : row < 128) (hc : col < 128) :
    (buildEffect s).HoldsWord i j row col (coordinateWord s (i * 128 + row) (j * 128 + col)) := by
  obtain ⟨-, -, ec, en⟩ := buildEffect_geometry hv
  intro k hk
  rw [en] at hk
  rw [ec, en]
  exact get?_built hm hi hj hk hr hc

/-- After BUILD the grid's matrix is the quantized weights of WMEM (44_conv.md R203). -/
theorem gridWeight_buildEffect {s : State} (hm : s.tstore.wf) (hv : LayerValid s) {o f : Nat} (ho : o < s.outCh.toNat)
    (hf : f < s.inFeatures) : Reference.gridWeight (ended (buildEffect s)) o f =
      (Reference.quantize 16 s.fW (Reference.f32 (s.wmemAt (o * s.inFeatures + f)))).1.toInt := by
  obtain ⟨-, -, -, hn⟩ := buildEffect_geometry hv
  have hrow : f % 128 < 128 := Nat.mod_lt _ (by norm_num)
  have hcol : o % 128 < 128 := Nat.mod_lt _ (by norm_num)
  have hi : f / 128 < s.layerRowTiles := lt_ceilDiv_mul (by rwa [Nat.div_add_mod']) hrow
  have hj : o / 128 < s.layerColTiles := lt_ceilDiv_mul (by rwa [Nat.div_add_mod']) hcol
  rw [Reference.gridWeight, weightIsTheStoredWord (ended (buildEffect s)) _ _ _ _ _ hv.sliceW.1 hv.sliceW.2 hn
    (holdsWord_buildEffect hm hv hi hj hrow hcol), Nat.div_add_mod', Nat.div_add_mod', coordinateWord, if_pos ⟨hf, ho⟩,
    quantizedWeight, quantize_f32_eq_reference]

/-- A sum of a position, scaled, is the sum of the scaled products. -/
theorem tapSum_div (s : State) (o r c : Nat) : (Reference.tapSum s o r c : ℚ) / 2 ^ (s.fIn + s.fW) =
    ∑ ch ∈ Finset.range s.inCh.toNat, ∑ kr ∈ Finset.range s.kRows.toNat, ∑ kc ∈ Finset.range s.kCols.toNat,
      (Reference.gridWeight s o (Reference.tapIndex s ch kr kc) : ℚ) / 2 ^ s.fW *
        (((Reference.tapWord s r c ch kr kc).1.toInt : ℚ) / 2 ^ s.fIn) := by
  simp only [Reference.tapSum, Int.cast_sum, Int.cast_mul, Finset.sum_div, div_mul_div_comm, pow_add,
    mul_comm ((2 : ℚ) ^ s.fIn)]

/-- Where nothing is clamped an output word reads as the exact sum of its position, with its bias where there is one. -/
theorem toInt_outputWord {s : State} (h : Inv s) (hb : s.state = .built) (hn : ¬ ConvClamps s) {o r c : Nat}
    (ho : o < s.outCh.toNat) (hr : r < Reference.outRows s) (hc : c < Reference.outCols s) :
    (s.outputWord o r c).toInt =
      Reference.tapSum s o r c + if s.biasEn = 1 then (Reference.biasWord s o).1.toInt else 0 := by
  by_cases hen : s.biasEn = 1
  · have hexact : sat 64 (s.biasedSum o r c) = s.biasedSum o r c := by
      by_contra hne
      exact hn (.inr ⟨hen, o, ho, .inr ⟨r, hr, c, hc, hne⟩⟩)
    obtain ⟨hl, hu⟩ := sat_mem 64 (s.biasedSum o r c)
    rw [State.outputWord, if_pos hen, if_pos hen, toInt_pat (by norm_num) hl hu, hexact, biasedSum_eq h hb ho]
  · rw [State.outputWord, if_neg hen, if_neg hen, toInt_pat_tapSum h hb ho, add_zero]

/-- Settles O35: BUILD leaves the quantized weights in the grid, and where QOVF ends clear CONV clamped nothing, so its words read
as the exact sums. -/
theorem unclampedOutputIsTheExactConvolution : Obligations.UnclampedOutputIsTheExactConvolution := by
  intro s h hs hv hcall hcap _
  have hx := exec_build hs hv
  have hinv : Inv (ended (buildEffect s)) := ⟨h.registers.exec hx, h.memories.exec hx, h.grid.exec h.memories.tstore.1 hx⟩
  have hready := hinv.convReady rfl
  refine ⟨_, _, hx, exec_conv_built hinv.registers rfl { hcall with } hcap, fun hq o ho r hr c hc => ?_⟩
  have hn : ¬ ConvClamps (ended (buildEffect s)) := fun hcl => by
    rw [(qovf_afterConv hready).mpr (.inr hcl)] at hq
    cases hq
  have hword : ((afterConv (ended (buildEffect s))).omemAt (Reference.outIndex s o r c)).toInt =
      Reference.tapSum (ended (buildEffect s)) o r c + if s.biasEn = 1 then (Reference.biasWord s o).1.toInt else 0 :=
    (congrArg BitVec.toInt (omemAt_afterConv hready ho hr hc)).trans (toInt_outputWord hinv rfl hn ho hr hc)
  rw [hword, Int.cast_add, add_div]
  refine congrArg₂ _ ((tapSum_div _ o r c).trans ?_) ?_
  · refine Finset.sum_congr rfl fun ch hch => Finset.sum_congr rfl fun kr hkr => Finset.sum_congr rfl fun kc hkc => ?_
    have hf : Reference.tapIndex s ch kr kc < s.inFeatures :=
      tapIndex_lt (Finset.mem_range.mp hch) (Finset.mem_range.mp hkr) (Finset.mem_range.mp hkc)
    rw [← gridWeight_buildEffect h.memories.tstore.1 hv ho hf]
    rfl
  · split <;> simp

/-! ### One position by hand -/

/-- SMVM on an encoded patch leaves the sums of its position in ACC. -/
theorem accAt_accumulate_encodePatch {s : State} (h : ConvReady s) (r c : Nat) {o : Nat} (ho : o < s.outCh.toNat) :
    (accumulate (encodePatch r c s)).accAt o = pat 64 (Reference.tapSum s o r c) := by
  rw [acc_accumulate (s := encodePatch r c s) h.acc, schedMvm_encodePatch_eq_tapSum h]
  exact if_pos (lt_of_lt_of_le ho h.cols)

/-- Settles O36: the words SMVM leaves are those of the sums of the position, which read back exactly. -/
theorem encpThenSmvmIsOnePositionOfConv : Obligations.EncpThenSmvmIsOnePositionOfConv := by
  intro s h hb hv hcap hr hc
  obtain ⟨t, ht, -, -, -, hword, -⟩ := convComputesTheConvolution s h hb hv hcap
  have hencp := exec_encp_built h.registers hb hv hr hc
  have hacc : ∀ o < s.outCh.toNat, (accumulate (encodePatch s.posR.toNat s.posC.toNat (publishOutDims s))).accAt o =
      pat 64 (Reference.tapSum s o s.posR.toNat s.posC.toNat) := fun o ho =>
    accAt_accumulate_encodePatch (h.convReady hb).publishOutDims _ _ ho
  refine ⟨_, _, t, hencp, exec_smvm_built (h.registers.exec hencp) hb, ht, fun o ho => ?_⟩
  rw [hword o ho _ hr _ hc, hacc o ho, toInt_pat_tapSum h hb ho, apply_ite (BitVec.ofInt 64)]
  rfl

/-! ### The operands -/

/-- Every index below the size of the tensor is that of one of its words. -/
theorem exists_outIndex {s : State} {x : Nat} (hx : x < s.outCh.toNat * Reference.outRows s * Reference.outCols s) :
    ∃ o < s.outCh.toNat, ∃ r < Reference.outRows s, ∃ c < Reference.outCols s, x = Reference.outIndex s o r c := by
  have hr : 0 < Reference.outRows s := Nat.succ_pos _
  have hc : 0 < Reference.outCols s := Nat.succ_pos _
  have hrow : x / Reference.outCols s < s.outCh.toNat * Reference.outRows s := (Nat.div_lt_iff_lt_mul hc).mpr hx
  refine ⟨x / Reference.outCols s / Reference.outRows s, (Nat.div_lt_iff_lt_mul hr).mpr hrow,
    x / Reference.outCols s % Reference.outRows s, Nat.mod_lt _ hr, x % Reference.outCols s, Nat.mod_lt _ hc, ?_⟩
  rw [Reference.outIndex, Nat.div_add_mod', Nat.div_add_mod']

/-- `s'` differs from `s` at most in what is no operand of CONV (44_conv.md R200). -/
structure SameOperands (s s' : State) : Prop where
  bias : s.biasEn = 1 → s'.bmem = s.bmem
  rest : s' = { s with
    pbuf := s'.pbuf, acc := s'.acc, omem := s'.omem, tout := s'.tout, posR := s'.posR, posC := s'.posC
    wmem := s'.wmem, bmem := s'.bmem, outRows := s'.outRows, outCols := s'.outCols
    arg0 := s'.arg0, result := s'.result, tileI := s'.tileI, tileJ := s'.tileJ
    errCode := s'.errCode, errInfo := s'.errInfo, port := s'.port, readLog := s'.readLog }

theorem SameOperands.callValid {s s' : State} (e : SameOperands s s') (h : CallValid s) : CallValid s' := by
  rw [e.rest]
  exact { h with }

theorem SameOperands.biasEn_eq {s s' : State} (e : SameOperands s s') : s'.biasEn = s.biasEn := by rw [e.rest]

theorem SameOperands.biasWord_eq {s s' : State} (e : SameOperands s s') (hen : s.biasEn = 1) (o : Nat) :
    Reference.biasWord s' o = Reference.biasWord s o := by
  have he := e.rest
  rw [e.bias hen] at he
  rw [he]
  rfl

theorem SameOperands.tapSum_eq {s s' : State} (e : SameOperands s s') (o r c : Nat) :
    Reference.tapSum s' o r c = Reference.tapSum s o r c := by
  rw [e.rest]
  rfl

theorem SameOperands.biasedSum_eq {s s' : State} (e : SameOperands s s') (hen : s.biasEn = 1) (o r c : Nat) :
    s'.biasedSum o r c = s.biasedSum o r c := by
  rw [State.biasedSum, State.biasedSum, e.tapSum_eq, e.biasWord_eq hen]

/-- A word of the tensor is given by the operands. -/
theorem SameOperands.outputWord_eq {s s' : State} (e : SameOperands s s') (o r c : Nat) :
    s'.outputWord o r c = s.outputWord o r c := by
  rw [State.outputWord, State.outputWord, e.biasEn_eq, e.tapSum_eq]
  by_cases hen : s.biasEn = 1
  · rw [e.biasedSum_eq hen]
  · rw [if_neg hen, if_neg hen]

/-- Whether something is clamped is given by the operands. -/
theorem SameOperands.convClamps_iff {s s' : State} (e : SameOperands s s') : ConvClamps s' ↔ ConvClamps s := by
  rw [ConvClamps, ConvClamps, e.biasEn_eq]
  refine or_congr (by rw [e.rest]; rfl) (and_congr_right fun hen => ?_)
  simp only [e.biasWord_eq hen, e.biasedSum_eq hen]
  rw [e.rest]
  rfl

/-- Settles O38: each word of the tensor, and whether something is clamped, is given by operands that the two states share. -/
theorem convDependsOnlyOnItsOperands : Obligations.ConvDependsOnlyOnItsOperands := by
  intro s s' h h' hb hv hcap hbmem he
  have e : SameOperands s s' := ⟨hbmem, he⟩
  have hb' : s'.state = .built := by rw [he]; exact hb
  have hrows : Reference.outRows s' = Reference.outRows s := by rw [he]; rfl
  have hcols : Reference.outCols s' = Reference.outCols s := by rw [he]; rfl
  have hch : s'.outCh = s.outCh := by rw [he]
  have hcap' : s'.outCh.toNat * Reference.outRows s' * Reference.outCols s' ≤ s'.caps.capO := by
    rw [hch, hrows, hcols, he]
    exact hcap
  have hready := h.convReady hb
  have hready' := h'.convReady hb'
  refine ⟨_, _, exec_conv_built h.registers hb hv hcap, exec_conv_built h'.registers hb' (e.callValid hv) hcap', ?_,
    fun x hx => ?_⟩
  · rw [Bool.eq_iff_iff, qovf_afterConv hready, qovf_afterConv hready', e.convClamps_iff, show s'.qovf = s.qovf by rw [he]]
  · obtain ⟨o, ho, r, hr, c, hc, rfl⟩ := exists_outIndex hx
    have hindex : Reference.outIndex s o r c = Reference.outIndex s' o r c := by
      rw [Reference.outIndex, Reference.outIndex, hrows, hcols]
    rw [omemAt_afterConv hready ho hr hc, hindex,
      omemAt_afterConv hready' (by rwa [hch]) (by rwa [hrows]) (by rwa [hcols]), e.outputWord_eq]

end Sys2Proof.Machine
end

section
/-! The issue of a command by a write to CMD, and the two system commands (10_state.md R25; 45_system.md R220 to R222). -/

namespace Sys2Proof.Machine

/-! ### Issue -/

theorem issue_of_decode {w : CmdWord} {i : Instr} (hd : decode w = .ok i) (s : State) : issue w s = exec i s := by
  rw [issue, hd]

/-- The step of a command word written to CMD while BUSY = 0 is the command, the event taken. -/
theorem step_eq_exec {s : State} {d : HostData} {rest : List PortEvent} {i : Instr} (hb : s.busy = false)
    (hp : s.port = .write cmdAddr d :: rest) (hd : decode (d.setWidth 32) = .ok i) :
    step s = exec i { s with port := rest } := by
  rw [step_eq_hostWrite hp, hostWrite_cmdAddr (s := { s with port := rest }) hb, issue_of_decode hd]

theorem decodeTableWord_eq_some_iff {n w : Nat} {i : Instr} :
    decodeTableWord n w = some i ↔ decode (tableWord n w) = .ok i := by
  unfold decodeTableWord
  cases decode (tableWord n w) <;> simp

/-- CMD takes the low half of its data: the word placed at the port is the word issued. -/
theorem setWidth_setWidth_cmdWord (w : CmdWord) : (w.setWidth 64).setWidth 32 = w := by
  rw [BitVec.setWidth_setWidth_of_le w (by decide), BitVec.setWidth_eq]

/-- Settles O5: the placed word is a write to CMD like any other, and with it taken from the port the state is `s` again. -/
theorem stepRunsDecodedCommand : Obligations.StepRunsDecodedCommand := by
  refine ⟨fun s d rest i hb hp hd => step_eq_exec hb hp hd, fun s w i hb hw => ?_⟩
  have hd : decode (((tableWord 32 w).setWidth 64).setWidth 32) = .ok i := by
    rw [setWidth_setWidth_cmdWord]
    exact decodeTableWord_eq_some_iff.mp hw
  exact step_eq_exec (s := s.withFetchWord 32 w) (rest := s.port) hb rfl hd

/-! ### SRESET and CLRERR -/

theorem exec_sreset (s : State) : exec .sreset s = .next (resetRegisters s) := rfl

theorem keepsMemories_resetRegisters (s : State) : KeepsMemories s (resetRegisters s) := by
  constructor <;> simp

/-- Settles O11: SRESET has no prologue, so FAULT does not discard it, and the reset of the registers is all it does. -/
theorem sresetKeepsMemories : Obligations.SresetKeepsMemories := fun s =>
  ⟨_, exec_sreset s, registersReset_resetRegisters s, keepsMemories_resetRegisters s⟩

/-- Settles O39: CLRERR has no check, so outside FAULT the cleared record is all it leaves. -/
theorem clrerrClearsTheRecord : Obligations.ClrerrClearsTheRecord := by
  intro s hs
  have hx : exec .clrerr s = .next (ended (clearRecord (started s))) :=
    exec_of_passing (i := .clrerr) nofun hs rfl nofun
  rw [hx, clearRecord]

end Sys2Proof.Machine
end

section
/-! Precise errors: what a command, a host access and a step can do to the error record (60_exceptions.md R241 to R245). -/

namespace Sys2Proof.Machine

/-! ### The record under a command -/

/-- `t` holds the error record of `s`. -/
def SameRecord (s t : State) : Prop := t.errCode = s.errCode ∧ t.errInfo = s.errInfo

/-- TMVM with an index outside the grid is the one effect that records an error, and CLRERR the one that clears it. -/
theorem sameRecord_effectOf_or (s : State) (i : Instr) :
    SameRecord s (effectOf s i) ∨ i = .clrerr ∨ (i = .tmvm ∧ tileOutside s = true) := by
  cases i with
  | clrerr => exact .inr (.inl rfl)
  | tmvm =>
    cases ho : tileOutside s
    · rw [effectOf, ho]
      exact .inl ⟨rfl, rfl⟩
    · exact .inr (.inr ⟨rfl, rfl⟩)
  | conv =>
    rw [effectOf, convFrame_convolve s]
    exact .inl ⟨rfl, rfl⟩
  | _ => exact .inl ⟨rfl, rfl⟩

/-- No check reads the record. -/
theorem checksOf_withRecord (s : State) (i : Instr) (code : BitVec 8) (info : BitVec 64) :
    checksOf { s with errCode := code, errInfo := info } i = checksOf s i := by
  cases i <;> rfl

/-- Settles O40: an error comes from a failing check, before every write, or from TMVM outside the grid; neither reads the
record that stands there. -/
theorem errorsArePrecise : Obligations.ErrorsArePrecise := by
  intro i s t hs hi hx ht
  rcases exec_next hx with ⟨e, -⟩ | ⟨-, hf, -⟩ | ⟨-, -, c, hc, -⟩ | ⟨-, -, hc, -, rfl⟩
  · exact absurd e hi
  · exact absurd hf hs
  · rw [checksOf_withRecord] at hc
    exact ⟨_, exec_of_failing hi hs hc, rfl, fun hne => absurd rfl hne⟩
  · rw [checksOf_withRecord] at hc
    rcases sameRecord_effectOf_or (started { s with errCode := 0, errInfo := 0 }) i with ⟨hcode, -⟩ | rfl | ⟨rfl, ho⟩
    · exact absurd hcode ht
    · exact absurd rfl ht
    · have hb := built_of_checks (by simp) hc
      exact ⟨_, exec_tmvm_outside hb ((tileOutside_iff s).mp ho), rfl, fun _ => ⟨rfl, rfl, rfl⟩⟩

/-! ### The first error wins -/

theorem sameRecord_raiseError {s : State} (h : s.errCode ≠ 0) (e : ErrorCode) (info : BitVec 64) :
    SameRecord s (raiseError e info s) := ⟨if_neg h, if_neg h⟩

theorem sameRecord_illegalCommand {s : State} (h : s.errCode ≠ 0) (w : CmdWord) : SameRecord s (illegalCommand w s) := by
  unfold illegalCommand
  split
  · exact ⟨rfl, rfl⟩
  · exact sameRecord_raiseError h _ _

theorem sameRecord_hostStore {s : State} (h : s.errCode ≠ 0) (a : HostAddr) (d : HostData) :
    SameRecord s (hostStore a d s) := by
  rcases hostStore_record a d s with ⟨-, info, e⟩ | hr
  · rw [e]
    exact sameRecord_raiseError h _ _
  · exact hr

/-- The fatal error of 60_exceptions.md R243 in `t`, with the tile indices of `s`. -/
def FatalRecord (s t : State) : Prop := t.state = .fault ∧ t.errCode = 0x80 ∧ t.errInfo = s.tileI ++ s.tileJ

/-- What a command can do to a recorded error. -/
theorem record_exec {i : Instr} {s t : State} (hx : exec i s = .next t) (h : s.errCode ≠ 0) :
    SameRecord s t ∨ (i = .tmvm ∧ FatalRecord s t) ∨ ((i = .clrerr ∨ i = .sreset) ∧ t.errCode = 0 ∧ t.errInfo = 0) := by
  rcases exec_next hx with ⟨rfl, rfl⟩ | ⟨-, -, rfl⟩ | ⟨-, -, c, -, rfl⟩ | ⟨-, -, -, -, rfl⟩
  · exact .inr (.inr ⟨.inr rfl, rfl, rfl⟩)
  · exact .inl ⟨rfl, rfl⟩
  · exact .inl (sameRecord_raiseError h c.error c.info)
  · rcases sameRecord_effectOf_or (started s) i with hr | rfl | ⟨rfl, ho⟩
    · exact .inl hr
    · exact .inr (.inr ⟨.inl rfl, rfl, rfl⟩)
    · rw [effectOf, if_pos ho]
      exact .inr (.inl ⟨rfl, rfl, rfl, rfl⟩)

/-- What a step can do to a recorded error, by its event. -/
theorem record_step {s t : State} {e : PortEvent} (he : s.nextIs e) (hstep : step s = .next t) (h : s.errCode ≠ 0) :
    SameRecord s t ∨ (e.Issues .tmvm ∧ FatalRecord s t) ∨
    ((e.Issues .clrerr ∨ e.Issues .sreset ∨ e = .reset) ∧ t.errCode = 0 ∧ t.errInfo = 0) := by
  obtain ⟨rest, hp⟩ := he
  rcases step_next hstep with ⟨hnil, -⟩ | ⟨e', rest', hp', hcase⟩
  · rw [hp] at hnil
    cases hnil
  rw [hp] at hp'
  cases hp'
  have h' : ({ s with port := rest } : State).errCode ≠ 0 := h
  rcases hcase with ⟨a, -, rfl⟩ | ⟨rfl, rfl⟩ | ⟨d, -, -, rfl⟩ | ⟨d, i, rfl, -, hi, hx⟩ | ⟨d, r, -, -, -, rfl⟩ |
    ⟨a, d, -, -, rfl⟩
  · exact .inl ⟨rfl, rfl⟩
  · exact .inr (.inr ⟨.inr (.inr rfl), rfl, rfl⟩)
  · exact .inl ⟨rfl, rfl⟩
  · rcases record_exec hx h' with hr | ⟨rfl, hf⟩ | ⟨rfl | rfl, hz⟩
    · exact .inl hr
    · exact .inr (.inl ⟨⟨d, rfl, hi⟩, hf⟩)
    · exact .inr (.inr ⟨.inl ⟨d, rfl, hi⟩, hz⟩)
    · exact .inr (.inr ⟨.inr (.inl ⟨d, rfl, hi⟩), hz⟩)
  · exact .inl (sameRecord_illegalCommand h' _)
  · exact .inl (sameRecord_hostStore h' a d)

/-- Settles O41: an access and an error entry keep a recorded error, and so does every command but TMVM outside the grid, CLRERR
and SRESET. -/
theorem firstErrorWins : Obligations.FirstErrorWins := by
  intro s t e he hstep h hne
  rcases record_step he hstep h with ⟨hcode, hinfo⟩ | hrest
  · exact absurd hinfo (hne.resolve_left fun hc => hc hcode)
  · exact hrest

end Sys2Proof.Machine
end

section
/-! Idle steps and hardware reset: what the step of each leaves, and the invariant right after reset (70_reset_and_hazards.md R270
to R272, R279). -/

namespace Sys2Proof.Machine

/-- Settles O8: no event is pending to be performed. -/
theorem idleBlockKeepsState : Obligations.IdleBlockKeepsState := by
  intro s hp
  simp only [step, nextEvent, hp]

/-! ### Hardware reset -/

/-- No word of a memory in which nothing is written is known. -/
theorem Memory.get?_empty {w : Nat} (i : Nat) : (Memory.empty w).get? i = none := by
  simp [Memory.get?]

/-- Hardware reset leaves in the registers what `Reset()` leaves (70_reset_and_hazards.md R270, R271). -/
theorem registersReset_hardwareReset (s : State) : RegistersReset (hardwareReset s) :=
  { registersReset_resetRegisters s with }

/-- The step of a hardware reset is the reset, the event taken. -/
theorem step_eq_hardwareReset {s : State} {rest : List PortEvent} (hp : s.port = .reset :: rest) :
    step s = .next (hardwareReset { s with port := rest }) := by
  simp only [step, nextEvent, hp, portEvent]

/-- Settles O10: the registers are those of `Reset()`, the two constant registers are read with BUSY = 0, and every memory is
the empty one. -/
theorem hardwareResetSetsEveryRegister : Obligations.HardwareResetSetsEveryRegister := by
  intro s rest hp
  have hread (c : Csr) : hostRead (hardwareReset { s with port := rest }) (Script.registerAddr c) = c.read _ :=
    hostRead_registerAddr rfl
  exact ⟨_, step_eq_hardwareReset hp, registersReset_hardwareReset _, hread .tileDim, hread .cmd,
    fun i => by simp [State.reset, Memory.get?_empty i], rfl, rfl, rfl⟩

/-! ### The invariant after hardware reset -/

/-- The largest capacities that 00_scope.md R6 allows are allowed. -/
theorem legal_capacities : Config.capacities.Legal := by decide

/-- Settles O52: `State.reset` is its own `Reset()`, its memories are those of any block after hardware reset, and the grid says
nothing of an UNBUILT block. -/
theorem resetMeetsTheInvariant : Obligations.ResetMeetsTheInvariant where
  registers := registersOk_resetRegisters (s := State.reset) legal_capacities
  memories := { memoriesOk_hardwareReset State.reset with }
  grid := gridOk_of_not_built (by decide)

end Sys2Proof.Machine
end
